-- ==== Sys2Proof/Word.lean ====
section
/-! DEFINITION. The words of the machine: 32-bit registers and instructions, 8-bit bytes, the 26-bit
address bus, the 24 bits the program counter holds (spec/00_scope.md rule R7). -/

namespace Sys2Proof

/-- A 32-bit register value, memory word or instruction word (rules R7, R10, R80). -/
abbrev Word := BitVec 32

/-- A byte of memory (rule R51). -/
abbrev Byte := BitVec 8

/-- A byte address on the 26-bit address bus (rules R7, R50). -/
abbrev Addr := BitVec 26

/-- The 24 bits of the program counter, address bits 25:2 (rules R24, R26). -/
abbrev PcWord := BitVec 24

end Sys2Proof
end

