-- ==== Sys2Proof/Config.lean ====
section
/-! DEFINITION. The values the spec leaves free (`any`, spec/00_scope.md rule R14). They are constants
with no body: nothing evaluates them and no proof knows a value of one. The state's counter
`freeCount` picks a fresh one at each use (log 21). -/

namespace Sys2Proof.Config

/-- The n-th free 32-bit value a run draws: a base register after an abort, a register after a reset
event (rules R178, R199, R200, R230). -/
opaque freeWord : Nat → Word

/-- The n-th free flag a run draws: N, Z, C, V after a reset event (rule R230). -/
opaque freeFlag : Nat → Bool

end Sys2Proof.Config
end

