-- ==== Sys2Proof/Syntax.lean ====
section
/-! DEFINITION. The instructions of the ARM, one constructor for each of the 66 rows of
spec/opcode_table.json, over operand fields that are already pulled apart (spec/30_encoding.md). -/

namespace Sys2Proof

/-- The sixteen conditions of bits 31:28 (spec/10_state.md rule R30). -/
inductive Cond where
  | eq | ne | cs | cc | mi | pl | vs | vc | hi | ls | ge | lt | gt | le | al | nv
  deriving DecidableEq, Repr

/-- A register number: R0 to R14, or R15, which is the program counter with the PSR and is never
read or written as the others are (rules R11, R20, R24). -/
inductive Reg where
  | gpr (i : Fin 15)
  | r15
  deriving DecidableEq, Repr

/-- The shift types of bits 6:5 (spec/30_encoding.md rule R85). -/
inductive ShiftType where
  | lsl | lsr | asr | ror
  deriving DecidableEq, Repr

/-- The sixteen data-processing operations (spec/41_data_processing.md rule R120). -/
inductive DpOp where
  | and | eor | sub | rsb | add | adc | sbc | rsc | tst | teq | cmp | cmn | orr | mov | bic | mvn
  deriving DecidableEq, Repr

/-- The fields every data-processing word has: condition, S, Rn, Rd (rule R84). -/
structure DpHead where
  cond : Cond
  s    : Bool
  rn   : Reg
  rd   : Reg
  deriving DecidableEq, Repr

/-- Operand 2, an 8-bit value rotated right by twice a 4-bit number (rules R86, R134). -/
structure ImmOperand where
  rotate : BitVec 4
  imm8   : BitVec 8
  deriving DecidableEq, Repr

/-- A register shifted by a constant (rules R85, R130, R131). -/
structure ShiftImmOperand where
  amount : BitVec 5
  ty     : ShiftType
  rm     : Reg
  deriving DecidableEq, Repr

/-- A register shifted by a register (rules R85, R132). -/
structure ShiftRegOperand where
  rs : Reg
  ty : ShiftType
  rm : Reg
  deriving DecidableEq, Repr

/-- The three forms of operand 2 (spec/41_data_processing.md section 2). -/
inductive Operand2 where
  | imm (o : ImmOperand)
  | shiftImm (o : ShiftImmOperand)
  | shiftReg (o : ShiftRegOperand)
  deriving DecidableEq, Repr

/-- The fields every single data transfer has but its offset: condition, P, U, W, Rn, Rd
(spec/30_encoding.md rule R87). B and L tell the four instructions apart. -/
structure SdtHead where
  cond : Cond
  p    : Bool
  u    : Bool
  w    : Bool
  rn   : Reg
  rd   : Reg
  deriving DecidableEq, Repr

/-- The offset of a single data transfer: a 12-bit unsigned number, a register shifted by a constant
(rule R87), or a register shifted by a register, a form only the parameter `ldr_reg_shift_by_reg`
admits (spec/92_eei_decisions.md D16). -/
inductive Offset where
  | imm (v : BitVec 12)
  | reg (o : ShiftImmOperand)
  | regShift (o : ShiftRegOperand)
  deriving DecidableEq, Repr

/-- The fields of a block data transfer (rule R88); bit i of the list stands for Ri. -/
structure BlockHead where
  cond : Cond
  p    : Bool
  u    : Bool
  s    : Bool
  w    : Bool
  rn   : Reg
  list : BitVec 16
  deriving DecidableEq, Repr

/-- The instructions, one constructor a row of spec/opcode_table.json. -/
inductive Instr where
  /-- B, branch (rule R111). -/
  | b (cond : Cond) (offset : BitVec 24)
  /-- BL, branch with link (rule R112). -/
  | bl (cond : Cond) (offset : BitVec 24)
  /-- ADC (rule R150), operand 2 an immediate. -/
  | adcImm (h : DpHead) (o : ImmOperand)
  /-- ADC (rule R150), operand 2 a register shifted by a constant. -/
  | adcShiftImm (h : DpHead) (o : ShiftImmOperand)
  /-- ADC (rule R150), operand 2 a register shifted by a register. -/
  | adcShiftReg (h : DpHead) (o : ShiftRegOperand)
  /-- ADD (rule R151), operand 2 an immediate. -/
  | addImm (h : DpHead) (o : ImmOperand)
  /-- ADD (rule R151), operand 2 a register shifted by a constant. -/
  | addShiftImm (h : DpHead) (o : ShiftImmOperand)
  /-- ADD (rule R151), operand 2 a register shifted by a register. -/
  | addShiftReg (h : DpHead) (o : ShiftRegOperand)
  /-- AND (rule R152), operand 2 an immediate. -/
  | andImm (h : DpHead) (o : ImmOperand)
  /-- AND (rule R152), operand 2 a register shifted by a constant. -/
  | andShiftImm (h : DpHead) (o : ShiftImmOperand)
  /-- AND (rule R152), operand 2 a register shifted by a register. -/
  | andShiftReg (h : DpHead) (o : ShiftRegOperand)
  /-- BIC (rule R153), operand 2 an immediate. -/
  | bicImm (h : DpHead) (o : ImmOperand)
  /-- BIC (rule R153), operand 2 a register shifted by a constant. -/
  | bicShiftImm (h : DpHead) (o : ShiftImmOperand)
  /-- BIC (rule R153), operand 2 a register shifted by a register. -/
  | bicShiftReg (h : DpHead) (o : ShiftRegOperand)
  /-- CMN (rule R154), operand 2 an immediate. -/
  | cmnImm (h : DpHead) (o : ImmOperand)
  /-- CMN (rule R154), operand 2 a register shifted by a constant. -/
  | cmnShiftImm (h : DpHead) (o : ShiftImmOperand)
  /-- CMN (rule R154), operand 2 a register shifted by a register. -/
  | cmnShiftReg (h : DpHead) (o : ShiftRegOperand)
  /-- CMP (rule R155), operand 2 an immediate. -/
  | cmpImm (h : DpHead) (o : ImmOperand)
  /-- CMP (rule R155), operand 2 a register shifted by a constant. -/
  | cmpShiftImm (h : DpHead) (o : ShiftImmOperand)
  /-- CMP (rule R155), operand 2 a register shifted by a register. -/
  | cmpShiftReg (h : DpHead) (o : ShiftRegOperand)
  /-- EOR (rule R156), operand 2 an immediate. -/
  | eorImm (h : DpHead) (o : ImmOperand)
  /-- EOR (rule R156), operand 2 a register shifted by a constant. -/
  | eorShiftImm (h : DpHead) (o : ShiftImmOperand)
  /-- EOR (rule R156), operand 2 a register shifted by a register. -/
  | eorShiftReg (h : DpHead) (o : ShiftRegOperand)
  /-- MOV (rule R157), operand 2 an immediate. -/
  | movImm (h : DpHead) (o : ImmOperand)
  /-- MOV (rule R157), operand 2 a register shifted by a constant. -/
  | movShiftImm (h : DpHead) (o : ShiftImmOperand)
  /-- MOV (rule R157), operand 2 a register shifted by a register. -/
  | movShiftReg (h : DpHead) (o : ShiftRegOperand)
  /-- MVN (rule R158), operand 2 an immediate. -/
  | mvnImm (h : DpHead) (o : ImmOperand)
  /-- MVN (rule R158), operand 2 a register shifted by a constant. -/
  | mvnShiftImm (h : DpHead) (o : ShiftImmOperand)
  /-- MVN (rule R158), operand 2 a register shifted by a register. -/
  | mvnShiftReg (h : DpHead) (o : ShiftRegOperand)
  /-- ORR (rule R159), operand 2 an immediate. -/
  | orrImm (h : DpHead) (o : ImmOperand)
  /-- ORR (rule R159), operand 2 a register shifted by a constant. -/
  | orrShiftImm (h : DpHead) (o : ShiftImmOperand)
  /-- ORR (rule R159), operand 2 a register shifted by a register. -/
  | orrShiftReg (h : DpHead) (o : ShiftRegOperand)
  /-- RSB (rule R160), operand 2 an immediate. -/
  | rsbImm (h : DpHead) (o : ImmOperand)
  /-- RSB (rule R160), operand 2 a register shifted by a constant. -/
  | rsbShiftImm (h : DpHead) (o : ShiftImmOperand)
  /-- RSB (rule R160), operand 2 a register shifted by a register. -/
  | rsbShiftReg (h : DpHead) (o : ShiftRegOperand)
  /-- RSC (rule R161), operand 2 an immediate. -/
  | rscImm (h : DpHead) (o : ImmOperand)
  /-- RSC (rule R161), operand 2 a register shifted by a constant. -/
  | rscShiftImm (h : DpHead) (o : ShiftImmOperand)
  /-- RSC (rule R161), operand 2 a register shifted by a register. -/
  | rscShiftReg (h : DpHead) (o : ShiftRegOperand)
  /-- SBC (rule R162), operand 2 an immediate. -/
  | sbcImm (h : DpHead) (o : ImmOperand)
  /-- SBC (rule R162), operand 2 a register shifted by a constant. -/
  | sbcShiftImm (h : DpHead) (o : ShiftImmOperand)
  /-- SBC (rule R162), operand 2 a register shifted by a register. -/
  | sbcShiftReg (h : DpHead) (o : ShiftRegOperand)
  /-- SUB (rule R163), operand 2 an immediate. -/
  | subImm (h : DpHead) (o : ImmOperand)
  /-- SUB (rule R163), operand 2 a register shifted by a constant. -/
  | subShiftImm (h : DpHead) (o : ShiftImmOperand)
  /-- SUB (rule R163), operand 2 a register shifted by a register. -/
  | subShiftReg (h : DpHead) (o : ShiftRegOperand)
  /-- TEQ (rule R164), operand 2 an immediate. -/
  | teqImm (h : DpHead) (o : ImmOperand)
  /-- TEQ (rule R164), operand 2 a register shifted by a constant. -/
  | teqShiftImm (h : DpHead) (o : ShiftImmOperand)
  /-- TEQ (rule R164), operand 2 a register shifted by a register. -/
  | teqShiftReg (h : DpHead) (o : ShiftRegOperand)
  /-- TST (rule R165), operand 2 an immediate. -/
  | tstImm (h : DpHead) (o : ImmOperand)
  /-- TST (rule R165), operand 2 a register shifted by a constant. -/
  | tstShiftImm (h : DpHead) (o : ShiftImmOperand)
  /-- TST (rule R165), operand 2 a register shifted by a register. -/
  | tstShiftReg (h : DpHead) (o : ShiftRegOperand)
  /-- LDR (rule R172), immediate offset. -/
  | ldrImm (h : SdtHead) (v : BitVec 12)
  /-- LDR (rule R172), register offset. -/
  | ldrReg (h : SdtHead) (o : ShiftImmOperand)
  /-- LDRB (rule R173), immediate offset. -/
  | ldrbImm (h : SdtHead) (v : BitVec 12)
  /-- LDRB (rule R173), register offset. -/
  | ldrbReg (h : SdtHead) (o : ShiftImmOperand)
  /-- STR (rule R174), immediate offset. -/
  | strImm (h : SdtHead) (v : BitVec 12)
  /-- STR (rule R174), register offset. -/
  | strReg (h : SdtHead) (o : ShiftImmOperand)
  /-- STRB (rule R175), immediate offset. -/
  | strbImm (h : SdtHead) (v : BitVec 12)
  /-- STRB (rule R175), register offset. -/
  | strbReg (h : SdtHead) (o : ShiftImmOperand)
  /-- LDM, load multiple (rule R193). -/
  | ldm (h : BlockHead)
  /-- STM, store multiple (rule R194). -/
  | stm (h : BlockHead)
  /-- SWI, supervisor call (rule R210); the processor ignores the 24-bit number. -/
  | swi (cond : Cond) (comment : BitVec 24)
  /-- An undefined instruction with bits 27:25 = 110 (rule R212). -/
  | undefined110 (cond : Cond) (rest : BitVec 25)
  /-- An undefined instruction with bits 27:24 = 1110 (rule R212). -/
  | undefined1110 (cond : Cond) (rest : BitVec 24)
  /-- A reserved word of the data-processing space, I = 0 and bits 7 and 4 both 1 (rule R91):
  bits 24:8, 6:5 and 3:0. -/
  | reservedDp (cond : Cond) (high : BitVec 17) (mid : BitVec 2) (low : BitVec 4)
  /-- A reserved word of the single data transfer space, I = 1 and bit 4 = 1 (rule R91):
  bits 24:5 and 3:0. -/
  | reservedSdt (cond : Cond) (high : BitVec 20) (low : BitVec 4)
  /-- A reserved word of the block data transfer space, an empty register list (rules R91, R201):
  bits 24:16. -/
  | reservedBlock (cond : Cond) (high : BitVec 9)
  deriving DecidableEq, Repr

/-- The condition an instruction carries in bits 31:28 (rule R81). -/
def Instr.cond : Instr → Cond
  | .b c _ | .bl c _ => c
  | .adcImm h _ | .adcShiftImm h _ | .adcShiftReg h _ => h.cond
  | .addImm h _ | .addShiftImm h _ | .addShiftReg h _ => h.cond
  | .andImm h _ | .andShiftImm h _ | .andShiftReg h _ => h.cond
  | .bicImm h _ | .bicShiftImm h _ | .bicShiftReg h _ => h.cond
  | .cmnImm h _ | .cmnShiftImm h _ | .cmnShiftReg h _ => h.cond
  | .cmpImm h _ | .cmpShiftImm h _ | .cmpShiftReg h _ => h.cond
  | .eorImm h _ | .eorShiftImm h _ | .eorShiftReg h _ => h.cond
  | .movImm h _ | .movShiftImm h _ | .movShiftReg h _ => h.cond
  | .mvnImm h _ | .mvnShiftImm h _ | .mvnShiftReg h _ => h.cond
  | .orrImm h _ | .orrShiftImm h _ | .orrShiftReg h _ => h.cond
  | .rsbImm h _ | .rsbShiftImm h _ | .rsbShiftReg h _ => h.cond
  | .rscImm h _ | .rscShiftImm h _ | .rscShiftReg h _ => h.cond
  | .sbcImm h _ | .sbcShiftImm h _ | .sbcShiftReg h _ => h.cond
  | .subImm h _ | .subShiftImm h _ | .subShiftReg h _ => h.cond
  | .teqImm h _ | .teqShiftImm h _ | .teqShiftReg h _ => h.cond
  | .tstImm h _ | .tstShiftImm h _ | .tstShiftReg h _ => h.cond
  | .ldrImm h _ | .ldrReg h _ => h.cond
  | .ldrbImm h _ | .ldrbReg h _ => h.cond
  | .strImm h _ | .strReg h _ => h.cond
  | .strbImm h _ | .strbReg h _ => h.cond
  | .ldm h | .stm h => h.cond
  | .swi c _ | .undefined110 c _ | .undefined1110 c _ => c
  | .reservedDp c _ _ _ | .reservedSdt c _ _ | .reservedBlock c _ => c

end Sys2Proof
end

