-- ==== Sys2Proof/WellFormed.lean ====
section
/-! DEFINITION. Well-formed instructions. Every field has the width the encoding gives it, so the one
check left is the register list of a block transfer: an empty list is a word of another row, the
reserved row of spec/opcode_table.json (rules R91, R201). -/

namespace Sys2Proof

/-- A block transfer lists at least one register (spec/43_block_data_transfer.md rule R191, k in 1..16). -/
def BlockHead.wellFormed (h : BlockHead) : Bool := h.list ≠ 0

/-- The instruction is a term that some word encodes. -/
def Instr.wellFormed : Instr → Bool
  | .ldm h => h.wellFormed
  | .stm h => h.wellFormed
  | _ => true

end Sys2Proof
end

