-- ==== Sys2Proof/Decode.lean ====
section
/-! DEFINITION. The decoder, total on all 32-bit words, and the encoder, both written from
spec/30_encoding.md (rules R80 to R94) and spec/opcode_table.json. -/

namespace Sys2Proof

/-! ## Fields -/

/-- Bit i of a word (rule R9). -/
def wordBit (i : Nat) (w : Word) : Bool := w.getLsbD i

/-- The condition of a 4-bit code (rule R30). -/
def condOfBits (b : BitVec 4) : Cond :=
  match b.toNat with
  | 0 => .eq
  | 1 => .ne
  | 2 => .cs
  | 3 => .cc
  | 4 => .mi
  | 5 => .pl
  | 6 => .vs
  | 7 => .vc
  | 8 => .hi
  | 9 => .ls
  | 10 => .ge
  | 11 => .lt
  | 12 => .gt
  | 13 => .le
  | 14 => .al
  | _ => .nv

/-- The 4-bit code of a condition (rule R30). -/
def condBits : Cond → BitVec 4
  | .eq => 0
  | .ne => 1
  | .cs => 2
  | .cc => 3
  | .mi => 4
  | .pl => 5
  | .vs => 6
  | .vc => 7
  | .hi => 8
  | .ls => 9
  | .ge => 10
  | .lt => 11
  | .gt => 12
  | .le => 13
  | .al => 14
  | .nv => 15

/-- The register a 4-bit field names (rules R20, R84). -/
def regOfBits (b : BitVec 4) : Reg :=
  if h : b.toNat < 15 then .gpr ⟨b.toNat, h⟩ else .r15

/-- The number of a register, 0 to 15. -/
def regNumber : Reg → Nat
  | .gpr i => i.val
  | .r15 => 15

/-- The 4-bit field that names a register. -/
def regBits (r : Reg) : BitVec 4 := BitVec.ofNat 4 (regNumber r)

/-- The shift type of a 2-bit code (rule R85). -/
def shiftTypeOfBits (b : BitVec 2) : ShiftType :=
  match b.toNat with
  | 0 => .lsl
  | 1 => .lsr
  | 2 => .asr
  | _ => .ror

/-- The 2-bit code of a shift type (rule R85). -/
def shiftTypeBits : ShiftType → BitVec 2
  | .lsl => 0
  | .lsr => 1
  | .asr => 2
  | .ror => 3

/-- The data-processing operation of bits 24:21 (rules R94, R120). -/
def dpOpOfBits (b : BitVec 4) : DpOp :=
  match b.toNat with
  | 0 => .and
  | 1 => .eor
  | 2 => .sub
  | 3 => .rsb
  | 4 => .add
  | 5 => .adc
  | 6 => .sbc
  | 7 => .rsc
  | 8 => .tst
  | 9 => .teq
  | 10 => .cmp
  | 11 => .cmn
  | 12 => .orr
  | 13 => .mov
  | 14 => .bic
  | _ => .mvn

/-- Bits 24:21 of a data-processing operation (rules R94, R120). -/
def dpOpBits : DpOp → BitVec 4
  | .and => 0
  | .eor => 1
  | .sub => 2
  | .rsb => 3
  | .add => 4
  | .adc => 5
  | .sbc => 6
  | .rsc => 7
  | .tst => 8
  | .teq => 9
  | .cmp => 10
  | .cmn => 11
  | .orr => 12
  | .mov => 13
  | .bic => 14
  | .mvn => 15

/-- The data-processing instruction of an operation whose operand 2 is an immediate. -/
def dpImmInstr (op : DpOp) (h : DpHead) (o : ImmOperand) : Instr :=
  match op with
  | .and => .andImm h o
  | .eor => .eorImm h o
  | .sub => .subImm h o
  | .rsb => .rsbImm h o
  | .add => .addImm h o
  | .adc => .adcImm h o
  | .sbc => .sbcImm h o
  | .rsc => .rscImm h o
  | .tst => .tstImm h o
  | .teq => .teqImm h o
  | .cmp => .cmpImm h o
  | .cmn => .cmnImm h o
  | .orr => .orrImm h o
  | .mov => .movImm h o
  | .bic => .bicImm h o
  | .mvn => .mvnImm h o

/-- The data-processing instruction of an operation whose operand 2 is a register shifted by a constant. -/
def dpShiftImmInstr (op : DpOp) (h : DpHead) (o : ShiftImmOperand) : Instr :=
  match op with
  | .and => .andShiftImm h o
  | .eor => .eorShiftImm h o
  | .sub => .subShiftImm h o
  | .rsb => .rsbShiftImm h o
  | .add => .addShiftImm h o
  | .adc => .adcShiftImm h o
  | .sbc => .sbcShiftImm h o
  | .rsc => .rscShiftImm h o
  | .tst => .tstShiftImm h o
  | .teq => .teqShiftImm h o
  | .cmp => .cmpShiftImm h o
  | .cmn => .cmnShiftImm h o
  | .orr => .orrShiftImm h o
  | .mov => .movShiftImm h o
  | .bic => .bicShiftImm h o
  | .mvn => .mvnShiftImm h o

/-- The data-processing instruction of an operation whose operand 2 is a register shifted by a register. -/
def dpShiftRegInstr (op : DpOp) (h : DpHead) (o : ShiftRegOperand) : Instr :=
  match op with
  | .and => .andShiftReg h o
  | .eor => .eorShiftReg h o
  | .sub => .subShiftReg h o
  | .rsb => .rsbShiftReg h o
  | .add => .addShiftReg h o
  | .adc => .adcShiftReg h o
  | .sbc => .sbcShiftReg h o
  | .rsc => .rscShiftReg h o
  | .tst => .tstShiftReg h o
  | .teq => .teqShiftReg h o
  | .cmp => .cmpShiftReg h o
  | .cmn => .cmnShiftReg h o
  | .orr => .orrShiftReg h o
  | .mov => .movShiftReg h o
  | .bic => .bicShiftReg h o
  | .mvn => .mvnShiftReg h o

/-! ## The decoder -/

/-- The fields common to data-processing words (rule R84). -/
def dpHeadOfWord (w : Word) : DpHead where
  cond := condOfBits (w.extractLsb' 28 4)
  s := wordBit 20 w
  rn := regOfBits (w.extractLsb' 16 4)
  rd := regOfBits (w.extractLsb' 12 4)

/-- Operand 2 as an immediate (rule R86). -/
def immOperandOfWord (w : Word) : ImmOperand where
  rotate := w.extractLsb' 8 4
  imm8 := w.extractLsb' 0 8

/-- Operand 2, or an offset, as a register shifted by a constant (rules R85, R87). -/
def shiftImmOfWord (w : Word) : ShiftImmOperand where
  amount := w.extractLsb' 7 5
  ty := shiftTypeOfBits (w.extractLsb' 5 2)
  rm := regOfBits (w.extractLsb' 0 4)

/-- Operand 2 as a register shifted by a register (rule R85). -/
def shiftRegOfWord (w : Word) : ShiftRegOperand where
  rs := regOfBits (w.extractLsb' 8 4)
  ty := shiftTypeOfBits (w.extractLsb' 5 2)
  rm := regOfBits (w.extractLsb' 0 4)

/-- The fields common to single data transfers (rule R87). -/
def sdtHeadOfWord (w : Word) : SdtHead where
  cond := condOfBits (w.extractLsb' 28 4)
  p := wordBit 24 w
  u := wordBit 23 w
  w := wordBit 21 w
  rn := regOfBits (w.extractLsb' 16 4)
  rd := regOfBits (w.extractLsb' 12 4)

/-- The fields of a block data transfer (rule R88). -/
def blockHeadOfWord (w : Word) : BlockHead where
  cond := condOfBits (w.extractLsb' 28 4)
  p := wordBit 24 w
  u := wordBit 23 w
  s := wordBit 22 w
  w := wordBit 21 w
  rn := regOfBits (w.extractLsb' 16 4)
  list := w.extractLsb' 0 16

/-- Data processing with I = 0: bit 4 tells a constant shift from a register shift, and bit 4 with
bit 7 is reserved (rules R85, R91). -/
def decodeDpRegister (w : Word) : Instr :=
  let op := dpOpOfBits (w.extractLsb' 21 4)
  match wordBit 4 w, wordBit 7 w with
  | false, _ => dpShiftImmInstr op (dpHeadOfWord w) (shiftImmOfWord w)
  | true, false => dpShiftRegInstr op (dpHeadOfWord w) (shiftRegOfWord w)
  | true, true => .reservedDp (condOfBits (w.extractLsb' 28 4)) (w.extractLsb' 8 17)
      (w.extractLsb' 5 2) (w.extractLsb' 0 4)

/-- Single data transfer with an immediate offset: L and B choose the instruction (rules R94, R170). -/
def decodeSdtImmediate (w : Word) : Instr :=
  let h := sdtHeadOfWord w
  let v : BitVec 12 := w.extractLsb' 0 12
  match wordBit 20 w, wordBit 22 w with
  | true, false => .ldrImm h v
  | true, true => .ldrbImm h v
  | false, false => .strImm h v
  | false, true => .strbImm h v

/-- Single data transfer with a register offset; bit 4 = 1 is reserved (rules R87, R91, R170). -/
def decodeSdtRegister (w : Word) : Instr :=
  let h := sdtHeadOfWord w
  let o := shiftImmOfWord w
  match wordBit 4 w, wordBit 20 w, wordBit 22 w with
  | true, _, _ => .reservedSdt (condOfBits (w.extractLsb' 28 4)) (w.extractLsb' 5 20) (w.extractLsb' 0 4)
  | false, true, false => .ldrReg h o
  | false, true, true => .ldrbReg h o
  | false, false, false => .strReg h o
  | false, false, true => .strbReg h o

/-- Block data transfer; an empty list is reserved and takes precedence (rules R88, R91, R201). -/
def decodeBlock (w : Word) : Instr :=
  let h := blockHeadOfWord w
  match h.wellFormed, wordBit 20 w with
  | false, _ => .reservedBlock h.cond (w.extractLsb' 16 9)
  | true, true => .ldm h
  | true, false => .stm h

/-- Branch and branch with link (rule R83). -/
def decodeBranch (w : Word) : Instr :=
  match wordBit 24 w with
  | false => .b (condOfBits (w.extractLsb' 28 4)) (w.extractLsb' 0 24)
  | true => .bl (condOfBits (w.extractLsb' 28 4)) (w.extractLsb' 0 24)

/-- Bits 27:25 = 111: bit 24 tells the supervisor call from the undefined space (rules R89, R90). -/
def decodeSupervisor (w : Word) : Instr :=
  match wordBit 24 w with
  | true => .swi (condOfBits (w.extractLsb' 28 4)) (w.extractLsb' 0 24)
  | false => .undefined1110 (condOfBits (w.extractLsb' 28 4)) (w.extractLsb' 0 24)

/-- The class decode of rule R82, by bits 27:25. Every word has an instruction: the undefined and the
reserved patterns are instructions of their own. -/
def decode (w : Word) : Instr :=
  match wordBit 27 w, wordBit 26 w, wordBit 25 w with
  | false, false, false => decodeDpRegister w
  | false, false, true => dpImmInstr (dpOpOfBits (w.extractLsb' 21 4)) (dpHeadOfWord w) (immOperandOfWord w)
  | false, true, false => decodeSdtImmediate w
  | false, true, true => decodeSdtRegister w
  | true, false, false => decodeBlock w
  | true, false, true => decodeBranch w
  | true, true, false => .undefined110 (condOfBits (w.extractLsb' 28 4)) (w.extractLsb' 0 25)
  | true, true, true => decodeSupervisor w

/-- Why a string of bytes is no instruction. -/
inductive DecodeError where
  /-- Fewer than the four bytes of an instruction are left (rule R80). -/
  | truncated
  deriving DecidableEq, Repr

/-- The word of four bytes, the first at the lowest address: little-endian (rule R52, log 1). -/
def wordOfBytes (b0 b1 b2 b3 : Byte) : Word := b3 ++ b2 ++ b1 ++ b0

/-- Byte k of a word, bits 8k+7 : 8k (rule R52, log 1). -/
def byteOfWord (k : Nat) (w : Word) : Byte := w.extractLsb' (8 * k) 8

/-- The four bytes of a word in the order they stand in memory (rule R52, log 1). -/
def bytesOfWord (w : Word) : List Byte :=
  [byteOfWord 0 w, byteOfWord 1 w, byteOfWord 2 w, byteOfWord 3 w]

/-- Decode the instruction at the front of a string of bytes, and give the rest back. -/
def decodeBytes : List Byte → Except DecodeError (Instr × List Byte)
  | b0 :: b1 :: b2 :: b3 :: rest => .ok (decode (wordOfBytes b0 b1 b2 b3), rest)
  | _ => .error .truncated

/-- The instruction read from the nbits low bits of w, the rest of the word being zero, laid out in
memory as the hardware stores it. -/
def decodeTableWord (nbits w : Nat) : Option Instr :=
  match decodeBytes (bytesOfWord (BitVec.ofNat 32 (w % 2 ^ nbits))) with
  | .ok (i, _) => some i
  | .error _ => none

/-! ## The encoder -/

/-- Bits 11:0 of an immediate operand (rule R86). -/
def immOperandBits (o : ImmOperand) : BitVec 12 := o.rotate ++ o.imm8

/-- Bits 11:0 of a register shifted by a constant (rule R85). -/
def shiftImmBits (o : ShiftImmOperand) : BitVec 12 :=
  o.amount ++ shiftTypeBits o.ty ++ 0#1 ++ regBits o.rm

/-- Bits 11:0 of a register shifted by a register (rule R85). -/
def shiftRegBits (o : ShiftRegOperand) : BitVec 12 :=
  regBits o.rs ++ 0#1 ++ shiftTypeBits o.ty ++ 1#1 ++ regBits o.rm

/-- A data-processing word: I, opcode and operand 2 around the common fields (rule R84). -/
def encodeDp (i : BitVec 1) (op : DpOp) (h : DpHead) (operand2 : BitVec 12) : Word :=
  condBits h.cond ++ 0#2 ++ i ++ dpOpBits op ++ BitVec.ofBool h.s ++ regBits h.rn ++ regBits h.rd ++ operand2

/-- A single data transfer word: I, B, L and the offset around the common fields (rule R87). -/
def encodeSdt (i b l : BitVec 1) (h : SdtHead) (offset : BitVec 12) : Word :=
  condBits h.cond ++ 1#2 ++ i ++ BitVec.ofBool h.p ++ BitVec.ofBool h.u ++ b ++ BitVec.ofBool h.w ++ l
    ++ regBits h.rn ++ regBits h.rd ++ offset

/-- A block data transfer word (rule R88). -/
def encodeBlock (l : BitVec 1) (h : BlockHead) : Word :=
  condBits h.cond ++ 4#3 ++ BitVec.ofBool h.p ++ BitVec.ofBool h.u ++ BitVec.ofBool h.s ++ BitVec.ofBool h.w ++ l
    ++ regBits h.rn ++ h.list

/-- The word of an instruction. -/
def encode : Instr → Word
  | .b c off => condBits c ++ 10#4 ++ off
  | .bl c off => condBits c ++ 11#4 ++ off
  | .adcImm h o => encodeDp 1 .adc h (immOperandBits o)
  | .adcShiftImm h o => encodeDp 0 .adc h (shiftImmBits o)
  | .adcShiftReg h o => encodeDp 0 .adc h (shiftRegBits o)
  | .addImm h o => encodeDp 1 .add h (immOperandBits o)
  | .addShiftImm h o => encodeDp 0 .add h (shiftImmBits o)
  | .addShiftReg h o => encodeDp 0 .add h (shiftRegBits o)
  | .andImm h o => encodeDp 1 .and h (immOperandBits o)
  | .andShiftImm h o => encodeDp 0 .and h (shiftImmBits o)
  | .andShiftReg h o => encodeDp 0 .and h (shiftRegBits o)
  | .bicImm h o => encodeDp 1 .bic h (immOperandBits o)
  | .bicShiftImm h o => encodeDp 0 .bic h (shiftImmBits o)
  | .bicShiftReg h o => encodeDp 0 .bic h (shiftRegBits o)
  | .cmnImm h o => encodeDp 1 .cmn h (immOperandBits o)
  | .cmnShiftImm h o => encodeDp 0 .cmn h (shiftImmBits o)
  | .cmnShiftReg h o => encodeDp 0 .cmn h (shiftRegBits o)
  | .cmpImm h o => encodeDp 1 .cmp h (immOperandBits o)
  | .cmpShiftImm h o => encodeDp 0 .cmp h (shiftImmBits o)
  | .cmpShiftReg h o => encodeDp 0 .cmp h (shiftRegBits o)
  | .eorImm h o => encodeDp 1 .eor h (immOperandBits o)
  | .eorShiftImm h o => encodeDp 0 .eor h (shiftImmBits o)
  | .eorShiftReg h o => encodeDp 0 .eor h (shiftRegBits o)
  | .movImm h o => encodeDp 1 .mov h (immOperandBits o)
  | .movShiftImm h o => encodeDp 0 .mov h (shiftImmBits o)
  | .movShiftReg h o => encodeDp 0 .mov h (shiftRegBits o)
  | .mvnImm h o => encodeDp 1 .mvn h (immOperandBits o)
  | .mvnShiftImm h o => encodeDp 0 .mvn h (shiftImmBits o)
  | .mvnShiftReg h o => encodeDp 0 .mvn h (shiftRegBits o)
  | .orrImm h o => encodeDp 1 .orr h (immOperandBits o)
  | .orrShiftImm h o => encodeDp 0 .orr h (shiftImmBits o)
  | .orrShiftReg h o => encodeDp 0 .orr h (shiftRegBits o)
  | .rsbImm h o => encodeDp 1 .rsb h (immOperandBits o)
  | .rsbShiftImm h o => encodeDp 0 .rsb h (shiftImmBits o)
  | .rsbShiftReg h o => encodeDp 0 .rsb h (shiftRegBits o)
  | .rscImm h o => encodeDp 1 .rsc h (immOperandBits o)
  | .rscShiftImm h o => encodeDp 0 .rsc h (shiftImmBits o)
  | .rscShiftReg h o => encodeDp 0 .rsc h (shiftRegBits o)
  | .sbcImm h o => encodeDp 1 .sbc h (immOperandBits o)
  | .sbcShiftImm h o => encodeDp 0 .sbc h (shiftImmBits o)
  | .sbcShiftReg h o => encodeDp 0 .sbc h (shiftRegBits o)
  | .subImm h o => encodeDp 1 .sub h (immOperandBits o)
  | .subShiftImm h o => encodeDp 0 .sub h (shiftImmBits o)
  | .subShiftReg h o => encodeDp 0 .sub h (shiftRegBits o)
  | .teqImm h o => encodeDp 1 .teq h (immOperandBits o)
  | .teqShiftImm h o => encodeDp 0 .teq h (shiftImmBits o)
  | .teqShiftReg h o => encodeDp 0 .teq h (shiftRegBits o)
  | .tstImm h o => encodeDp 1 .tst h (immOperandBits o)
  | .tstShiftImm h o => encodeDp 0 .tst h (shiftImmBits o)
  | .tstShiftReg h o => encodeDp 0 .tst h (shiftRegBits o)
  | .ldrImm h v => encodeSdt 0 0 1 h v
  | .ldrReg h o => encodeSdt 1 0 1 h (shiftImmBits o)
  | .ldrbImm h v => encodeSdt 0 1 1 h v
  | .ldrbReg h o => encodeSdt 1 1 1 h (shiftImmBits o)
  | .strImm h v => encodeSdt 0 0 0 h v
  | .strReg h o => encodeSdt 1 0 0 h (shiftImmBits o)
  | .strbImm h v => encodeSdt 0 1 0 h v
  | .strbReg h o => encodeSdt 1 1 0 h (shiftImmBits o)
  | .ldm h => encodeBlock 1 h
  | .stm h => encodeBlock 0 h
  | .swi c n => condBits c ++ 15#4 ++ n
  | .undefined110 c r => condBits c ++ 6#3 ++ r
  | .undefined1110 c r => condBits c ++ 14#4 ++ r
  | .reservedDp c high mid low => condBits c ++ 0#3 ++ high ++ 1#1 ++ mid ++ 1#1 ++ low
  | .reservedSdt c high low => condBits c ++ 3#3 ++ high ++ 1#1 ++ low
  | .reservedBlock c high => condBits c ++ 4#3 ++ high ++ 0#16

end Sys2Proof
end

