-- ==== Sys2Proof/Machine/State.lean ====
section
/-! DEFINITION. The state of the machine as plain data, the reasons a step can stop, and the state
after reset (spec/10_state.md, spec/70_reset_and_hazards.md rule R260). -/

namespace Sys2Proof.Machine

/-- The four processor modes (rule R32): user 0, FIQ 1, IRQ 2, SVC 3. -/
inductive Mode where
  | usr | fiq | irq | svc
  deriving DecidableEq, Repr

/-- The 24 physical registers beside R15 (rule R21): R0 to R14 as user mode sees them, R10_FIQ to
R14_FIQ, R13_IRQ and R14_IRQ, R13_SVC and R14_SVC, each bank numbered from its first register. -/
inductive PhysReg where
  | usr (i : Fin 15)
  | fiq (i : Fin 5)
  | irq (i : Fin 2)
  | svc (i : Fin 2)
  deriving DecidableEq, Repr

/-- The kind of a memory access (rule R58). -/
inductive AccessKind where
  | fetch | read | write
  deriving DecidableEq, Repr

/-- The size of an access, one byte or four (rules R51, R56). -/
inductive AccessSize where
  | byte | word
  deriving DecidableEq, Repr

/-- What stands at an address (spec/92_eei_decisions.md D3, parameter `mem_map`). -/
inductive CellKind where
  | ram | rom | device | absent
  deriving DecidableEq, Repr

/-- One region of the platform's memory map. -/
structure Region where
  base : Nat
  size : Nat
  kind : CellKind
  deriving DecidableEq, Repr

/-- Parameter `byte_order` (D1): which byte of a word has the lowest address; the spec's decision leaves the
one value (rule R52, log 1). -/
inductive ByteOrder where
  | little
  deriving DecidableEq, Repr

/-- Parameter `misaligned_word` (D2): what a word access at a misaligned address does (rule R54). -/
inductive MisalignedWord where
  | refuse | rotate
  deriving DecidableEq, Repr

/-- Parameter `pc_wrap` (D6): whether the PC runs on from the last word of memory to 0 (rule R28). -/
inductive PcWrap where
  | wrap | refuse
  deriving DecidableEq, Repr

/-- The two values of the parameters `shift_ge32` (D14), `trans_bit` (D17) and `ldm_user_bank` (D18): what
the later members of the family do, or a refusal (rules R132, R177, R197). -/
inductive FamilyRule where
  | family | refuse
  deriving DecidableEq, Repr

/-- Parameter `ldr_reg_shift_by_reg` (D16): whether the offset of a single data transfer may be a register
shifted by a register (rules R91, R171). -/
inductive RegisterShift where
  | refuse | allow
  deriving DecidableEq, Repr

/-- What a failed transfer leaves in its base register (D20, rules R178, R199, R200): any value, the value
before the transfer, or the value of the write-back where the form asks one (log 21, log 39, log 47). -/
inductive FailedBase where
  | any | kept | writtenBack
  deriving DecidableEq, Repr

/-- What a failed LDM leaves in its listed registers but R15 (D20, rules R199, R200): any values, or the words
read before the failing access in those registers that `which` names by their bits, the others keeping
their values (log 21, log 40, log 47). -/
inductive FailedLoads where
  | any
  | loaded (which : BitVec 16)
  deriving DecidableEq, Repr

/-- Parameter `abort_side_effects` (D20): the registers after an aborted or address-excepted transfer. -/
structure AbortSideEffects where
  base  : FailedBase
  loads : FailedLoads
  deriving DecidableEq, Repr

/-- The words that agree with `pattern` in the bits of `mask`; a list of these is an `undef_set`
(rule R90, D11). -/
structure WordPattern where
  mask    : Word
  pattern : Word
  deriving DecidableEq, Repr

/-- Values of parameter `reset_regs` (D8): those of the 24 registers and the four flags to which the spec
gives no reset value (rule R260). -/
structure ResetRegs where
  usr   : Vector Word 15
  fiq   : Vector Word 5
  irq   : Vector Word 2
  svc   : Vector Word 2
  flagN : Bool
  flagZ : Bool
  flagC : Bool
  flagV : Bool
  deriving DecidableEq, Repr

/-- The parameters that the spec leaves to the platform or does not know (spec/00_scope.md rule R8,
spec/92_eei_decisions.md). They are data of the state, so that a claim names those it rests on; no step
changes them. -/
structure Platform where
  /-- `byte_order` (D1, log 1). -/
  byteOrder : ByteOrder
  /-- `mem_map`: an address in no region is RAM (D3, log 4). -/
  memMap : List Region
  /-- `misaligned_word` (D2, log 2, log 3). -/
  misalignedWord : MisalignedWord
  /-- `pc_wrap` (D6, log 8). -/
  pcWrap : PcWrap
  /-- `reset_regs`: none where the values are unspecified (D8, log 10, log 12). -/
  resetRegs : Option ResetRegs
  /-- `undef_set` (D11, log 14). -/
  undefSet : List WordPattern
  /-- `shift_ge32` (D14, log 17). -/
  shiftGe32 : FamilyRule
  /-- `ldr_reg_shift_by_reg` (D16, log 45). -/
  ldrRegShiftByReg : RegisterShift
  /-- `trans_bit` (D17, log 18). -/
  transBit : FamilyRule
  /-- `ldm_user_bank` (D18, log 19). -/
  ldmUserBank : FamilyRule
  /-- `abort_side_effects` (D20, log 21, log 47). -/
  abortSideEffects : AbortSideEffects
  deriving DecidableEq, Repr

/-- One record of what the memory manager refuses: accesses of this size and kind, made in this mode
and with this `trans` argument, at the addresses from `low` to `high`. A list of records is any
`abort_oracle` (rule R58, D4; log 6). -/
structure AbortRule where
  low   : Nat
  high  : Nat
  size  : AccessSize
  kind  : AccessKind
  mode  : Mode
  trans : Bool
  deriving DecidableEq, Repr

/-- What the four inputs of the chip do during one step (rule R221; log 6, log 7). -/
structure StepInput where
  reset  : Bool
  irq    : Bool
  fiq    : Bool
  aborts : List AbortRule
  deriving DecidableEq, Repr

/-- No reset, no interrupt request, no abort: the spec's default (D4, D5). -/
def StepInput.quiet : StepInput := { reset := false, irq := false, fiq := false, aborts := [] }

/-- What the instruction before this one leaves to check (spec/70_reset_and_hazards.md rules R266,
R267): a change of mode by TSTP, TEQP, CMPP or CMNP, with the mode before it, or an LDM that loaded
the user bank from a privileged mode. -/
inductive Hazard where
  | modeChange (old : Mode)
  | userBankLoad
  deriving DecidableEq, Repr

/-- Memory: address and byte pairs in one canonical form (`Memory.wf` in Machine/Ops.lean). -/
abbrev Memory := List Host.Cell

/-- The state of the machine. INVENTORY.md lists every field with the rule that names it. -/
structure State where
  /-- R0 to R14 of user mode; R0 to R9 are every mode's, R10 to R12 also those of IRQ and SVC mode. -/
  usr : Vector Word 15
  /-- R10_FIQ to R14_FIQ. -/
  fiq : Vector Word 5
  /-- R13_IRQ and R14_IRQ. -/
  irq : Vector Word 2
  /-- R13_SVC and R14_SVC. -/
  svc : Vector Word 2
  /-- Bits 25:2 of the address of the instruction being executed (rules R11, R24, R26). -/
  pc : PcWord
  /-- N, bit 31 of R15. -/
  flagN : Bool
  /-- Z, bit 30 of R15. -/
  flagZ : Bool
  /-- C, bit 29 of R15. -/
  flagC : Bool
  /-- V, bit 28 of R15. -/
  flagV : Bool
  /-- I, bit 27 of R15: IRQ disabled. -/
  maskI : Bool
  /-- F, bit 26 of R15: FIQ disabled. -/
  maskF : Bool
  /-- M, bits 1:0 of R15. -/
  mode : Mode
  /-- Memory, 2^26 bytes. -/
  mem : Memory
  /-- What the instruction before this one leaves to check (the model's own field, log 23). -/
  hazard : Option Hazard
  /-- How many free values have been drawn (the model's own field, log 21). -/
  freeCount : Nat
  /-- The parameters of the model (rule R8). -/
  platform : Platform
  /-- Where a run ends, if anywhere (rule R275, log 24). -/
  haltAddress : Option Addr
  /-- The inputs of the coming steps, the head this step's; quiet once the list is used up (log 7). -/
  inputs : List StepInput
  deriving DecidableEq, Repr

/-- Why a run stops with a fault. -/
inductive Fault where
  /-- Raised by the step whose pc is the halt address: the run has ended normally (rule R275, D23).
  Safe: the spec ends the run there. -/
  | runEnded
  deriving DecidableEq, Repr

/-- Why an instruction has no meaning; each is a `refuse` of the spec (spec/00_scope.md rule R14) and
each is safe: the model stops where the chip would go on. -/
inductive Refusal where
  /-- Raised by exec's arm of an instruction that has no meaning yet. -/
  | notModelled (mnemonic : String)
  /-- Raised by a fetch or a data access at an address that the memory map says does not exist
  (rules R53, R55, D3). -/
  | unpopulatedAddress
  /-- Raised by an access to a device cell, whose behaviour no source gives (D3, N20). -/
  | deviceAccess
  /-- Raised by a store to a ROM cell (D3). -/
  | writeToRom
  /-- Raised by a store into the word at pc + 4 or pc + 8, pc being the address of the storing
  instruction (rules R66, R174, R265, D22; log 22). -/
  | storeIntoPrefetched
  /-- Raised by a word access at a misaligned address and by a block transfer with a misaligned base,
  where `misaligned_word` = refuse (rules R54, R192, R201, D2; log 2, log 3). -/
  | misalignedWordAccess
  /-- Raised by an instruction at 0x3FFFFFC that would go on to the next word, where `pc_wrap` = refuse
  (rule R28, D6; log 8). -/
  | pcRunsOverTop
  /-- Raised by an instruction that names a banked register right after a program-made change of
  mode or a user-bank LDM (rules R266, R267, D27). -/
  | bankedRegisterHazard
  /-- Raised by a data-processing word with I = 0 and bits 7 and 4 both 1 (rule R91, D12). -/
  | reservedDataProcessing
  /-- Raised by a single data transfer word with I = 1 and bit 4 = 1, where `ldr_reg_shift_by_reg` = refuse
  or bit 7 = 1 (rules R85, R91, R171, D16; log 45). -/
  | reservedOffset
  /-- Raised by a block data transfer word with an empty list (rules R91, R201, D19). -/
  | emptyRegisterList
  /-- Raised by a word with bits 27:24 = 1100, 1101 or 1110 outside `undef_set` (rules R90, R212, D11;
  log 14). -/
  | outsideUndefSet
  /-- Raised by a shift by a register amount of 32 or more, where `shift_ge32` = refuse (rule R132, D14;
  log 17). -/
  | shiftByThirtyTwoOrMore
  /-- Raised by a shift by the amount in R15 (rule R122, D15). -/
  | r15AsShiftAmount
  /-- Raised by a single data transfer whose offset register is R15 (rule R176, D15). -/
  | r15AsOffset
  /-- Raised by a single data transfer that would write back to R15 (rule R176, D15). -/
  | r15WriteBack
  /-- Raised by LDRB and STRB of R15 (rules R173, R175, R176, D15). -/
  | r15ByteTransfer
  /-- Raised by LDR with Rd = Rn and write-back (rule R172, D15). -/
  | loadOfWrittenBackBase
  /-- Raised by a single data transfer with P = 0 and W = 1, where `trans_bit` = refuse (rule R177, D17;
  log 18). -/
  | translatedTransfer
  /-- Raised by an LDM with S = 1 without R15 in its list and an STM with S = 1, where `ldm_user_bank` =
  refuse (rule R197, D18; log 19). -/
  | userBankTransfer
  /-- Raised by LDM and STM with R15 as base (rules R192, R201, D15). -/
  | r15BlockBase
  /-- Raised by a user-bank block transfer with W = 1 (rules R197, R201). -/
  | userBankWriteBack
  /-- Raised by a block transfer that starts below 0x4000000 and runs past it (rules R199, R201, D19). -/
  | blockCrossesTop
  deriving DecidableEq, Repr

/-- The values the model gives the registers and flags that the spec leaves open (log 10). -/
def ResetRegs.zero : ResetRegs where
  usr := Vector.replicate 15 0
  fiq := Vector.replicate 5 0
  irq := Vector.replicate 2 0
  svc := Vector.replicate 2 0
  flagN := false
  flagZ := false
  flagC := false
  flagV := false

/-- The `undef_set` of the spec: bits 27:25 = 110, and bits 27:24 = 1110 (rules R90, R212, D11). -/
def standardUndefSet : List WordPattern :=
  [{ mask := 0x0E000000, pattern := 0x0C000000 }, { mask := 0x0F000000, pattern := 0x0E000000 }]

/-- The parameters a run from `State.reset` has: all of memory RAM, sequential wrap-around, the `undef_set`
of the spec, registers left open by a failed transfer; where the spec's default is a refusal, the family's behaviour that the spec states (log 2, log
17, log 18, log 19), but for the register-shifted offset, which the spec does not state (log 45). -/
def Platform.standard : Platform where
  byteOrder := .little
  memMap := []
  misalignedWord := .rotate
  pcWrap := .wrap
  resetRegs := none
  undefSet := standardUndefSet
  shiftGe32 := .family
  ldrRegShiftByReg := .refuse
  transBit := .family
  ldmUserBank := .family
  abortSideEffects := { base := .any, loads := .any }

/-- The machine of a platform right after reset (rule R260): SVC mode, both interrupts masked, pc 0. The
registers and N, Z, C, V, whose values the spec leaves open, are those of `reset_regs`, and 0 where it
gives none (log 10); memory lists nothing (log 5). -/
def State.resetWith (p : Platform) : State where
  usr := (p.resetRegs.getD ResetRegs.zero).usr
  fiq := (p.resetRegs.getD ResetRegs.zero).fiq
  irq := (p.resetRegs.getD ResetRegs.zero).irq
  svc := (p.resetRegs.getD ResetRegs.zero).svc
  pc := 0
  flagN := (p.resetRegs.getD ResetRegs.zero).flagN
  flagZ := (p.resetRegs.getD ResetRegs.zero).flagZ
  flagC := (p.resetRegs.getD ResetRegs.zero).flagC
  flagV := (p.resetRegs.getD ResetRegs.zero).flagV
  maskI := true
  maskF := true
  mode := .svc
  mem := []
  hazard := none
  freeCount := 0
  platform := p
  haltAddress := none
  inputs := []

/-- The machine right after reset (rule R260) on the platform of the log. -/
def State.reset : State := State.resetWith Platform.standard

end Sys2Proof.Machine
end

