-- ==== Sys2Proof/Machine/Flags.lean ====
section
/-! DEFINITION. The conditions and the flag computations (spec/10_state.md rules R29, R30,
spec/00_scope.md rule R15, spec/41_data_processing.md rules R120 to R124). -/

namespace Sys2Proof.Machine

/-- The condition test on the flags at the start of the instruction (rule R30). -/
def condPassed (c : Cond) (s : State) : Bool :=
  match c with
  | .eq => s.flagZ
  | .ne => !s.flagZ
  | .cs => s.flagC
  | .cc => !s.flagC
  | .mi => s.flagN
  | .pl => !s.flagN
  | .vs => s.flagV
  | .vc => !s.flagV
  | .hi => s.flagC && !s.flagZ
  | .ls => !s.flagC || s.flagZ
  | .ge => s.flagN == s.flagV
  | .lt => s.flagN != s.flagV
  | .gt => !s.flagZ && (s.flagN == s.flagV)
  | .le => s.flagZ || (s.flagN != s.flagV)
  | .al => true
  | .nv => false

/-- A sum with its carry out of bit 31 and its signed overflow. -/
structure Sum where
  value    : Word
  carry    : Bool
  overflow : Bool
  deriving DecidableEq, Repr

/-- `AddWithCarry` (rule R15, log 30): the unsigned sum in the naturals, the signed sum in the
integers, the flags by comparing them with the range of a word. -/
def addWithCarry (a b : Word) (cin : Bool) : Sum :=
  let u : Nat := a.toNat + b.toNat + cin.toNat
  let t : Int := a.toInt + b.toInt + cin.toNat
  { value := BitVec.ofNat 32 u
    carry := decide (0x100000000 ≤ u)
    overflow := decide (t < -0x80000000 ∨ 0x7FFFFFFF < t) }

/-- What the ALU gives: a logical result has no carry and no overflow of its own (rules R120, R123,
R124). -/
inductive AluOut where
  | logical (value : Word)
  | arith (sum : Sum)
  deriving DecidableEq, Repr

/-- The 32-bit result. -/
def aluValue : AluOut → Word
  | .logical v => v
  | .arith r => r.value

/-- The sixteen operations on operand 1, operand 2 and the carry flag (rules R120, R150 to R165). -/
def alu (op : DpOp) (a b : Word) (c : Bool) : AluOut :=
  match op with
  | .and => .logical (a &&& b)
  | .eor => .logical (a ^^^ b)
  | .sub => .arith (addWithCarry a (~~~b) true)
  | .rsb => .arith (addWithCarry b (~~~a) true)
  | .add => .arith (addWithCarry a b false)
  | .adc => .arith (addWithCarry a b c)
  | .sbc => .arith (addWithCarry a (~~~b) c)
  | .rsc => .arith (addWithCarry b (~~~a) c)
  | .tst => .logical (a &&& b)
  | .teq => .logical (a ^^^ b)
  | .cmp => .arith (addWithCarry a (~~~b) true)
  | .cmn => .arith (addWithCarry a b false)
  | .orr => .logical (a ||| b)
  | .mov => .logical b
  | .bic => .logical (a &&& ~~~b)
  | .mvn => .logical (~~~b)

/-- The operations that write Rd: all but the four tests and compares (rule R121). -/
def writesRd : DpOp → Bool
  | .tst | .teq | .cmp | .cmn => false
  | .and | .eor | .sub | .rsb | .add | .adc | .sbc | .rsc | .orr | .mov | .bic | .mvn => true

/-- The operations that read operand 1: all but MOV and MVN (rule R121). -/
def readsRn : DpOp → Bool
  | .mov | .mvn => false
  | .and | .eor | .sub | .rsb | .add | .adc | .sbc | .rsc | .tst | .teq | .cmp | .cmn | .orr | .bic => true

/-- The flags of an S-form whose Rd is not R15: N and Z from the result, C from the shifter and V
kept after a logical operation (rule R123), C and V from the sum after an arithmetic one (rule R124). -/
def setFlags (out : AluOut) (shiftCarry : Bool) (s : State) : State :=
  match out with
  | .logical v => { s with flagN := v.msb, flagZ := decide (v = 0), flagC := shiftCarry }
  | .arith r =>
    { s with flagN := r.value.msb, flagZ := decide (r.value = 0), flagC := r.carry, flagV := r.overflow }

end Sys2Proof.Machine
end

