-- ==== Sys2Proof/Machine/Ops.lean ====
section
/-! DEFINITION. The named operations over registers, R15, memory and the inputs; taking an exception
and returning from one; the frame every instruction runs in. -/

namespace Sys2Proof.Machine

/-- What a step, or the meaning of an instruction, answers. -/
abbrev Result := Host.Outcome State Fault Refusal

/-! ## Modes and banks (spec/10_state.md rules R22, R32) -/

/-- The two mode bits, bit 1 the more significant (rule R32, log 9). -/
def modeBits : Mode → BitVec 2
  | .usr => 0
  | .fiq => 1
  | .irq => 2
  | .svc => 3

/-- The mode of two mode bits; all four values are legal (rules R25, R32, log 9). -/
def modeOfBits (b : BitVec 2) : Mode :=
  match b.toNat with
  | 0 => .usr
  | 1 => .fiq
  | 2 => .irq
  | _ => .svc

/-- The physical register a register number 0 to 14 names in a mode: the table of rule R22. -/
def phys (m : Mode) (i : Fin 15) : PhysReg :=
  match m with
  | .usr => .usr i
  | .fiq => if h : 10 ≤ i.val then .fiq ⟨i.val - 10, by omega⟩ else .usr i
  | .irq => if h : 13 ≤ i.val then .irq ⟨i.val - 13, by omega⟩ else .usr i
  | .svc => if h : 13 ≤ i.val then .svc ⟨i.val - 13, by omega⟩ else .usr i

/-- Read a physical register. -/
def readPhys (p : PhysReg) (s : State) : Word :=
  match p with
  | .usr i => s.usr[i]
  | .fiq i => s.fiq[i]
  | .irq i => s.irq[i]
  | .svc i => s.svc[i]

/-- Write a physical register; no register is hardwired (rule R20). -/
def writePhys (p : PhysReg) (v : Word) (s : State) : State :=
  match p with
  | .usr i => { s with usr := s.usr.set i v }
  | .fiq i => { s with fiq := s.fiq.set i v }
  | .irq i => { s with irq := s.irq.set i v }
  | .svc i => { s with svc := s.svc.set i v }

/-- `x[i]`, the register the current mode maps to Ri (rule R22). -/
def readX (i : Fin 15) (s : State) : Word := readPhys (phys s.mode i) s

/-- `x[i] <- v` (rule R22). -/
def writeX (i : Fin 15) (v : Word) (s : State) : State := writePhys (phys s.mode i) v s

/-! ## R15: the program counter and the PSR (spec/00_scope.md rule R12) -/

/-- The byte address of the executing instruction: the 24 bits held, two zero bits appended (rule R26). -/
def pcAddr (s : State) : Addr := s.pc ++ 0#2

/-- `R15full(k)`: N : Z : C : V : I : F : (pc + k)[25:2] : M (rules R12, R24). -/
def r15full (k : Addr) (s : State) : Word :=
  BitVec.ofBool s.flagN ++ BitVec.ofBool s.flagZ ++ BitVec.ofBool s.flagC ++ BitVec.ofBool s.flagV
    ++ BitVec.ofBool s.maskI ++ BitVec.ofBool s.maskF ++ (pcAddr s + k).extractLsb' 2 24 ++ modeBits s.mode

/-- `R15pc(k)`: the program counter alone, the eight PSR bits zero (rule R12). -/
def r15pc (k : Addr) (s : State) : Word := (pcAddr s + k).zeroExtend 32

/-- `setPC(v)`: bits 25:2 of v become the PC, the PSR is untouched (rules R12, R27). -/
def setPC (v : Word) (s : State) : State := { s with pc := v.extractLsb' 2 24 }

/-- `setPSR(v)`: the flags always, I, F and M only when the mode before the write is not user
(rules R12, R25). -/
def setPSR (v : Word) (s : State) : State :=
  match s.mode with
  | .usr => { s with flagN := wordBit 31 v, flagZ := wordBit 30 v, flagC := wordBit 29 v, flagV := wordBit 28 v }
  | .fiq | .irq | .svc =>
    { s with flagN := wordBit 31 v, flagZ := wordBit 30 v, flagC := wordBit 29 v, flagV := wordBit 28 v,
             maskI := wordBit 27 v, maskF := wordBit 26 v, mode := modeOfBits (v.extractLsb' 0 2) }

/-- `pc <- pc + 4`, modulo 2^26 (rules R27, R28). -/
def advance (s : State) : State := { s with pc := s.pc + 1 }

/-- Whether the PC may go on to the next word: at 0x3FFFFFC only where `pc_wrap` = wrap (rule R28, D6;
log 8). -/
def mayAdvance (s : State) : Bool := decide (s.platform.pcWrap = .wrap) || decide (s.pc ≠ 0xFFFFFF)

/-- The end of an instruction that did not assign the PC: `pc <- pc + 4`, or the refusal to step past the
top of memory (rules R14, R27, R28). -/
def proceed (s : State) : Result :=
  if mayAdvance s then .next (advance s) else .refused .pcRunsOverTop

/-- The end of an instruction: if it did not assign the PC then `pc <- pc + 4` (rules R14, R100). -/
def conclude (assignsPc : Bool) (s : State) : Result := if assignsPc then .next s else proceed s

/-! ## Memory (spec/20_memory.md) -/

/-- What an address that no store has written reads as (log 5). -/
def Memory.unlisted : Byte := 0

/-- Read one byte. -/
def Memory.read (m : Memory) (a : Nat) : Byte :=
  match m with
  | [] => Memory.unlisted
  | (b, v) :: rest => if a = b then v else if a < b then Memory.unlisted else Memory.read rest a

/-- Put a cell in front, or leave it out where it equals what an unlisted address reads as. -/
def Memory.cons (a : Nat) (v : Byte) (m : Memory) : Memory :=
  if v = Memory.unlisted then m else (a, v) :: m

/-- Write one byte, keeping the canonical form. -/
def Memory.write (m : Memory) (a : Nat) (v : Byte) : Memory :=
  match m with
  | [] => Memory.cons a v []
  | (b, u) :: rest =>
    if a = b then Memory.cons a v rest
    else if a < b then Memory.cons a v ((b, u) :: rest)
    else (b, u) :: Memory.write rest a v

/-- The addresses rise strictly from `low` on, stay inside the 2^26 bytes of rule R50, and no cell
holds what an unlisted address reads as. -/
def Memory.wfFrom (low : Nat) (m : Memory) : Bool :=
  match m with
  | [] => true
  | (a, v) :: rest =>
    decide (low ≤ a) && decide (a < 0x4000000) && decide (v ≠ Memory.unlisted) && Memory.wfFrom (a + 1) rest

/-- The canonical form of memory: equal memories are equal lists. -/
def Memory.wf (m : Memory) : Bool := Memory.wfFrom 0 m

/-- The word at a; little-endian it is `mem[a+3] : mem[a+2] : mem[a+1] : mem[a]` (rules R52, R53, log 1). -/
def Memory.readWord (m : Memory) (order : ByteOrder) (a : Nat) : Word :=
  match order with
  | .little => wordOfBytes (m.read a) (m.read (a + 1)) (m.read (a + 2)) (m.read (a + 3))

/-- Store a word at a; little-endian its lowest byte has the lowest address (rules R52, R53, log 1). -/
def Memory.writeWord (m : Memory) (order : ByteOrder) (a : Nat) (v : Word) : Memory :=
  match order with
  | .little =>
    (((m.write a (byteOfWord 0 v)).write (a + 1) (byteOfWord 1 v)).write (a + 2) (byteOfWord 2 v)).write
      (a + 3) (byteOfWord 3 v)

/-- What stands at an address; an address in no region is RAM (D3, log 4). -/
def cellKind (map : List Region) (a : Nat) : CellKind :=
  match map.find? (fun r => decide (r.base ≤ a) && decide (a < r.base + r.size)) with
  | some r => r.kind
  | none => .ram

/-- This step's inputs (log 7). -/
def currentInput (s : State) : StepInput := s.inputs.headD StepInput.quiet

/-- Whether a record of the memory manager is about this access (log 6). -/
def abortMatches (a : Addr) (n : AccessSize) (k : AccessKind) (m : Mode) (trans : Bool) (r : AbortRule) : Bool :=
  decide (r.low ≤ a.toNat) && decide (a.toNat ≤ r.high) && decide (r.size = n) && decide (r.kind = k)
    && decide (r.mode = m) && decide (r.trans = trans)

/-- `abort_oracle(address, size, kind, mode, trans)` (rule R58, D4, log 6). -/
def abortOracle (a : Addr) (n : AccessSize) (k : AccessKind) (trans : Bool) (s : State) : Bool :=
  (currentInput s).aborts.any (abortMatches a n k s.mode trans)

/-- The bytes of an access. -/
def accessBytes (a : Nat) (n : AccessSize) : List Nat :=
  match n with
  | .byte => [a]
  | .word => [a, a + 1, a + 2, a + 3]

/-- Whether the memory map refuses an access: a byte that does not exist, a store to ROM (rules R53, R55, D3),
and a device. The refusal of a device and the order of the three are the model's choice (log 4). -/
def cellStop (a : Addr) (n : AccessSize) (k : AccessKind) (s : State) : Option Refusal :=
  let kinds := (accessBytes a.toNat n).map (cellKind s.platform.memMap)
  if .absent ∈ kinds then some .unpopulatedAddress
  else if .device ∈ kinds then some .deviceAccess
  else if k = .write ∧ .rom ∈ kinds then some .writeToRom
  else none

/-- Whether an access stores into one of the two words already prefetched, at pc + 4 and pc + 8
(rules R66, R265, D22; log 22). -/
def storesIntoPrefetched (a : Addr) (k : AccessKind) (s : State) : Bool :=
  decide (k = .write) &&
    (decide (a.extractLsb' 2 24 = s.pc + 1) || decide (a.extractLsb' 2 24 = s.pc + 2))

/-- What the bus answers to an access. -/
inductive BusAnswer where
  | granted
  | dataAbort
  | stop (why : Refusal)
  deriving DecidableEq, Repr

/-- The part of `check` (rule R53) after the address and alignment checks: the abort, then the memory map;
last, by the model's choice of its place (log 22), the refusal of a store into a prefetched word (rule R66). -/
def checkBus (a : Addr) (n : AccessSize) (k : AccessKind) (trans : Bool) (s : State) : BusAnswer :=
  if abortOracle a n k trans s then .dataAbort
  else match cellStop a n k s with
    | some why => .stop why
    | none => if storesIntoPrefetched a k s then .stop .storeIntoPrefetched else .granted

/-- The address exception's test: one of bits 31:26 is set (rule R57). -/
def addressIllegal (addr : Word) : Bool := decide (addr.extractLsb' 26 6 ≠ 0)

/-- Whether an address is one the parameter `misaligned_word` refuses for an access of this size (rules
R53, R54, R192, D2; log 2, log 3). -/
def misalignedRefused (addr : Word) (n : AccessSize) (s : State) : Bool :=
  decide (n = .word) && decide (addr.extractLsb' 0 2 ≠ 0) && decide (s.platform.misalignedWord = .refuse)

/-- The 26-bit address an access uses, the one the memory manager and the memory map are asked about: a
word access ignores bits 1:0 (rule R54, parameter `misaligned_word` = rotate; log 2, log 3, log 42). -/
def busAddress (addr : Word) (n : AccessSize) : Addr :=
  match n with
  | .byte => addr.extractLsb' 0 26
  | .word => addr.extractLsb' 2 24 ++ 0#2

/-- The word a load from addr receives: the aligned word rotated right by 8 * addr[1:0] bits
(rule R54, parameter `misaligned_word` = rotate; log 2). -/
def rotatedWord (addr aligned : Word) : Word :=
  aligned.rotateRight (8 * (addr.extractLsb' 0 2).toNat)

/-- Read the word at a bus address, in the byte order of the platform (rules R52, R53, R55). -/
def loadWord (a : Addr) (s : State) : Word := s.mem.readWord s.platform.byteOrder a.toNat

/-- Store a word at a bus address, in the byte order of the platform (rules R52, R53). -/
def storeWord (a : Addr) (v : Word) (s : State) : State :=
  { s with mem := s.mem.writeWord s.platform.byteOrder a.toNat v }

/-- Store a byte at a bus address (rule R53). -/
def storeByte (a : Addr) (v : Byte) (s : State) : State := { s with mem := s.mem.write a.toNat v }

/-! ## Free values (log 21) -/

/-- Give a physical register a free value. -/
def spoil (p : PhysReg) (s : State) : State :=
  { writePhys p (Config.freeWord s.freeCount) s with freeCount := s.freeCount + 1 }

/-- Give a list of physical registers a free value each. -/
def spoilAll : List PhysReg → State → State
  | [], s => s
  | p :: rest, s => spoilAll rest (spoil p s)

/-- The base register of an aborted or address-excepted transfer, whose value before was `kept` and whose
value after a write-back that the form asks is `written`, as `abort_side_effects` says; R15 keeps its value
(rules R178, R199, R200, D20; log 21, log 39). So it is also where the base is the Rd of the failed load, of
which D20 says both that it holds `any` and that it is unchanged (rules R178, R225; log 43). -/
def failedBase (r : Reg) (kept written : Word) (s : State) : State :=
  match r, s.platform.abortSideEffects.base with
  | .r15, _ => s
  | .gpr i, .any => spoil (phys s.mode i) s
  | .gpr i, .kept => writeX i kept s
  | .gpr i, .writtenBack => writeX i written s

/-! ## Exceptions (spec/60_exceptions.md) -/

/-- The exceptions that enter by the common sequence (rules R220, R223); reset is `resetEntry`. -/
inductive Exception where
  | undefinedInstruction | softwareInterrupt | prefetchAbort | dataAbort | addressException | irq | fiq
  deriving DecidableEq, Repr

/-- The vector, as the word address of the PC (rule R222). -/
def exceptionVector : Exception → PcWord
  | .undefinedInstruction => 1
  | .softwareInterrupt => 2
  | .prefetchAbort => 3
  | .dataAbort => 4
  | .addressException => 5
  | .irq => 6
  | .fiq => 7

/-- The mode entered (rule R223). -/
def exceptionMode : Exception → Mode
  | .undefinedInstruction | .softwareInterrupt | .prefetchAbort | .dataAbort | .addressException => .svc
  | .irq => .irq
  | .fiq => .fiq

/-- What is added to the address of the instruction in the saved word (rule R223). -/
def exceptionLink : Exception → Addr
  | .undefinedInstruction | .softwareInterrupt | .prefetchAbort | .irq | .fiq => 4
  | .dataAbort | .addressException => 8

/-- Whether the entry also masks FIQ (rules R223, R224). -/
def exceptionMasksFiq : Exception → Bool
  | .fiq => true
  | .undefinedInstruction | .softwareInterrupt | .prefetchAbort | .dataAbort | .addressException | .irq => false

/-- Taking an exception (rule R224, log 13): the old PSR with the address goes to R14 of the mode
entered, I is set, F by FIQ, the PC goes to the vector. Entry refills the pipeline, so it leaves no
hazard (rule R266). The saved word is written last, so R14 holds it also where the failed transfer left that
register open (D20 against rules R223, R224; log 46). -/
def takeException (e : Exception) (s : State) : State :=
  { writeX 14 (r15full (exceptionLink e) s) { s with mode := exceptionMode e } with
    maskI := true
    maskF := s.maskF || exceptionMasksFiq e
    pc := exceptionVector e
    hazard := none }

/-- Returning from an exception, and every other write of R15 with its PSR: `setPC(v); setPSR(v)`
(rules R141, R196, R242). -/
def restoreR15 (v : Word) (s : State) : State := setPSR v (setPC v s)

/-- Every physical register beside R15 (rule R21). -/
def allPhysRegs : List PhysReg :=
  (List.finRange 15).map .usr ++ (List.finRange 5).map .fiq ++ (List.finRange 2).map .irq
    ++ (List.finRange 2).map .svc

/-- Give N, Z, C and V a free value each. -/
def spoilFlags (s : State) : State :=
  { s with
    flagN := Config.freeFlag s.freeCount
    flagZ := Config.freeFlag (s.freeCount + 1)
    flagC := Config.freeFlag (s.freeCount + 2)
    flagV := Config.freeFlag (s.freeCount + 3)
    freeCount := s.freeCount + 4 }

/-- Give every register and N, Z, C, V the values of `reset_regs` (D8). -/
def loadResetRegs (r : ResetRegs) (s : State) : State :=
  { s with
    usr := r.usr
    fiq := r.fiq
    irq := r.irq
    svc := r.svc
    flagN := r.flagN
    flagZ := r.flagZ
    flagC := r.flagC
    flagV := r.flagV }

/-- The values a reset leaves in the registers and in N, Z, C, V: those of `reset_regs`, or free ones where
it gives none (rules R230, R260, D8; log 12). -/
def resetValues (s : State) : State :=
  match s.platform.resetRegs with
  | some r => loadResetRegs r s
  | none => spoilFlags (spoilAll allPhysRegs s)

/-- Reset entry (rules R230, R260, R261): SVC mode, both masks set, pc 0; memory keeps its contents. -/
def resetEntry (s : State) : State :=
  { resetValues s with
    maskI := true
    maskF := true
    mode := .svc
    pc := 0
    hazard := none }

/-! ## The frame of an instruction -/

/-- Forget what the instruction before left to check. -/
def clearHazard (s : State) : State := { s with hazard := none }

/-- Whether naming a register is what the hazard forbids: after a mode change a register whose physical
register differs between the modes, after a user-bank LDM any of R10 to R14 (rules R266, R267, log 23). -/
def hazardous (hz : Hazard) (m : Mode) (r : Reg) : Bool :=
  match r with
  | .r15 => false
  | .gpr i =>
    match hz with
    | .modeChange old => decide (phys old i ≠ phys m i)
    | .userBankLoad => decide (10 ≤ i.val)

/-- Whether an instruction that names these registers meets the hazard. -/
def hazardHit (named : List Reg) (s : State) : Bool :=
  match s.hazard with
  | none => false
  | some hz => named.any (hazardous hz s.mode)

/-- Every instruction: the condition first (rules R30, R81), a failing one only going on to the next; then
the hazard of the instruction before (rules R266, R267); then what the instruction does. -/
def conditional (c : Cond) (named : List Reg) (body : State → Result) (s : State) : Result :=
  match condPassed c s with
  | false => proceed (clearHazard s)
  | true =>
    match hazardHit named s with
    | true => .refused .bankedRegisterHazard
    | false => body (clearHazard s)

end Sys2Proof.Machine
end

