-- ==== Sys2Proof/Machine/Operands.lean ====
section
/-! DEFINITION. Operand forms: the barrel shifter, operand 2 of data processing, R15 as an operand, the
addresses of single and block transfers (spec/41_data_processing.md section 2,
spec/42_single_data_transfer.md rule R171, spec/43_block_data_transfer.md rules R191, R192). -/

namespace Sys2Proof.Machine

/-! ## The barrel shifter -/

/-- A shifted operand with the shifter's carry output. -/
structure Shifted where
  value : Word
  carry : Bool
  deriving DecidableEq, Repr

/-- The shifts by 1 to 31, the same for a constant and for a register amount (rules R130, R132, R133). -/
def shiftBy (t : ShiftType) (a : Nat) (v : Word) : Shifted :=
  match t with
  | .lsl => { value := v <<< a, carry := wordBit (32 - a) v }
  | .lsr => { value := v >>> a, carry := wordBit (a - 1) v }
  | .asr => { value := v.sshiftRight a, carry := wordBit (a - 1) v }
  | .ror => { value := (v >>> a) ||| (v <<< (32 - a)), carry := wordBit (a - 1) v }

/-- A word whose 32 bits are all b. -/
def fillWord (b : Bool) : Word := if b then BitVec.allOnes 32 else 0

/-- A register shifted by the constant a; 0 means no shift for LSL, 32 for LSR and ASR, and rotate
right extended for ROR (rules R130, R131). -/
def shiftByConstant (t : ShiftType) (a : BitVec 5) (v : Word) (c : Bool) : Shifted :=
  if a = 0 then
    match t with
    | .lsl => { value := v, carry := c }
    | .lsr => { value := 0, carry := wordBit 31 v }
    | .asr => { value := fillWord (wordBit 31 v), carry := wordBit 31 v }
    | .ror => { value := BitVec.ofBool c ++ v.extractLsb' 1 31, carry := wordBit 0 v }
  else shiftBy t a.toNat v

/-- A register shifted by the amount a, 0 to 255, of a register's low byte; for 32 and more what parameter
`shift_ge32` = family gives (rule R132; log 17). -/
def shiftByAmount (t : ShiftType) (a : Nat) (v : Word) (c : Bool) : Shifted :=
  if a = 0 then { value := v, carry := c }
  else if a < 32 then shiftBy t a v
  else
    match t with
    | .lsl => { value := 0, carry := decide (a = 32) && wordBit 0 v }
    | .lsr => { value := 0, carry := decide (a = 32) && wordBit 31 v }
    | .asr => { value := fillWord (wordBit 31 v), carry := wordBit 31 v }
    | .ror => if a % 32 = 0 then { value := v, carry := wordBit 31 v } else shiftBy .ror (a % 32) v

/-- An 8-bit value rotated right by twice the rotate field; C is kept where nothing is rotated
(rule R134, D29; log 28). -/
def rotatedImmediate (o : ImmOperand) (c : Bool) : Shifted :=
  let v := (o.imm8.zeroExtend 32).rotateRight (2 * o.rotate.toNat)
  { value := v, carry := if o.rotate = 0 then c else wordBit 31 v }

/-! ## Registers as operands -/

/-- How far ahead R15 reads: 12 when the shift amount is in a register, else 8 (rule R122, log 35). -/
def pcAhead : Operand2 → Addr
  | .imm _ | .shiftImm _ => 8
  | .shiftReg _ => 12

/-- A register in the Rn position: R15 is the PC alone (rules R122, R176). -/
def readRn (k : Addr) (r : Reg) (s : State) : Word :=
  match r with
  | .gpr i => readX i s
  | .r15 => r15pc k s

/-- A register in the Rm position: R15 is the PC with the PSR (rule R122). -/
def readRm (k : Addr) (r : Reg) (s : State) : Word :=
  match r with
  | .gpr i => readX i s
  | .r15 => r15full k s

/-- A register stored to memory: R15 is the PC, twelve ahead, with the PSR (rules R174, R198). -/
def readStored (r : Reg) (s : State) : Word :=
  match r with
  | .gpr i => readX i s
  | .r15 => r15full 12 s

/-- A value shifted by the amount in the low byte of Rs; refused are the amount in R15 (rule R122, D15) and,
where `shift_ge32` = refuse, an amount of 32 or more (rule R132, D14; log 17). -/
def shiftByRegister (t : ShiftType) (rs : Reg) (v : Word) (s : State) : Except Refusal Shifted :=
  match rs with
  | .r15 => .error .r15AsShiftAmount
  | .gpr j =>
    let a := ((readX j s).extractLsb' 0 8).toNat
    if 32 ≤ a ∧ s.platform.shiftGe32 = .refuse then .error .shiftByThirtyTwoOrMore
    else .ok (shiftByAmount t a v s.flagC)

/-- Operand 2 with the shifter's carry output, or why it is refused (rules R122, R130 to R134). -/
def operand2 (o : Operand2) (s : State) : Except Refusal Shifted :=
  match o with
  | .imm i => .ok (rotatedImmediate i s.flagC)
  | .shiftImm i => .ok (shiftByConstant i.ty i.amount (readRm 8 i.rm s) s.flagC)
  | .shiftReg i => shiftByRegister i.ty i.rs (readRm 12 i.rm s) s

/-- The registers operand 2 names. -/
def operand2Registers : Operand2 → List Reg
  | .imm _ => []
  | .shiftImm i => [i.rm]
  | .shiftReg i => [i.rs, i.rm]

/-- The registers a data-processing instruction names: Rn where it is read, Rd where it is written,
those of operand 2 (rule R266, log 23). -/
def dpRegisters (op : DpOp) (h : DpHead) (o : Operand2) : List Reg :=
  (if readsRn op then [h.rn] else []) ++ (if writesRd op then [h.rd] else []) ++ operand2Registers o

/-! ## Single data transfer (rule R171) -/

/-- The offset of a single data transfer, the shifter's carry discarded, or why it is refused: R15 as offset
register (rules R171, R176), or what a shift by a register refuses (rule R132, D16; log 45). -/
def offsetValue (o : Offset) (s : State) : Except Refusal Word :=
  match o with
  | .imm v => .ok (v.zeroExtend 32)
  | .reg i =>
    match i.rm with
    | .r15 => .error .r15AsOffset
    | .gpr j => .ok (shiftByConstant i.ty i.amount (readX j s) s.flagC).value
  | .regShift i =>
    match i.rm with
    | .r15 => .error .r15AsOffset
    | .gpr j =>
      match shiftByRegister i.ty i.rs (readX j s) s with
      | .error why => .error why
      | .ok b => .ok b.value

/-- `indexed`: the base with the offset added or subtracted (rule R171). -/
def indexedAddress (h : SdtHead) (offset : Word) (s : State) : Word :=
  let base := readRn 8 h.rn s
  if h.u then base + offset else base - offset

/-- `addr`, where the transfer takes place: before or after indexing (rule R171). -/
def transferAddress (h : SdtHead) (offset : Word) (s : State) : Word :=
  if h.p then indexedAddress h offset s else readRn 8 h.rn s

/-- Post-indexing always writes the base back, pre-indexing with W = 1 (rules R171, R177). -/
def writesBase (h : SdtHead) : Bool := !h.p || h.w

/-- The translate form: post-indexed with W = 1 (rule R177, parameter `trans_bit`; log 18). -/
def isTranslated (h : SdtHead) : Bool := !h.p && h.w

/-- The registers a single data transfer names (rule R266, log 23). -/
def sdtRegisters (h : SdtHead) (o : Offset) : List Reg :=
  match o with
  | .imm _ => [h.rn, h.rd]
  | .reg i => [h.rn, h.rd, i.rm]
  | .regShift i => [h.rn, h.rd, i.rs, i.rm]

/-! ## Block data transfer (rules R191, R192) -/

/-- All sixteen registers in ascending order. -/
def allRegs : List Reg :=
  [.gpr 0, .gpr 1, .gpr 2, .gpr 3, .gpr 4, .gpr 5, .gpr 6, .gpr 7, .gpr 8, .gpr 9, .gpr 10, .gpr 11,
   .gpr 12, .gpr 13, .gpr 14, .r15]

/-- Whether a register is in a register list (rule R191). -/
def inList (list : BitVec 16) (r : Reg) : Bool := list.getLsbD (regNumber r)

/-- The listed registers in ascending order (rule R191). -/
def listedRegs (list : BitVec 16) : List Reg := allRegs.filter (inList list)

/-- `start`, the lowest address, of a transfer of k registers (rule R192). -/
def blockStart (h : BlockHead) (base : Word) (k : Nat) : Word :=
  match h.p, h.u with
  | false, true => base
  | true, true => base + 4
  | false, false => base - BitVec.ofNat 32 (4 * k) + 4
  | true, false => base - BitVec.ofNat 32 (4 * k)

/-- `final`, the value written back (rule R192). -/
def blockFinal (h : BlockHead) (base : Word) (k : Nat) : Word :=
  if h.u then base + BitVec.ofNat 32 (4 * k) else base - BitVec.ofNat 32 (4 * k)

/-- The k addresses start, start + 4, … (rules R191, R192). -/
def blockAddresses (start : Word) : Nat → List Word
  | 0 => []
  | k + 1 => start :: blockAddresses (start + 4) k

/-- Whether a load uses the user bank: S = 1 without R15 in the list (rule R197, log 19). -/
def loadUsesUserBank (h : BlockHead) : Bool := h.s && !inList h.list .r15

/-- The mode whose bank the listed registers belong to (rule R197). -/
def bankMode (userBank : Bool) (s : State) : Mode := if userBank then .usr else s.mode

/-- The registers a block data transfer names (rule R266, log 23). -/
def blockRegisters (h : BlockHead) : List Reg := h.rn :: listedRegs h.list

end Sys2Proof.Machine
end

