-- ==== Sys2Proof/Machine/BlockTransfer.lean ====
section
/-! DEFINITION. Block data transfer (spec/43_block_data_transfer.md). -/

namespace Sys2Proof.Machine

/-! ## Loads -/

/-- What the word reads of an LDM end in: all words, or the words read before the aborted access. -/
inductive BlockRead where
  | values (vs : List Word)
  | dataAbort (vs : List Word)
  | stop (why : Refusal)
  deriving DecidableEq, Repr

/-- The word reads of an LDM in ascending address order, each with trans = 0 (rules R59, R191, R193, R200;
log 44). -/
def readBlock (s : State) : List Word → BlockRead
  | [] => .values []
  | addr :: rest =>
    let a := busAddress addr .word
    match checkBus a .word .read false s with
    | .dataAbort => .dataAbort []
    | .stop why => .stop why
    | .granted =>
      match readBlock s rest with
      | .values vs => .values (loadWord a s :: vs)
      | .dataAbort vs => .dataAbort (loadWord a s :: vs)
      | .stop why => .stop why

/-- Load the listed general registers of a bank; R15 is loaded apart (rules R193, R197). -/
def loadRegs (m : Mode) : List (Reg × Word) → State → State
  | [], s => s
  | (.gpr i, v) :: rest, s => loadRegs m rest (writePhys (phys m i) v s)
  | (.r15, _) :: rest, s => loadRegs m rest s

/-- The word loaded for R15, where the list has it. -/
def loadedPc : List (Reg × Word) → Option Word
  | [] => none
  | (.gpr _, _) :: rest => loadedPc rest
  | (.r15, v) :: _ => some v

/-- Write-back of a block transfer (rule R192). -/
def blockWriteBack (h : BlockHead) (n : Fin 15) (final : Word) (s : State) : State :=
  if h.w then writeX n final s else s

/-- R15 after an LDM: the PC takes the word loaded for it, with S = 1 the PSR too (rule R196); where none is
loaded, a user-bank load from a privileged mode leaves the hazard of rule R267. -/
def finishLdm (h : BlockHead) (pcWord : Option Word) (s : State) : State :=
  match pcWord with
  | some v => if h.s then restoreR15 v s else setPC v s
  | none =>
    { s with hazard := if loadUsesUserBank h && decide (s.mode ≠ .usr) then some .userBankLoad else none }

/-- The forms of a block transfer the spec refuses: R15 as base, a misaligned base where `misaligned_word` =
refuse, a user-bank transfer where `ldm_user_bank` = refuse or with write-back (rules R192, R197, R201, D2,
D15, D18, D19; log 3, log 19). -/
def blockForbidden (h : BlockHead) (userBank : Bool) (s : State) : Option Refusal :=
  if h.rn = .r15 then some .r15BlockBase
  else if misalignedRefused (readRn 8 h.rn s) .word s then some .misalignedWordAccess
  else if userBank = true ∧ s.platform.ldmUserBank = .refuse then some .userBankTransfer
  else if userBank = true ∧ h.w = true then some .userBankWriteBack
  else none

/-- The physical registers an LDM lists, R15 apart. -/
def loadedPhys (m : Mode) : List Reg → List PhysReg
  | [] => []
  | .gpr i :: rest => phys m i :: loadedPhys m rest
  | .r15 :: rest => loadedPhys m rest

/-- The listed registers of an LDM that failed after the words vs were read, as `abort_side_effects` says
(rules R199, R200, D20; log 21, log 40, log 47). -/
def failedLoads (m : Mode) (regs : List Reg) (vs : List Word) (s : State) : State :=
  match s.platform.abortSideEffects.loads with
  | .any => spoilAll (loadedPhys m regs) s
  | .loaded which => loadRegs m ((regs.zip vs).filter fun p => inList which p.1) s

/-- The base register's value once a write-back has happened; its old value where the form asks none. -/
def blockBaseIfWritten (h : BlockHead) (base final : Word) : Word := if h.w then final else base

/-- An LDM or STM with base register n that fails by the address exception or the data abort, s being the
state with what it leaves in its listed registers and in memory: the base register is as `abort_side_effects`
says, also where it is listed (log 47), and the trap is taken (rules R199, R200, R235, R237, D20). Where the
base or a listed register is R14_SVC, the saved word of the trap stands in it (log 46). -/
def failBlock (e : Exception) (h : BlockHead) (n : Fin 15) (base final : Word) (s : State) : State :=
  takeException e (failedBase (.gpr n) base (blockBaseIfWritten h base final) s)

/-- LDM from base register n once the condition has passed (rules R193, R195 to R197, R199 to R201). -/
def ldmFrom (h : BlockHead) (n : Fin 15) (s : State) : Result :=
  let regs := listedRegs h.list
  let base := readX n s
  let final := blockFinal h base regs.length
  let addrs := blockAddresses (blockStart h base regs.length) regs.length
  let bank := bankMode (loadUsesUserBank h) s
  if addressIllegal (blockStart h base regs.length) then
    .next (failBlock .addressException h n base final (failedLoads bank regs [] s))
  else if addrs.any addressIllegal then .refused .blockCrossesTop
  else
    match readBlock s addrs with
    | .dataAbort vs => .next (failBlock .dataAbort h n base final (failedLoads bank regs vs s))
    | .stop why => .refused why
    | .values vs =>
      let pairs := regs.zip vs
      conclude (inList h.list .r15) (finishLdm h (loadedPc pairs)
        (loadRegs bank pairs (blockWriteBack h n final s)))

/-- LDM once the condition has passed: the refused forms first (rule R201). -/
def ldmBody (h : BlockHead) (s : State) : Result :=
  match h.rn, blockForbidden h (loadUsesUserBank h) s with
  | _, some why => .refused why
  | .gpr n, none => ldmFrom h n s
  | .r15, none => .refused .r15BlockBase

/-- LDM (rule R193). -/
def execLdm (h : BlockHead) (s : State) : Result :=
  conditional h.cond (blockRegisters h) (ldmBody h) s

/-! ## Stores -/

/-- What the word writes of an STM end in. -/
inductive BlockWrite where
  | done (s : State)
  | dataAbort (s : State)
  | stop (why : Refusal)
  deriving DecidableEq, Repr

/-- The word writes of an STM in ascending address order, each with trans = 0; words stored before an abort
stay stored (rules R59, R191, R194, R200; log 44). -/
def writeBlock : List (Word × Word) → State → BlockWrite
  | [], s => .done s
  | (addr, v) :: rest, s =>
    let a := busAddress addr .word
    match checkBus a .word .write false s with
    | .dataAbort => .dataAbort s
    | .stop why => .stop why
    | .granted => writeBlock rest (storeWord a v s)

/-- The word an STM stores for a register of bank mode m: R15 as pc + 12 with the PSR (rule R198), the
base as `final` when it is written back and not the first (rule R195, log 20), else the register. -/
def storedWord (h : BlockHead) (m : Mode) (n : Fin 15) (final : Word) (first : Bool) (r : Reg) (s : State) : Word :=
  match r with
  | .r15 => r15full 12 s
  | .gpr i => if i = n ∧ h.w = true ∧ first = false then final else readPhys (phys m i) s

/-- The words an STM stores, the lowest-numbered register first (rules R191, R194). -/
def storedWords (h : BlockHead) (m : Mode) (n : Fin 15) (final : Word) (s : State) : List Reg → List Word
  | [] => []
  | r :: rest => storedWord h m n final true r s :: rest.map (fun q => storedWord h m n final false q s)

/-- STM to base register n once the condition has passed (rules R194, R195, R197 to R201). -/
def stmTo (h : BlockHead) (n : Fin 15) (s : State) : Result :=
  let regs := listedRegs h.list
  let base := readX n s
  let final := blockFinal h base regs.length
  let addrs := blockAddresses (blockStart h base regs.length) regs.length
  if addressIllegal (blockStart h base regs.length) then
    .next (failBlock .addressException h n base final s)
  else if addrs.any addressIllegal then .refused .blockCrossesTop
  else
    match writeBlock (addrs.zip (storedWords h (bankMode h.s s) n final s regs)) s with
    | .dataAbort t => .next (failBlock .dataAbort h n base final t)
    | .stop why => .refused why
    | .done t => proceed (blockWriteBack h n final t)

/-- STM once the condition has passed: the refused forms first (rule R201); S = 1 is always the user
bank (rule R197). -/
def stmBody (h : BlockHead) (s : State) : Result :=
  match h.rn, blockForbidden h h.s s with
  | _, some why => .refused why
  | .gpr n, none => stmTo h n s
  | .r15, none => .refused .r15BlockBase

/-- STM (rule R194). -/
def execStm (h : BlockHead) (s : State) : Result :=
  conditional h.cond (blockRegisters h) (stmBody h) s

end Sys2Proof.Machine
end

