-- ==== Sys2Proof/Machine/Branch.lean ====
section
/-! DEFINITION. Branch and branch with link (spec/40_branch.md). -/

namespace Sys2Proof.Machine

/-- The branch target: pc + 8 plus the offset, two zero bits appended, modulo 2^26 (rules R93, R111). -/
def branchTarget (offset : BitVec 24) (s : State) : Addr := pcAddr s + 8 + (offset ++ 0#2)

/-- Go to a 26-bit address, a multiple of 4 (rule R27). -/
def branchTo (a : Addr) (s : State) : State := { s with pc := a.extractLsb' 2 24 }

/-- B (rule R111). -/
def execB (c : Cond) (offset : BitVec 24) (s : State) : Result :=
  conditional c [] (fun s => .next (branchTo (branchTarget offset s) s)) s

/-- BL: R14 of the current mode receives the PSR with pc + 4 (rule R112). -/
def execBl (c : Cond) (offset : BitVec 24) (s : State) : Result :=
  conditional c [] (fun s => .next (branchTo (branchTarget offset s) (writeX 14 (r15full 4 s) s))) s

end Sys2Proof.Machine
end

