-- ==== Sys2Proof/Machine/DataProcessing.lean ====
section
/-! DEFINITION. Data processing (spec/41_data_processing.md): the common frame of rule R121, then one
definition for each operation and form of operand 2. -/

namespace Sys2Proof.Machine

/-- TSTP, TEQP, CMPP, CMNP: the PSR is written and not the PC (rule R142); a change of mode leaves the
hazard of rule R266. -/
def writePsrOnly (v : Word) (s : State) : State :=
  let t := setPSR v s
  { t with hazard := if t.mode = s.mode then none else some (.modeChange s.mode) }

/-- What the operation writes: Rd and with S = 1 the flags; R15 as Rd (rules R140, R141); nothing but
the flags for a test or compare, which with S = 0 does nothing and with Rd = R15 writes the PSR
(rules R121, R142, R146). -/
def dpWrite (op : DpOp) (h : DpHead) (out : AluOut) (shiftCarry : Bool) (s : State) : State :=
  match writesRd op, h.rd, h.s with
  | true, .gpr i, true => writeX i (aluValue out) (setFlags out shiftCarry s)
  | true, .gpr i, false => writeX i (aluValue out) s
  | true, .r15, false => setPC (aluValue out) s
  | true, .r15, true => restoreR15 (aluValue out) s
  | false, _, false => s
  | false, .gpr _, true => setFlags out shiftCarry s
  | false, .r15, true => writePsrOnly (aluValue out) s

/-- The operation assigns the PC: it writes Rd, and Rd is R15 (rules R27, R140, R141). -/
def dpAssignsPc (op : DpOp) (h : DpHead) : Bool := writesRd op && decide (h.rd = .r15)

/-- The frame `DP` of rule R121 once the condition has passed. -/
def dpBody (op : DpOp) (h : DpHead) (o : Operand2) (s : State) : Result :=
  match operand2 o s with
  | .error why => .refused why
  | .ok b =>
    conclude (dpAssignsPc op h) (dpWrite op h (alu op (readRn (pcAhead o) h.rn s) b.value s.flagC) b.carry s)

/-- A data-processing instruction (rule R121). -/
def dataProcessing (op : DpOp) (h : DpHead) (o : Operand2) (s : State) : Result :=
  conditional h.cond (dpRegisters op h o) (dpBody op h o) s

/-- ADC (rule R150), operand 2 an immediate. -/
def execAdcImm (h : DpHead) (o : ImmOperand) (s : State) : Result := dataProcessing .adc h (.imm o) s

/-- ADC (rule R150), operand 2 a register shifted by a constant. -/
def execAdcShiftImm (h : DpHead) (o : ShiftImmOperand) (s : State) : Result := dataProcessing .adc h (.shiftImm o) s

/-- ADC (rule R150), operand 2 a register shifted by a register. -/
def execAdcShiftReg (h : DpHead) (o : ShiftRegOperand) (s : State) : Result := dataProcessing .adc h (.shiftReg o) s

/-- ADD (rule R151), operand 2 an immediate. -/
def execAddImm (h : DpHead) (o : ImmOperand) (s : State) : Result := dataProcessing .add h (.imm o) s

/-- ADD (rule R151), operand 2 a register shifted by a constant. -/
def execAddShiftImm (h : DpHead) (o : ShiftImmOperand) (s : State) : Result := dataProcessing .add h (.shiftImm o) s

/-- ADD (rule R151), operand 2 a register shifted by a register. -/
def execAddShiftReg (h : DpHead) (o : ShiftRegOperand) (s : State) : Result := dataProcessing .add h (.shiftReg o) s

/-- AND (rule R152), operand 2 an immediate. -/
def execAndImm (h : DpHead) (o : ImmOperand) (s : State) : Result := dataProcessing .and h (.imm o) s

/-- AND (rule R152), operand 2 a register shifted by a constant. -/
def execAndShiftImm (h : DpHead) (o : ShiftImmOperand) (s : State) : Result := dataProcessing .and h (.shiftImm o) s

/-- AND (rule R152), operand 2 a register shifted by a register. -/
def execAndShiftReg (h : DpHead) (o : ShiftRegOperand) (s : State) : Result := dataProcessing .and h (.shiftReg o) s

/-- BIC (rule R153), operand 2 an immediate. -/
def execBicImm (h : DpHead) (o : ImmOperand) (s : State) : Result := dataProcessing .bic h (.imm o) s

/-- BIC (rule R153), operand 2 a register shifted by a constant. -/
def execBicShiftImm (h : DpHead) (o : ShiftImmOperand) (s : State) : Result := dataProcessing .bic h (.shiftImm o) s

/-- BIC (rule R153), operand 2 a register shifted by a register. -/
def execBicShiftReg (h : DpHead) (o : ShiftRegOperand) (s : State) : Result := dataProcessing .bic h (.shiftReg o) s

/-- CMN (rule R154), operand 2 an immediate. -/
def execCmnImm (h : DpHead) (o : ImmOperand) (s : State) : Result := dataProcessing .cmn h (.imm o) s

/-- CMN (rule R154), operand 2 a register shifted by a constant. -/
def execCmnShiftImm (h : DpHead) (o : ShiftImmOperand) (s : State) : Result := dataProcessing .cmn h (.shiftImm o) s

/-- CMN (rule R154), operand 2 a register shifted by a register. -/
def execCmnShiftReg (h : DpHead) (o : ShiftRegOperand) (s : State) : Result := dataProcessing .cmn h (.shiftReg o) s

/-- CMP (rule R155), operand 2 an immediate. -/
def execCmpImm (h : DpHead) (o : ImmOperand) (s : State) : Result := dataProcessing .cmp h (.imm o) s

/-- CMP (rule R155), operand 2 a register shifted by a constant. -/
def execCmpShiftImm (h : DpHead) (o : ShiftImmOperand) (s : State) : Result := dataProcessing .cmp h (.shiftImm o) s

/-- CMP (rule R155), operand 2 a register shifted by a register. -/
def execCmpShiftReg (h : DpHead) (o : ShiftRegOperand) (s : State) : Result := dataProcessing .cmp h (.shiftReg o) s

/-- EOR (rule R156), operand 2 an immediate. -/
def execEorImm (h : DpHead) (o : ImmOperand) (s : State) : Result := dataProcessing .eor h (.imm o) s

/-- EOR (rule R156), operand 2 a register shifted by a constant. -/
def execEorShiftImm (h : DpHead) (o : ShiftImmOperand) (s : State) : Result := dataProcessing .eor h (.shiftImm o) s

/-- EOR (rule R156), operand 2 a register shifted by a register. -/
def execEorShiftReg (h : DpHead) (o : ShiftRegOperand) (s : State) : Result := dataProcessing .eor h (.shiftReg o) s

/-- MOV (rule R157), operand 2 an immediate. -/
def execMovImm (h : DpHead) (o : ImmOperand) (s : State) : Result := dataProcessing .mov h (.imm o) s

/-- MOV (rule R157), operand 2 a register shifted by a constant. -/
def execMovShiftImm (h : DpHead) (o : ShiftImmOperand) (s : State) : Result := dataProcessing .mov h (.shiftImm o) s

/-- MOV (rule R157), operand 2 a register shifted by a register. -/
def execMovShiftReg (h : DpHead) (o : ShiftRegOperand) (s : State) : Result := dataProcessing .mov h (.shiftReg o) s

/-- MVN (rule R158), operand 2 an immediate. -/
def execMvnImm (h : DpHead) (o : ImmOperand) (s : State) : Result := dataProcessing .mvn h (.imm o) s

/-- MVN (rule R158), operand 2 a register shifted by a constant. -/
def execMvnShiftImm (h : DpHead) (o : ShiftImmOperand) (s : State) : Result := dataProcessing .mvn h (.shiftImm o) s

/-- MVN (rule R158), operand 2 a register shifted by a register. -/
def execMvnShiftReg (h : DpHead) (o : ShiftRegOperand) (s : State) : Result := dataProcessing .mvn h (.shiftReg o) s

/-- ORR (rule R159), operand 2 an immediate. -/
def execOrrImm (h : DpHead) (o : ImmOperand) (s : State) : Result := dataProcessing .orr h (.imm o) s

/-- ORR (rule R159), operand 2 a register shifted by a constant. -/
def execOrrShiftImm (h : DpHead) (o : ShiftImmOperand) (s : State) : Result := dataProcessing .orr h (.shiftImm o) s

/-- ORR (rule R159), operand 2 a register shifted by a register. -/
def execOrrShiftReg (h : DpHead) (o : ShiftRegOperand) (s : State) : Result := dataProcessing .orr h (.shiftReg o) s

/-- RSB (rule R160), operand 2 an immediate. -/
def execRsbImm (h : DpHead) (o : ImmOperand) (s : State) : Result := dataProcessing .rsb h (.imm o) s

/-- RSB (rule R160), operand 2 a register shifted by a constant. -/
def execRsbShiftImm (h : DpHead) (o : ShiftImmOperand) (s : State) : Result := dataProcessing .rsb h (.shiftImm o) s

/-- RSB (rule R160), operand 2 a register shifted by a register. -/
def execRsbShiftReg (h : DpHead) (o : ShiftRegOperand) (s : State) : Result := dataProcessing .rsb h (.shiftReg o) s

/-- RSC (rule R161), operand 2 an immediate. -/
def execRscImm (h : DpHead) (o : ImmOperand) (s : State) : Result := dataProcessing .rsc h (.imm o) s

/-- RSC (rule R161), operand 2 a register shifted by a constant. -/
def execRscShiftImm (h : DpHead) (o : ShiftImmOperand) (s : State) : Result := dataProcessing .rsc h (.shiftImm o) s

/-- RSC (rule R161), operand 2 a register shifted by a register. -/
def execRscShiftReg (h : DpHead) (o : ShiftRegOperand) (s : State) : Result := dataProcessing .rsc h (.shiftReg o) s

/-- SBC (rule R162), operand 2 an immediate. -/
def execSbcImm (h : DpHead) (o : ImmOperand) (s : State) : Result := dataProcessing .sbc h (.imm o) s

/-- SBC (rule R162), operand 2 a register shifted by a constant. -/
def execSbcShiftImm (h : DpHead) (o : ShiftImmOperand) (s : State) : Result := dataProcessing .sbc h (.shiftImm o) s

/-- SBC (rule R162), operand 2 a register shifted by a register. -/
def execSbcShiftReg (h : DpHead) (o : ShiftRegOperand) (s : State) : Result := dataProcessing .sbc h (.shiftReg o) s

/-- SUB (rule R163), operand 2 an immediate. -/
def execSubImm (h : DpHead) (o : ImmOperand) (s : State) : Result := dataProcessing .sub h (.imm o) s

/-- SUB (rule R163), operand 2 a register shifted by a constant. -/
def execSubShiftImm (h : DpHead) (o : ShiftImmOperand) (s : State) : Result := dataProcessing .sub h (.shiftImm o) s

/-- SUB (rule R163), operand 2 a register shifted by a register. -/
def execSubShiftReg (h : DpHead) (o : ShiftRegOperand) (s : State) : Result := dataProcessing .sub h (.shiftReg o) s

/-- TEQ (rule R164), operand 2 an immediate. -/
def execTeqImm (h : DpHead) (o : ImmOperand) (s : State) : Result := dataProcessing .teq h (.imm o) s

/-- TEQ (rule R164), operand 2 a register shifted by a constant. -/
def execTeqShiftImm (h : DpHead) (o : ShiftImmOperand) (s : State) : Result := dataProcessing .teq h (.shiftImm o) s

/-- TEQ (rule R164), operand 2 a register shifted by a register. -/
def execTeqShiftReg (h : DpHead) (o : ShiftRegOperand) (s : State) : Result := dataProcessing .teq h (.shiftReg o) s

/-- TST (rule R165), operand 2 an immediate. -/
def execTstImm (h : DpHead) (o : ImmOperand) (s : State) : Result := dataProcessing .tst h (.imm o) s

/-- TST (rule R165), operand 2 a register shifted by a constant. -/
def execTstShiftImm (h : DpHead) (o : ShiftImmOperand) (s : State) : Result := dataProcessing .tst h (.shiftImm o) s

/-- TST (rule R165), operand 2 a register shifted by a register. -/
def execTstShiftReg (h : DpHead) (o : ShiftRegOperand) (s : State) : Result := dataProcessing .tst h (.shiftReg o) s

end Sys2Proof.Machine
end

