-- ==== Sys2Proof/Machine/SingleTransfer.lean ====
section
/-! DEFINITION. Single data transfer (spec/42_single_data_transfer.md). -/

namespace Sys2Proof.Machine

/-- The four instructions of the class, by L and B (rule R170). -/
inductive SdtOp where
  | ldr | ldrb | str | strb
  deriving DecidableEq, Repr

/-- The size of the access (rule R56). -/
def sdtSize : SdtOp → AccessSize
  | .ldr | .str => .word
  | .ldrb | .strb => .byte

/-- The kind of the access. -/
def sdtKind : SdtOp → AccessKind
  | .ldr | .ldrb => .read
  | .str | .strb => .write

/-- The forms the spec refuses: the translate form where `trans_bit` = refuse (rule R177, D17; log 18);
write-back to R15; a byte transfer of R15; LDR of its own written-back base (rules R172, R173, R175, R176,
D15; log 16). -/
def sdtForbidden (op : SdtOp) (h : SdtHead) (s : State) : Option Refusal :=
  if isTranslated h = true ∧ s.platform.transBit = .refuse then some .translatedTransfer
  else if h.rn = .r15 ∧ writesBase h = true then some .r15WriteBack
  else if sdtSize op = .byte ∧ h.rd = .r15 then some .r15ByteTransfer
  else if op = .ldr ∧ h.rd = h.rn ∧ writesBase h = true then some .loadOfWrittenBackBase
  else none

/-- Write-back (rules R171, R177). -/
def writeBack (h : SdtHead) (indexed : Word) (s : State) : State :=
  match writesBase h, h.rn with
  | true, .gpr i => writeX i indexed s
  | _, _ => s

/-- The destination of a load; R15 receives the PC bits alone (rules R172, R173). -/
def loadReg (r : Reg) (v : Word) (s : State) : State :=
  match r with
  | .gpr i => writeX i v s
  | .r15 => setPC v s

/-- The transfer assigns the PC: it is a load of R15 (rules R27, R172). -/
def sdtAssignsPc (op : SdtOp) (h : SdtHead) : Bool := decide (sdtKind op = .read) && decide (h.rd = .r15)

/-- The transfer of rules R172 to R175 at a granted address, then the write-back. -/
def sdtTransfer (op : SdtOp) (h : SdtHead) (offset : Word) (s : State) : State :=
  let addr := transferAddress h offset s
  let indexed := indexedAddress h offset s
  let a := busAddress addr (sdtSize op)
  match op with
  | .ldr => writeBack h indexed (loadReg h.rd (rotatedWord addr (loadWord a s)) s)
  | .ldrb => writeBack h indexed (loadReg h.rd ((s.mem.read a.toNat).zeroExtend 32) s)
  | .str => writeBack h indexed (storeWord a (readStored h.rd s) s)
  | .strb => writeBack h indexed (storeByte a (byteOfWord 0 (readStored h.rd s)) s)

/-- The base register's value once a write-back has happened; its old value where the form asks none. -/
def baseIfWritten (h : SdtHead) (offset : Word) (s : State) : Word :=
  if writesBase h then indexedAddress h offset s else readRn 8 h.rn s

/-- A transfer that fails by the address exception or the data abort: the trap is taken, Rd and memory keep
their values, the base register is as `abort_side_effects` says, but for the saved word in R14_SVC (rules
R178, R225, R235, R237, D20; log 43, log 46). -/
def failSdt (e : Exception) (h : SdtHead) (offset : Word) (s : State) : State :=
  takeException e (failedBase h.rn (readRn 8 h.rn s) (baseIfWritten h offset s) s)

/-- The class once the condition has passed: the refused forms, the address exception, the alignment, the
abort, the transfer, in that order (rules R53, R178, R241); the memory manager and the memory map are asked
about the address of the aligned word (log 42). -/
def sdtBody (op : SdtOp) (h : SdtHead) (o : Offset) (s : State) : Result :=
  match offsetValue o s, sdtForbidden op h s with
  | .error why, _ => .refused why
  | .ok _, some why => .refused why
  | .ok offset, none =>
    let addr := transferAddress h offset s
    if addressIllegal addr then .next (failSdt .addressException h offset s)
    else if misalignedRefused addr (sdtSize op) s then .refused .misalignedWordAccess
    else
      match checkBus (busAddress addr (sdtSize op)) (sdtSize op) (sdtKind op) (isTranslated h) s with
      | .dataAbort => .next (failSdt .dataAbort h offset s)
      | .stop why => .refused why
      | .granted => conclude (sdtAssignsPc op h) (sdtTransfer op h offset s)

/-- A single data transfer (rules R170, R171). -/
def singleTransfer (op : SdtOp) (h : SdtHead) (o : Offset) (s : State) : Result :=
  conditional h.cond (sdtRegisters h o) (sdtBody op h o) s

/-- LDR (rule R172), immediate offset. -/
def execLdrImm (h : SdtHead) (v : BitVec 12) (s : State) : Result := singleTransfer .ldr h (.imm v) s

/-- LDR (rule R172), register offset. -/
def execLdrReg (h : SdtHead) (o : ShiftImmOperand) (s : State) : Result := singleTransfer .ldr h (.reg o) s

/-- LDRB (rule R173), immediate offset. -/
def execLdrbImm (h : SdtHead) (v : BitVec 12) (s : State) : Result := singleTransfer .ldrb h (.imm v) s

/-- LDRB (rule R173), register offset. -/
def execLdrbReg (h : SdtHead) (o : ShiftImmOperand) (s : State) : Result := singleTransfer .ldrb h (.reg o) s

/-- STR (rule R174), immediate offset. -/
def execStrImm (h : SdtHead) (v : BitVec 12) (s : State) : Result := singleTransfer .str h (.imm v) s

/-- STR (rule R174), register offset. -/
def execStrReg (h : SdtHead) (o : ShiftImmOperand) (s : State) : Result := singleTransfer .str h (.reg o) s

/-- STRB (rule R175), immediate offset. -/
def execStrbImm (h : SdtHead) (v : BitVec 12) (s : State) : Result := singleTransfer .strb h (.imm v) s

/-- STRB (rule R175), register offset. -/
def execStrbReg (h : SdtHead) (o : ShiftImmOperand) (s : State) : Result := singleTransfer .strb h (.reg o) s

end Sys2Proof.Machine
end

