-- ==== Sys2Proof/Machine/System.lean ====
section
/-! DEFINITION. Supervisor call, undefined instructions, reserved words
(spec/44_supervisor_call_and_undefined.md, spec/30_encoding.md rules R90, R91). -/

namespace Sys2Proof.Machine

/-- SWI: the software interrupt exception; the 24-bit number has no effect (rule R210). -/
def execSwi (c : Cond) (_comment : BitVec 24) (s : State) : Result :=
  conditional c [] (fun s => .next (takeException .softwareInterrupt s)) s

/-- Whether a word is in the parameter `undef_set` (rule R90, D11; log 14). -/
def inUndefSet (w : Word) (s : State) : Bool :=
  s.platform.undefSet.any fun p => decide (w &&& p.mask = p.pattern)

/-- A word that is no instruction once its condition has passed: the undefined instruction exception where
`undef_set` holds it (rule R212), else a refusal (rule R90, D11; log 14). -/
def undefinedBody (w : Word) (s : State) : Result :=
  if inUndefSet w s then .next (takeException .undefinedInstruction s) else .refused .outsideUndefSet

/-- A word with bits 27:25 = 110 (rules R90, R212). -/
def execUndefined110 (c : Cond) (rest : BitVec 25) (s : State) : Result :=
  conditional c [] (undefinedBody (encode (.undefined110 c rest))) s

/-- A word with bits 27:24 = 1110 (rules R90, R212). -/
def execUndefined1110 (c : Cond) (rest : BitVec 24) (s : State) : Result :=
  conditional c [] (undefinedBody (encode (.undefined1110 c rest))) s

/-- A reserved data-processing word: refused once its condition has passed (rule R91, D12; log 15). -/
def execReservedDp (c : Cond) (_high : BitVec 17) (_mid : BitVec 2) (_low : BitVec 4) (s : State) : Result :=
  conditional c [] (fun _ => .refused .reservedDataProcessing) s

/-- The instruction of bits B and L of a single data transfer (rules R94, R170). -/
def sdtOpOfBits (b l : Bool) : SdtOp :=
  match b, l with
  | false, true => .ldr
  | true, true => .ldrb
  | false, false => .str
  | true, false => .strb

/-- The fields of a single data transfer whose offset is a register shifted by a register: bits 24:5 of its
word are `high`, the register form of operand 2 in bits 11:0 (rules R85, R87, D16; log 45). -/
def regShiftHead (c : Cond) (high : BitVec 20) : SdtHead :=
  { cond := c, p := high.getLsbD 19, u := high.getLsbD 18, w := high.getLsbD 16
    rn := regOfBits (high.extractLsb' 11 4), rd := regOfBits (high.extractLsb' 7 4) }

/-- The offset of that form: Rs in bits 11:8, the shift type in bits 6:5, Rm in bits 3:0 (rule R85). -/
def regShiftOperand (high : BitVec 20) (low : BitVec 4) : ShiftRegOperand :=
  { rs := regOfBits (high.extractLsb' 3 4), ty := shiftTypeOfBits (high.extractLsb' 0 2), rm := regOfBits low }

/-- A reserved single data transfer word, I = 1 and bit 4 = 1. Where `ldr_reg_shift_by_reg` = allow and bit
7 = 0 it transfers with an offset shifted by a register; else it is refused once its condition has passed
(rules R85, R91, R171, D16; log 15, log 45). -/
def execReservedSdt (c : Cond) (high : BitVec 20) (low : BitVec 4) (s : State) : Result :=
  match s.platform.ldrRegShiftByReg, high.getLsbD 2 with
  | .allow, false =>
    singleTransfer (sdtOpOfBits (high.getLsbD 17) (high.getLsbD 15)) (regShiftHead c high)
      (.regShift (regShiftOperand high low)) s
  | _, _ => conditional c [] (fun _ => .refused .reservedOffset) s

/-- A block data transfer with an empty list: refused once its condition has passed (rules R91, R201,
D19; log 15). -/
def execReservedBlock (c : Cond) (_high : BitVec 9) (s : State) : Result :=
  conditional c [] (fun _ => .refused .emptyRegisterList) s

end Sys2Proof.Machine
end

