-- ==== Sys2Proof/Machine/Dispatch.lean ====
section
/-! DEFINITION. The meaning of each instruction: one arm, one direct call of its definition. -/

namespace Sys2Proof.Machine

def exec (i : Instr) (s : State) : Host.Outcome State Fault Refusal :=
  match i with
  | .b cond offset => Sys2Proof.Machine.execB cond offset s
  | .bl cond offset => Sys2Proof.Machine.execBl cond offset s
  | .adcImm h o => Sys2Proof.Machine.execAdcImm h o s
  | .adcShiftImm h o => Sys2Proof.Machine.execAdcShiftImm h o s
  | .adcShiftReg h o => Sys2Proof.Machine.execAdcShiftReg h o s
  | .addImm h o => Sys2Proof.Machine.execAddImm h o s
  | .addShiftImm h o => Sys2Proof.Machine.execAddShiftImm h o s
  | .addShiftReg h o => Sys2Proof.Machine.execAddShiftReg h o s
  | .andImm h o => Sys2Proof.Machine.execAndImm h o s
  | .andShiftImm h o => Sys2Proof.Machine.execAndShiftImm h o s
  | .andShiftReg h o => Sys2Proof.Machine.execAndShiftReg h o s
  | .bicImm h o => Sys2Proof.Machine.execBicImm h o s
  | .bicShiftImm h o => Sys2Proof.Machine.execBicShiftImm h o s
  | .bicShiftReg h o => Sys2Proof.Machine.execBicShiftReg h o s
  | .cmnImm h o => Sys2Proof.Machine.execCmnImm h o s
  | .cmnShiftImm h o => Sys2Proof.Machine.execCmnShiftImm h o s
  | .cmnShiftReg h o => Sys2Proof.Machine.execCmnShiftReg h o s
  | .cmpImm h o => Sys2Proof.Machine.execCmpImm h o s
  | .cmpShiftImm h o => Sys2Proof.Machine.execCmpShiftImm h o s
  | .cmpShiftReg h o => Sys2Proof.Machine.execCmpShiftReg h o s
  | .eorImm h o => Sys2Proof.Machine.execEorImm h o s
  | .eorShiftImm h o => Sys2Proof.Machine.execEorShiftImm h o s
  | .eorShiftReg h o => Sys2Proof.Machine.execEorShiftReg h o s
  | .movImm h o => Sys2Proof.Machine.execMovImm h o s
  | .movShiftImm h o => Sys2Proof.Machine.execMovShiftImm h o s
  | .movShiftReg h o => Sys2Proof.Machine.execMovShiftReg h o s
  | .mvnImm h o => Sys2Proof.Machine.execMvnImm h o s
  | .mvnShiftImm h o => Sys2Proof.Machine.execMvnShiftImm h o s
  | .mvnShiftReg h o => Sys2Proof.Machine.execMvnShiftReg h o s
  | .orrImm h o => Sys2Proof.Machine.execOrrImm h o s
  | .orrShiftImm h o => Sys2Proof.Machine.execOrrShiftImm h o s
  | .orrShiftReg h o => Sys2Proof.Machine.execOrrShiftReg h o s
  | .rsbImm h o => Sys2Proof.Machine.execRsbImm h o s
  | .rsbShiftImm h o => Sys2Proof.Machine.execRsbShiftImm h o s
  | .rsbShiftReg h o => Sys2Proof.Machine.execRsbShiftReg h o s
  | .rscImm h o => Sys2Proof.Machine.execRscImm h o s
  | .rscShiftImm h o => Sys2Proof.Machine.execRscShiftImm h o s
  | .rscShiftReg h o => Sys2Proof.Machine.execRscShiftReg h o s
  | .sbcImm h o => Sys2Proof.Machine.execSbcImm h o s
  | .sbcShiftImm h o => Sys2Proof.Machine.execSbcShiftImm h o s
  | .sbcShiftReg h o => Sys2Proof.Machine.execSbcShiftReg h o s
  | .subImm h o => Sys2Proof.Machine.execSubImm h o s
  | .subShiftImm h o => Sys2Proof.Machine.execSubShiftImm h o s
  | .subShiftReg h o => Sys2Proof.Machine.execSubShiftReg h o s
  | .teqImm h o => Sys2Proof.Machine.execTeqImm h o s
  | .teqShiftImm h o => Sys2Proof.Machine.execTeqShiftImm h o s
  | .teqShiftReg h o => Sys2Proof.Machine.execTeqShiftReg h o s
  | .tstImm h o => Sys2Proof.Machine.execTstImm h o s
  | .tstShiftImm h o => Sys2Proof.Machine.execTstShiftImm h o s
  | .tstShiftReg h o => Sys2Proof.Machine.execTstShiftReg h o s
  | .ldrImm h v => Sys2Proof.Machine.execLdrImm h v s
  | .ldrReg h o => Sys2Proof.Machine.execLdrReg h o s
  | .ldrbImm h v => Sys2Proof.Machine.execLdrbImm h v s
  | .ldrbReg h o => Sys2Proof.Machine.execLdrbReg h o s
  | .strImm h v => Sys2Proof.Machine.execStrImm h v s
  | .strReg h o => Sys2Proof.Machine.execStrReg h o s
  | .strbImm h v => Sys2Proof.Machine.execStrbImm h v s
  | .strbReg h o => Sys2Proof.Machine.execStrbReg h o s
  | .ldm h => Sys2Proof.Machine.execLdm h s
  | .stm h => Sys2Proof.Machine.execStm h s
  | .swi cond comment => Sys2Proof.Machine.execSwi cond comment s
  | .undefined110 cond rest => Sys2Proof.Machine.execUndefined110 cond rest s
  | .undefined1110 cond rest => Sys2Proof.Machine.execUndefined1110 cond rest s
  | .reservedDp cond high mid low => Sys2Proof.Machine.execReservedDp cond high mid low s
  | .reservedSdt cond high low => Sys2Proof.Machine.execReservedSdt cond high low s
  | .reservedBlock cond high => Sys2Proof.Machine.execReservedBlock cond high s

end Sys2Proof.Machine
end

