-- ==== Sys2Proof/Machine/Fetch.lean ====
section
/-! DEFINITION. What a step does around an instruction: the inputs tested between instructions and the
fetch (spec/30_encoding.md rule R100, spec/20_memory.md rule R55, spec/60_exceptions.md rules R230 to
R236, R240). -/

namespace Sys2Proof.Machine

/-- The entry the inputs force before the next instruction, in the order reset, FIQ, IRQ
(rules R100, R240, log 27). -/
def pendingEntry (s : State) : Option State :=
  if (currentInput s).reset then some (resetEntry s)
  else if !s.maskF && (currentInput s).fiq then some (takeException .fiq s)
  else if !s.maskI && (currentInput s).irq then some (takeException .irq s)
  else none

/-- What a fetch gives. -/
inductive Fetched where
  | word (w : Word)
  | aborted (w : Word)
  | stop (why : Refusal)
  deriving DecidableEq, Repr

/-- `Fetch(pc)`: the word at the PC, marked where the memory manager refused the fetch (rule R55; log 38). -/
def fetch (s : State) : Fetched :=
  match cellStop (pcAddr s) .word .fetch s, abortOracle (pcAddr s) .word .fetch false s with
  | some why, _ => .stop why
  | none, true => .aborted (loadWord (pcAddr s) s)
  | none, false => .word (loadWord (pcAddr s) s)

/-- An aborted fetch that reaches execution: the condition is tested first, then the prefetch abort is
taken (rules R100, R236, R241). -/
def runAborted (w : Word) (s : State) : Result :=
  conditional (condOfBits (w.extractLsb' 28 4)) [] (fun s => .next (takeException .prefetchAbort s)) s

/-- This step's inputs are used up (log 7). -/
def dropInput (s : State) : State := { s with inputs := s.inputs.tail }

/-- The answer of a step: a next state has this step's inputs behind it. -/
def endStep (r : Result) : Result :=
  match r with
  | .next s => .next (dropInput s)
  | .fault f => .fault f
  | .refused w => .refused w

/-- The words of an instruction, as they are stored at the PC. -/
def storeAtPc (w : Word) (s : State) : State := storeWord (pcAddr s) w s

end Sys2Proof.Machine
end

