-- ==== Sys2Proof/Machine/Step.lean ====
section
/-! DEFINITION. One step of the processor (spec/30_encoding.md rule R100), and where a test places the
instruction the next step runs. -/

namespace Sys2Proof.Machine

/-- The instruction at the PC: fetched, decoded, executed; or the abort of its fetch; or the refusal of the
memory map (rules R55, R80, R100). -/
def runFetched (s : State) : Result :=
  match fetch s with
  | .stop why => .refused why
  | .aborted w => runAborted w s
  | .word w => exec (decode w) s

/-- One step: the end of the run at the halt address (rule R275), then the entry the inputs force, else
the instruction at the PC (rule R100). -/
def step (s : State) : Host.Outcome State Fault Refusal :=
  if s.haltAddress = some (pcAddr s) then .fault .runEnded
  else
    match pendingEntry s with
    | some t => endStep (.next t)
    | none => endStep (runFetched s)

/-- The state with the instruction of the nbits low bits of w stored where the next step fetches
(log 34). -/
def State.withFetchWord (s : State) (nbits w : Nat) : State :=
  storeAtPc (BitVec.ofNat 32 (w % 2 ^ nbits)) s

end Sys2Proof.Machine
end

