-- ==== Sys2Proof/Safety.lean ====
section
/-! DEFINITION. The terms the claims are stated in: what stays the same between two states, what an
instruction of each class leaves, exception entry, the invariant of a run, and what user mode may see. -/

namespace Sys2Proof.Machine

/-! ## What stays the same -/

/-- Every physical register outside the list reads as before. -/
def SameRegsExcept (ps : List PhysReg) (s t : State) : Prop := ∀ p, p ∉ ps → readPhys p t = readPhys p s

/-- Every physical register reads as before. -/
def SameRegs (s t : State) : Prop := ∀ p, readPhys p t = readPhys p s

/-- Every byte of memory outside the list reads as before. -/
def SameMemoryExcept (bytes : List Nat) (s t : State) : Prop := ∀ a, a ∉ bytes → t.mem.read a = s.mem.read a

/-- Every byte of memory reads as before. -/
def SameMemory (s t : State) : Prop := ∀ a, t.mem.read a = s.mem.read a

/-- N, Z, C and V are as before. -/
def SameFlags (s t : State) : Prop :=
  t.flagN = s.flagN ∧ t.flagZ = s.flagZ ∧ t.flagC = s.flagC ∧ t.flagV = s.flagV

/-- I, F and M are as before. -/
def SameControl (s t : State) : Prop := t.maskI = s.maskI ∧ t.maskF = s.maskF ∧ t.mode = s.mode

/-- The whole PSR is as before. -/
def SamePsr (s t : State) : Prop := SameFlags s t ∧ SameControl s t

/-- The platform (parameters, halt address, inputs to come) is as before. -/
def SamePlatform (s t : State) : Prop :=
  t.platform = s.platform ∧ t.haltAddress = s.haltAddress ∧ t.inputs = s.inputs

/-- The platform is as before and no free value was drawn. -/
def SameRest (s t : State) : Prop := SamePlatform s t ∧ t.freeCount = s.freeCount

/-- The PC moves to the next word (rules R27, R28), no hazard left. -/
def Advances (s t : State) : Prop := t.pc = s.pc + 1 ∧ t.hazard = none

/-- The PC moves to the word w (rule R27), no hazard left. -/
def GoesTo (w : PcWord) (t : State) : Prop := t.pc = w ∧ t.hazard = none

/-! ## Flags and the PSR -/

/-- Values of N, Z, C and V. -/
structure FlagValues where
  n : Bool
  z : Bool
  c : Bool
  v : Bool
  deriving DecidableEq, Repr

/-- The state's flags have these values. -/
def HasFlags (f : FlagValues) (t : State) : Prop :=
  t.flagN = f.n ∧ t.flagZ = f.z ∧ t.flagC = f.c ∧ t.flagV = f.v

/-- The PSR after a write of the word v (rules R12, R25): N, Z, C, V are bits 31 to 28; I, F and M are
bits 27, 26 and 1:0, but in user mode they keep their values. -/
def PsrWritten (v : Word) (s t : State) : Prop :=
  t.flagN = v.getLsbD 31 ∧ t.flagZ = v.getLsbD 30 ∧ t.flagC = v.getLsbD 29 ∧ t.flagV = v.getLsbD 28 ∧
    (s.mode = .usr → SameControl s t) ∧
    (s.mode ≠ .usr → t.maskI = v.getLsbD 27 ∧ t.maskF = v.getLsbD 26 ∧ modeBits t.mode = v.extractLsb' 0 2)

/-- The word that holds R15 with the PSR of s, its PC field w (rule R12: N Z C V I F, the PC, M). -/
def IsR15Word (w : PcWord) (s : State) (v : Word) : Prop :=
  v.getLsbD 31 = s.flagN ∧ v.getLsbD 30 = s.flagZ ∧ v.getLsbD 29 = s.flagC ∧ v.getLsbD 28 = s.flagV ∧
    v.getLsbD 27 = s.maskI ∧ v.getLsbD 26 = s.maskF ∧ v.extractLsb' 2 24 = w ∧ v.extractLsb' 0 2 = modeBits s.mode

/-! ## Data processing (rules R121 to R146) -/

/-- A data-processing instruction runs: its condition passes, no register it names is hazardous, operand 2
is b, and unless it assigns the PC the PC may go on to the next word (rule R28). -/
def DpRuns (op : DpOp) (h : DpHead) (o : Operand2) (b : Shifted) (s : State) : Prop :=
  condPassed h.cond s = true ∧ hazardHit (dpRegisters op h o) s = false ∧ operand2 o s = .ok b ∧
    (dpAssignsPc op h = false → mayAdvance s = true)

/-- Operand 1 (rule R122). -/
def operand1 (h : DpHead) (o : Operand2) (s : State) : Word := readRn (pcAhead o) h.rn s

/-- What an operation that writes Rd leaves (rules R121, R125, R140, R141): Rd holds r, with S = 1 the
flags have the values f; a write of R15 goes to the PC, with S = 1 to the PSR too. Nothing else changes. -/
def DpWritten (h : DpHead) (r : Word) (f : FlagValues) (s t : State) : Prop :=
  SameMemory s t ∧ SameRest s t ∧
    match h.rd with
    | .gpr d => readX d t = r ∧ SameRegsExcept [phys s.mode d] s t ∧ Advances s t ∧ SameControl s t ∧
        (if h.s then HasFlags f t else SameFlags s t)
    | .r15 => SameRegs s t ∧ GoesTo (r.extractLsb' 2 24) t ∧ (if h.s then PsrWritten r s t else SamePsr s t)

/-- What a test or compare leaves (rules R121, R142, R146, R266): no register is written; with S = 1 the
flags have the values f, or with Rd = R15 the PSR is written from r, a change of mode being remembered
for the next instruction; with S = 0 only the PC advances. -/
def DpTested (h : DpHead) (r : Word) (f : FlagValues) (s t : State) : Prop :=
  SameMemory s t ∧ SameRest s t ∧ SameRegs s t ∧ t.pc = s.pc + 1 ∧
    match h.s, h.rd with
    | false, _ => SamePsr s t ∧ t.hazard = none
    | true, .gpr _ => HasFlags f t ∧ SameControl s t ∧ t.hazard = none
    | true, .r15 => PsrWritten r s t ∧
        t.hazard = if t.mode = s.mode then none else some (.modeChange s.mode)

/-- Whenever the data-processing instruction i runs, exec answers a next state that is as the outcome
says, for operand 1, operand 2, the carry flag before, and the flag values the result has. -/
def DpCompletes (i : Instr) (op : DpOp) (h : DpHead) (o : Operand2)
    (outcome : DpHead → Word → FlagValues → State → State → Prop)
    (result : Word → Word → Bool → Word) (flags : Word → Word → State → Bool → FlagValues) : Prop :=
  ∀ (s : State) (b : Shifted), DpRuns op h o b s →
    ∃ t, exec i s = .next t ∧
      outcome h (result (operand1 h o s) b.value s.flagC) (flags (operand1 h o s) b.value s b.carry) s t

/-- The three forms of a data-processing instruction, by their constructors: each has the opcode bits of
the pattern, and each completes. -/
def DpFamily (op : DpOp) (imm : DpHead → ImmOperand → Instr) (shiftImm : DpHead → ShiftImmOperand → Instr)
    (shiftReg : DpHead → ShiftRegOperand → Instr) (pattern : Word)
    (outcome : DpHead → Word → FlagValues → State → State → Prop)
    (result : Word → Word → Bool → Word) (flags : Word → Word → State → Bool → FlagValues) : Prop :=
  (∀ h o, encode (imm h o) &&& 0x0DE00000 = pattern ∧ DpCompletes (imm h o) op h (.imm o) outcome result flags) ∧
  (∀ h o, encode (shiftImm h o) &&& 0x0DE00000 = pattern ∧
    DpCompletes (shiftImm h o) op h (.shiftImm o) outcome result flags) ∧
  (∀ h o, encode (shiftReg h o) &&& 0x0DE00000 = pattern ∧
    DpCompletes (shiftReg h o) op h (.shiftReg o) outcome result flags)

/-- The flags of a logical result r: N and Z of it, C from the shifter, V as it was (rule R123). -/
def logicalFlags (r : Word) (s : State) (shiftCarry : Bool) : FlagValues :=
  { n := r.getLsbD 31, z := decide (r = 0), c := shiftCarry, v := s.flagV }

/-- The flags of an addition a + b + cin: the carry out of bit 31, the overflow of the signed sum
(rules R15, R124, R167). -/
def addFlags (a b : Word) (cin : Bool) : FlagValues :=
  let r : Word := a + b + BitVec.ofNat 32 cin.toNat
  let signed : Int := a.toInt + b.toInt + cin.toNat
  { n := r.getLsbD 31, z := decide (r = 0), c := decide (2 ^ 32 ≤ a.toNat + b.toNat + cin.toNat)
    v := decide (signed < -2 ^ 31 ∨ 2 ^ 31 ≤ signed) }

/-- The flags of a subtraction a - b - borrow: C is the absence of an unsigned borrow, V the overflow of
the signed difference (rules R124, R167). -/
def subFlags (a b : Word) (borrow : Bool) : FlagValues :=
  let r : Word := a - b - BitVec.ofNat 32 borrow.toNat
  let signed : Int := a.toInt - b.toInt - borrow.toNat
  { n := r.getLsbD 31, z := decide (r = 0), c := decide (b.toNat + borrow.toNat ≤ a.toNat)
    v := decide (signed < -2 ^ 31 ∨ 2 ^ 31 ≤ signed) }

/-! ## Single data transfer (rules R171 to R178) -/

/-- A single data transfer is attempted at its address: its condition passes, no register it names is
hazardous, its offset has this value, and it is none of the forms the spec or a parameter refuses; an
offset shifted by a register is allowed (`ldr_reg_shift_by_reg`). -/
def SdtAttempts (op : SdtOp) (h : SdtHead) (o : Offset) (offset : Word) (s : State) : Prop :=
  condPassed h.cond s = true ∧ hazardHit (sdtRegisters h o) s = false ∧ offsetValue o s = .ok offset ∧
    sdtForbidden op h s = none ∧ (∀ r, o = .regShift r → s.platform.ldrRegShiftByReg = .allow)

/-- What the bus answers to the access of a single data transfer (rules R53, R66). -/
def sdtAnswer (op : SdtOp) (h : SdtHead) (offset : Word) (s : State) : BusAnswer :=
  checkBus (busAddress (transferAddress h offset s) (sdtSize op)) (sdtSize op) (sdtKind op) (isTranslated h) s

/-- The address is legal (rule R57), its alignment is allowed, the access is granted, and unless R15 is
loaded the PC may go on to the next word (rule R28). -/
def SdtGranted (op : SdtOp) (h : SdtHead) (offset : Word) (s : State) : Prop :=
  (transferAddress h offset s).toNat < 0x4000000 ∧
    misalignedRefused (transferAddress h offset s) (sdtSize op) s = false ∧
    sdtAnswer op h offset s = .granted ∧ (sdtAssignsPc op h = false → mayAdvance s = true)

/-- The base register, where the transfer writes it. -/
def writtenBase (h : SdtHead) (s : State) : List PhysReg :=
  match h.rn with
  | .gpr n => if writesBase h then [phys s.mode n] else []
  | .r15 => []

/-- The base register after the transfer: the indexed address where it is written back (rules R171, R177). -/
def BaseWritten (h : SdtHead) (offset : Word) (s t : State) : Prop :=
  ∀ n, h.rn = .gpr n → writesBase h = true → readX n t = indexedAddress h offset s

/-- The base register of a transfer as a list of physical registers. -/
def baseReg (r : Reg) (s : State) : List PhysReg :=
  match r with
  | .gpr n => [phys s.mode n]
  | .r15 => []

/-- What a load of v leaves: Rd holds v, or for R15 the PC takes its bits 25:2; the base is written back;
no memory, no PSR bit and no other register changes. -/
def SdtLoaded (h : SdtHead) (offset v : Word) (s t : State) : Prop :=
  SameMemory s t ∧ SamePsr s t ∧ SameRest s t ∧ BaseWritten h offset s t ∧
    match h.rd with
    | .gpr d => (h.rd = h.rn → writesBase h = false) → readX d t = v
    | .r15 => True

/-- The rest of what a load leaves: the PC and the other registers. -/
def SdtLoadFrame (h : SdtHead) (v : Word) (s t : State) : Prop :=
  match h.rd with
  | .gpr d => SameRegsExcept (phys s.mode d :: writtenBase h s) s t ∧ Advances s t
  | .r15 => SameRegsExcept (writtenBase h s) s t ∧ GoesTo (v.extractLsb' 2 24) t

/-- A load completes: whenever the transfer is attempted and granted, exec answers a next state whose
destination holds `value` of the address and the state (`SdtLoaded`, `SdtLoadFrame`). -/
def SdtLoadCompletes (i : Instr) (op : SdtOp) (h : SdtHead) (o : Offset) (value : Word → State → Word) : Prop :=
  ∀ (s : State) (offset : Word), SdtAttempts op h o offset s → SdtGranted op h offset s →
    ∃ t, exec i s = .next t ∧ SdtLoaded h offset (value (transferAddress h offset s) s) s t ∧
      SdtLoadFrame h (value (transferAddress h offset s) s) s t

/-- What a store leaves: memory changes in the given bytes alone, the base is written back, no other
register and no PSR bit changes. -/
def SdtStored (h : SdtHead) (offset : Word) (bytes : List Nat) (s t : State) : Prop :=
  SameMemoryExcept bytes s t ∧ SamePsr s t ∧ SameRest s t ∧ BaseWritten h offset s t ∧
    SameRegsExcept (writtenBase h s) s t ∧ Advances s t

/-- The reserved single data transfer word with bit 7 = 0 that transfers with an offset shifted by a
register where the parameter `ldr_reg_shift_by_reg` allows it (rules R85, R87, R91, D16). -/
def regShiftInstr (op : SdtOp) (h : SdtHead) (o : ShiftRegOperand) : Instr :=
  .reservedSdt h.cond
    (BitVec.ofBool h.p ++ BitVec.ofBool h.u ++ BitVec.ofBool (decide (sdtSize op = .byte)) ++ BitVec.ofBool h.w
      ++ BitVec.ofBool (decide (sdtKind op = .read)) ++ regBits h.rn ++ regBits h.rd ++ regBits o.rs ++ 0#1
      ++ shiftTypeBits o.ty)
    (regBits o.rm)

/-- A claim about every single data transfer: the eight constructors, and the form of the reserved row that
`ldr_reg_shift_by_reg` admits. -/
def EverySdt (claim : Instr → SdtOp → SdtHead → Offset → Prop) : Prop :=
  (∀ h v, claim (.ldrImm h v) .ldr h (.imm v)) ∧ (∀ h o, claim (.ldrReg h o) .ldr h (.reg o)) ∧
  (∀ h v, claim (.ldrbImm h v) .ldrb h (.imm v)) ∧ (∀ h o, claim (.ldrbReg h o) .ldrb h (.reg o)) ∧
  (∀ h v, claim (.strImm h v) .str h (.imm v)) ∧ (∀ h o, claim (.strReg h o) .str h (.reg o)) ∧
  (∀ h v, claim (.strbImm h v) .strb h (.imm v)) ∧ (∀ h o, claim (.strbReg h o) .strb h (.reg o)) ∧
  (∀ op h o, claim (regShiftInstr op h o) op h (.regShift o))

/-! ## Exceptions (rules R223, R224) -/

/-- Exception entry: the mode, the vector, I set, F set if the exception masks it, N, Z, C, V kept, R14 of
the mode entered holding the PSR of before with the address `ahead` words after the instruction, every
other register but the spoilt ones as before, no hazard left; for each spoilt one at most one free value was
drawn. -/
def Entered (m : Mode) (vector ahead : PcWord) (masksF : Bool) (spoilt : List PhysReg) (s t : State) : Prop :=
  t.mode = m ∧ t.pc = vector ∧ t.maskI = true ∧ t.maskF = (s.maskF || masksF) ∧ SameFlags s t ∧
    IsR15Word (s.pc + ahead) s (readPhys (phys m 14) t) ∧
    SameRegsExcept (phys m 14 :: spoilt) s t ∧ t.hazard = none ∧ SamePlatform s t ∧
    s.freeCount ≤ t.freeCount ∧ t.freeCount ≤ s.freeCount + spoilt.length

/-- What the base register n of a failed transfer holds after the trap (D20), `written` being its value after
the write-back the form asks, or its old value: nothing is said of a free value, nor of R14_SVC, where the
saved word stands (log 46). -/
def BaseAfterFailure (n : Fin 15) (written : Word) (s t : State) : Prop :=
  phys s.mode n ≠ phys .svc 14 →
    (s.platform.abortSideEffects.base = .kept → readPhys (phys s.mode n) t = readX n s) ∧
    (s.platform.abortSideEffects.base = .writtenBack → readPhys (phys s.mode n) t = written)

/-! ## Block data transfer (rules R191 to R201) -/

/-- How many registers are listed (rule R191). -/
def listCount (list : BitVec 16) : Nat := ((List.range 16).filter list.getLsbD).length

/-- How many listed registers stand below register i: its place j in the block (rule R191). -/
def listPlace (list : BitVec 16) (i : Nat) : Nat := ((List.range i).filter list.getLsbD).length

/-- The address of the listed register i: start + 4j (rules R191, R192). -/
def blockAddressOf (h : BlockHead) (base : Word) (i : Nat) : Word :=
  blockStart h base (listCount h.list) + BitVec.ofNat 32 (4 * listPlace h.list i)

/-- The bytes of the words of the listed registers below number `bound`; 16 gives the whole block. -/
def blockBytes (h : BlockHead) (base : Word) (bound : Nat) : List Nat :=
  (List.range bound).flatMap fun i =>
    if h.list.getLsbD i then accessBytes (busAddress (blockAddressOf h base i) .word).toNat .word else []

/-- The word that stands in memory at a block address. -/
def wordAt (addr : Word) (t : State) : Word := loadWord (busAddress addr .word) t

/-- The words of an STM of the listed registers below number `bound` stand in memory (rules R194, R195,
R198): the general registers of the bank, the base as `final` when it is written back and not the first,
R15 as the PC twelve ahead with the PSR. -/
def BlockStored (h : BlockHead) (n : Fin 15) (bound : Nat) (s t : State) : Prop :=
  (∀ i : Fin 15, i.val < bound → h.list.getLsbD i.val = true →
    wordAt (blockAddressOf h (readX n s) i.val) t =
      if i = n ∧ h.w = true ∧ 0 < listPlace h.list i.val then blockFinal h (readX n s) (listCount h.list)
      else readPhys (phys (bankMode h.s s) i) s) ∧
  (15 < bound → h.list.getLsbD 15 = true →
    IsR15Word (s.pc + 3) s (wordAt (blockAddressOf h (readX n s) 15) t))

/-- A block transfer to or from base register n is attempted: its condition passes, no register it names
is hazardous, the list is not empty, and it is none of the forms the spec or a parameter refuses. -/
def BlockAttempts (h : BlockHead) (n : Fin 15) (userBank : Bool) (s : State) : Prop :=
  condPassed h.cond s = true ∧ hazardHit (blockRegisters h) s = false ∧ h.rn = .gpr n ∧ h.list ≠ 0 ∧
    misalignedRefused (readX n s) .word s = false ∧
    (userBank = true → h.w = false ∧ s.platform.ldmUserBank = .family)

/-- Every address of the block is legal (rule R199). -/
def BlockLegal (h : BlockHead) (base : Word) : Prop :=
  ∀ i, i < 16 → h.list.getLsbD i = true → (blockAddressOf h base i).toNat < 0x4000000

/-- Every access of the block is granted. -/
def BlockGranted (h : BlockHead) (base : Word) (k : AccessKind) (s : State) : Prop :=
  ∀ i, i < 16 → h.list.getLsbD i = true →
    checkBus (busAddress (blockAddressOf h base i) .word) .word k false s = .granted

/-- The listed general registers of a mode, as physical registers. -/
def listedPhys (m : Mode) (list : BitVec 16) : List PhysReg :=
  ((List.finRange 15).filter fun i => list.getLsbD i.val).map (phys m)

/-- The base register, where a block transfer writes it. -/
def blockWrittenBase (h : BlockHead) (n : Fin 15) (s : State) : List PhysReg :=
  if h.w then [phys s.mode n] else []

/-- What the listed registers of an LDM that failed at number `bound` hold after the trap, where the platform
says (D20): those that `which` names hold the words read before, the others their old values. Nothing is said
of the base, and of R14_SVC, where the saved word stands (log 46). -/
def LoadsAfterFailure (h : BlockHead) (n : Fin 15) (bound : Nat) (s t : State) : Prop :=
  ∀ (which : BitVec 16) (k : Fin 15), s.platform.abortSideEffects.loads = .loaded which →
    h.list.getLsbD k.val = true → phys (bankMode (loadUsesUserBank h) s) k ≠ phys s.mode n →
    phys (bankMode (loadUsesUserBank h) s) k ≠ phys .svc 14 →
    readPhys (phys (bankMode (loadUsesUserBank h) s) k) t =
      if k.val < bound ∧ which.getLsbD k.val = true then wordAt (blockAddressOf h (readX n s) k.val) s
      else readPhys (phys (bankMode (loadUsesUserBank h) s) k) s

/-! ## The invariant of a run -/

/-- What every step keeps: memory in its canonical form; a hazard of a mode change was made by a privileged
mode and did change it, one of a user-bank load left a privileged mode. -/
def Inv (s : State) : Prop :=
  s.mem.wf = true ∧
    (∀ old, s.hazard = some (.modeChange old) → old ≠ .usr ∧ old ≠ s.mode) ∧
    (s.hazard = some .userBankLoad → s.mode ≠ .usr)

/-! ## What user mode may change and see (rules R25, R250) -/

/-- How a step may leave user mode: by one of the eight entries of rule R223, I set, at the vector and in
the mode of the exception; FIQ and reset also set F. -/
def EnteredFromUser (t : State) : Prop :=
  t.maskI = true ∧
    ((t.mode = .svc ∧ t.pc.toNat ≤ 5) ∨ (t.mode = .irq ∧ t.pc = 6) ∨ (t.mode = .fiq ∧ t.pc = 7 ∧ t.maskF = true))

/-- Two states that differ in nothing but the private registers of FIQ, IRQ and SVC mode. -/
def SameForUser (s t : State) : Prop :=
  { t with fiq := s.fiq, irq := s.irq, svc := s.svc } = s

/-- Two answers that differ in nothing but the private registers of the privileged modes. -/
def SameAnswerForUser (a b : Result) : Prop :=
  match a, b with
  | .next s, .next t => SameForUser s t
  | .fault f, .fault g => f = g
  | .refused v, .refused w => v = w
  | _, _ => False

end Sys2Proof.Machine
end

