-- ==== Sys2Proof/Certificates/Slice0/Obligations.lean ====
section
/-! DEFINITION. The statements for the provers, one definition each; OBLIGATIONS.json lists them with the
rules of spec/ they formalise. The terms are those of Sys2Proof/Safety.lean. -/

open Sys2Proof Sys2Proof.Machine

/-- O1, tier 2 (R151). ADD, all three forms of operand 2, whenever its condition passes, no register it names
is hazardous, operand 2 is not refused and, unless it assigns the PC, the PC may go on (R28), answers a
next state: Rd := Rn + operand 2 modulo 2^32; with S = 1 N and Z from the result, C the carry out of bit
31, V the signed overflow. With Rd = R15 the PC takes bits 25:2 of the result, and with S = 1 also the PSR
takes its bits (I, F and M only outside user mode). Every other register, every byte of memory and the
rest of the state are unchanged and the PC advances by one word. The opcode bits of the encoding are
0x00800000 under mask 0x0DE00000. -/
def Obligations.AddWritesTheSum : Prop :=
  DpFamily .add .addImm .addShiftImm .addShiftReg 0x00800000 DpWritten (fun a b _ => a + b)
    (fun a b _ _ => addFlags a b false)

/-- O2, tier 2 (R150). ADC, all three forms of operand 2, whenever its condition passes, no register it names
is hazardous, operand 2 is not refused and, unless it assigns the PC, the PC may go on (R28), answers a
next state: Rd := Rn + operand 2 + the C flag before, modulo 2^32; with S = 1 N and Z from the result, C
the carry out of bit 31, V the signed overflow of the three-term sum. With Rd = R15 the PC takes bits 25:2
of the result, and with S = 1 also the PSR takes its bits (I, F and M only outside user mode). Every other
register, every byte of memory and the rest of the state are unchanged and the PC advances by one word.
The opcode bits of the encoding are 0x00A00000 under mask 0x0DE00000. -/
def Obligations.AdcWritesTheSumWithCarry : Prop :=
  DpFamily .adc .adcImm .adcShiftImm .adcShiftReg 0x00A00000 DpWritten
    (fun a b c => a + b + BitVec.ofNat 32 c.toNat) (fun a b s _ => addFlags a b s.flagC)

/-- O3, tier 2 (R163). SUB, all three forms of operand 2, whenever its condition passes, no register it names
is hazardous, operand 2 is not refused and, unless it assigns the PC, the PC may go on (R28), answers a
next state: Rd := Rn - operand 2 modulo 2^32; with S = 1 N and Z from the result, C = 1 exactly when Rn is
at least operand 2 as unsigned numbers, V the signed overflow. With Rd = R15 the PC takes bits 25:2 of the
result, and with S = 1 also the PSR takes its bits (I, F and M only outside user mode). Every other
register, every byte of memory and the rest of the state are unchanged and the PC advances by one word.
The opcode bits of the encoding are 0x00400000 under mask 0x0DE00000. -/
def Obligations.SubWritesTheDifference : Prop :=
  DpFamily .sub .subImm .subShiftImm .subShiftReg 0x00400000 DpWritten (fun a b _ => a - b)
    (fun a b _ _ => subFlags a b false)

/-- O4, tier 2 (R162). SBC, all three forms of operand 2, whenever its condition passes, no register it names
is hazardous, operand 2 is not refused and, unless it assigns the PC, the PC may go on (R28), answers a
next state: Rd := Rn - operand 2 - 1 + the C flag before, modulo 2^32; with S = 1 N and Z from the result,
C the absence of a borrow, V the signed overflow. With Rd = R15 the PC takes bits 25:2 of the result, and
with S = 1 also the PSR takes its bits (I, F and M only outside user mode). Every other register, every
byte of memory and the rest of the state are unchanged and the PC advances by one word. The opcode bits of
the encoding are 0x00C00000 under mask 0x0DE00000. -/
def Obligations.SbcWritesTheDifferenceWithBorrow : Prop :=
  DpFamily .sbc .sbcImm .sbcShiftImm .sbcShiftReg 0x00C00000 DpWritten
    (fun a b c => a - b - BitVec.ofNat 32 (!c).toNat) (fun a b s _ => subFlags a b (!s.flagC))

/-- O5, tier 2 (R160). RSB, all three forms of operand 2, whenever its condition passes, no register it names
is hazardous, operand 2 is not refused and, unless it assigns the PC, the PC may go on (R28), answers a
next state: Rd := operand 2 - Rn modulo 2^32; with S = 1 N and Z from the result, C = 1 exactly when
operand 2 is at least Rn as unsigned numbers, V the signed overflow. With Rd = R15 the PC takes bits 25:2
of the result, and with S = 1 also the PSR takes its bits (I, F and M only outside user mode). Every other
register, every byte of memory and the rest of the state are unchanged and the PC advances by one word.
The opcode bits of the encoding are 0x00600000 under mask 0x0DE00000. -/
def Obligations.RsbWritesTheReverseDifference : Prop :=
  DpFamily .rsb .rsbImm .rsbShiftImm .rsbShiftReg 0x00600000 DpWritten (fun a b _ => b - a)
    (fun a b _ _ => subFlags b a false)

/-- O6, tier 2 (R161). RSC, all three forms of operand 2, whenever its condition passes, no register it names
is hazardous, operand 2 is not refused and, unless it assigns the PC, the PC may go on (R28), answers a
next state: Rd := operand 2 - Rn - 1 + the C flag before, modulo 2^32; with S = 1 N and Z from the result,
C the absence of a borrow, V the signed overflow. With Rd = R15 the PC takes bits 25:2 of the result, and
with S = 1 also the PSR takes its bits (I, F and M only outside user mode). Every other register, every
byte of memory and the rest of the state are unchanged and the PC advances by one word. The opcode bits of
the encoding are 0x00E00000 under mask 0x0DE00000. -/
def Obligations.RscWritesTheReverseDifferenceWithBorrow : Prop :=
  DpFamily .rsc .rscImm .rscShiftImm .rscShiftReg 0x00E00000 DpWritten
    (fun a b c => b - a - BitVec.ofNat 32 (!c).toNat) (fun a b s _ => subFlags b a (!s.flagC))

/-- O7, tier 2 (R152). AND, all three forms of operand 2, whenever its condition passes, no register it names
is hazardous, operand 2 is not refused and, unless it assigns the PC, the PC may go on (R28), answers a
next state: Rd := Rn AND operand 2; with S = 1 N and Z from the result, C from the shifter, V unchanged.
With Rd = R15 the PC takes bits 25:2 of the result, and with S = 1 also the PSR takes its bits (I, F and M
only outside user mode). Every other register, every byte of memory and the rest of the state are
unchanged and the PC advances by one word. The opcode bits of the encoding are 0x00000000 under mask
0x0DE00000. -/
def Obligations.AndWritesTheConjunction : Prop :=
  DpFamily .and .andImm .andShiftImm .andShiftReg 0x00000000 DpWritten (fun a b _ => a &&& b)
    (fun a b s c => logicalFlags (a &&& b) s c)

/-- O8, tier 2 (R156). EOR, all three forms of operand 2, whenever its condition passes, no register it names
is hazardous, operand 2 is not refused and, unless it assigns the PC, the PC may go on (R28), answers a
next state: Rd := Rn EOR operand 2; with S = 1 N and Z from the result, C from the shifter, V unchanged.
With Rd = R15 the PC takes bits 25:2 of the result, and with S = 1 also the PSR takes its bits (I, F and M
only outside user mode). Every other register, every byte of memory and the rest of the state are
unchanged and the PC advances by one word. The opcode bits of the encoding are 0x00200000 under mask
0x0DE00000. -/
def Obligations.EorWritesTheExclusiveOr : Prop :=
  DpFamily .eor .eorImm .eorShiftImm .eorShiftReg 0x00200000 DpWritten (fun a b _ => a ^^^ b)
    (fun a b s c => logicalFlags (a ^^^ b) s c)

/-- O9, tier 2 (R159). ORR, all three forms of operand 2, whenever its condition passes, no register it names
is hazardous, operand 2 is not refused and, unless it assigns the PC, the PC may go on (R28), answers a
next state: Rd := Rn OR operand 2; with S = 1 N and Z from the result, C from the shifter, V unchanged.
With Rd = R15 the PC takes bits 25:2 of the result, and with S = 1 also the PSR takes its bits (I, F and M
only outside user mode). Every other register, every byte of memory and the rest of the state are
unchanged and the PC advances by one word. The opcode bits of the encoding are 0x01800000 under mask
0x0DE00000. -/
def Obligations.OrrWritesTheDisjunction : Prop :=
  DpFamily .orr .orrImm .orrShiftImm .orrShiftReg 0x01800000 DpWritten (fun a b _ => a ||| b)
    (fun a b s c => logicalFlags (a ||| b) s c)

/-- O10, tier 2 (R153). BIC, all three forms of operand 2, whenever its condition passes, no register it names
is hazardous, operand 2 is not refused and, unless it assigns the PC, the PC may go on (R28), answers a
next state: Rd := Rn AND NOT operand 2; with S = 1 N and Z from the result, C from the shifter, V
unchanged. With Rd = R15 the PC takes bits 25:2 of the result, and with S = 1 also the PSR takes its bits
(I, F and M only outside user mode). Every other register, every byte of memory and the rest of the state
are unchanged and the PC advances by one word. The opcode bits of the encoding are 0x01C00000 under mask
0x0DE00000. -/
def Obligations.BicClearsTheBitsOfOperandTwo : Prop :=
  DpFamily .bic .bicImm .bicShiftImm .bicShiftReg 0x01C00000 DpWritten (fun a b _ => a &&& ~~~b)
    (fun a b s c => logicalFlags (a &&& ~~~b) s c)

/-- O11, tier 2 (R157). MOV, all three forms of operand 2, whenever its condition passes, no register it names
is hazardous, operand 2 is not refused and, unless it assigns the PC, the PC may go on (R28), answers a
next state: Rd := operand 2; with S = 1 N and Z from the result, C from the shifter, V unchanged; the Rn
field is not used. With Rd = R15 the PC takes bits 25:2 of the result, and with S = 1 also the PSR takes
its bits (I, F and M only outside user mode). Every other register, every byte of memory and the rest of
the state are unchanged and the PC advances by one word. The opcode bits of the encoding are 0x01A00000
under mask 0x0DE00000. -/
def Obligations.MovWritesOperandTwo : Prop :=
  DpFamily .mov .movImm .movShiftImm .movShiftReg 0x01A00000 DpWritten (fun _ b _ => b)
    (fun _ b s c => logicalFlags b s c)

/-- O12, tier 2 (R158). MVN, all three forms of operand 2, whenever its condition passes, no register it names
is hazardous, operand 2 is not refused and, unless it assigns the PC, the PC may go on (R28), answers a
next state: Rd := NOT operand 2; with S = 1 N and Z from the result, C from the shifter, V unchanged; the
Rn field is not used. With Rd = R15 the PC takes bits 25:2 of the result, and with S = 1 also the PSR
takes its bits (I, F and M only outside user mode). Every other register, every byte of memory and the
rest of the state are unchanged and the PC advances by one word. The opcode bits of the encoding are
0x01E00000 under mask 0x0DE00000. -/
def Obligations.MvnWritesTheInverseOfOperandTwo : Prop :=
  DpFamily .mvn .mvnImm .mvnShiftImm .mvnShiftReg 0x01E00000 DpWritten (fun _ b _ => ~~~b)
    (fun _ b s c => logicalFlags (~~~b) s c)

/-- O13, tier 2 (R165, R142, R146, R266, R123). TST, all three forms of operand 2, whenever its condition
passes, no register it names is hazardous, operand 2 is not refused and, unless it assigns the PC, the PC
may go on (R28), answers a next state: no register is written; with S = 1 N and Z from Rn AND operand 2, C
from the shifter, V unchanged. With Rd = R15 and S = 1 the PSR takes the bits of the result instead (I, F
and M only outside user mode); with S = 0 nothing but the PC changes (R146, log 26). Every other register,
every byte of memory and the rest of the state are unchanged and the PC advances by one word. The opcode
bits of the encoding are 0x01000000 under mask 0x0DE00000. Clauses that are choices and no rule of the
spec's sources: S = 0 as a no-operation is one of the two treatments R146 records (D13, log 26); the write
of the PSR with Rd = R15 is what the spec gives from general knowledge (R142); that the change of mode is
remembered is the model's reading of R266 (log 23). -/
def Obligations.TstSetsTheFlagsOfTheConjunction : Prop :=
  DpFamily .tst .tstImm .tstShiftImm .tstShiftReg 0x01000000 DpTested (fun a b _ => a &&& b)
    (fun a b s c => logicalFlags (a &&& b) s c)

/-- O14, tier 2 (R164, R142, R146, R266, R123). TEQ, all three forms of operand 2, whenever its condition
passes, no register it names is hazardous, operand 2 is not refused and, unless it assigns the PC, the PC
may go on (R28), answers a next state: no register is written; with S = 1 N and Z from Rn EOR operand 2, C
from the shifter, V unchanged. With Rd = R15 and S = 1 the PSR takes the bits of the result instead (I, F
and M only outside user mode); with S = 0 nothing but the PC changes (R146, log 26). Every other register,
every byte of memory and the rest of the state are unchanged and the PC advances by one word. The opcode
bits of the encoding are 0x01200000 under mask 0x0DE00000. Clauses that are choices and no rule of the
spec's sources: S = 0 as a no-operation is one of the two treatments R146 records (D13, log 26); the write
of the PSR with Rd = R15 is what the spec gives from general knowledge (R142); that the change of mode is
remembered is the model's reading of R266 (log 23). -/
def Obligations.TeqSetsTheFlagsOfTheExclusiveOr : Prop :=
  DpFamily .teq .teqImm .teqShiftImm .teqShiftReg 0x01200000 DpTested (fun a b _ => a ^^^ b)
    (fun a b s c => logicalFlags (a ^^^ b) s c)

/-- O15, tier 2 (R155, R142, R146, R266, R124, D26). CMP, all three forms of operand 2, whenever its condition
passes, no register it names is hazardous, operand 2 is not refused and, unless it assigns the PC, the PC
may go on (R28), answers a next state: no register is written; with S = 1 N and Z from Rn - operand 2, C =
1 exactly when Rn is at least operand 2 as unsigned numbers, V the signed overflow. With Rd = R15 and S =
1 the PSR takes the bits of the result instead (I, F and M only outside user mode); with S = 0 nothing but
the PC changes (R146, log 26). Every other register, every byte of memory and the rest of the state are
unchanged and the PC advances by one word. The opcode bits of the encoding are 0x01400000 under mask
0x0DE00000. Clauses that are choices and no rule of the spec's sources: S = 0 as a no-operation is one of
the two treatments R146 records (D13, log 26); the write of the PSR with Rd = R15 is what the spec gives
from general knowledge (R142); that the change of mode is remembered is the model's reading of R266 (log
23); C and V are those of decision D26 (log 30). -/
def Obligations.CmpSetsTheFlagsOfTheDifference : Prop :=
  DpFamily .cmp .cmpImm .cmpShiftImm .cmpShiftReg 0x01400000 DpTested (fun a b _ => a - b)
    (fun a b _ _ => subFlags a b false)

/-- O16, tier 2 (R154, R142, R146, R266, R124, D26). CMN, all three forms of operand 2, whenever its condition
passes, no register it names is hazardous, operand 2 is not refused and, unless it assigns the PC, the PC
may go on (R28), answers a next state: no register is written; with S = 1 N and Z from Rn + operand 2, C
the carry out of bit 31, V the signed overflow. With Rd = R15 and S = 1 the PSR takes the bits of the
result instead (I, F and M only outside user mode); with S = 0 nothing but the PC changes (R146, log 26).
Every other register, every byte of memory and the rest of the state are unchanged and the PC advances by
one word. The opcode bits of the encoding are 0x01600000 under mask 0x0DE00000. Clauses that are choices
and no rule of the spec's sources: S = 0 as a no-operation is one of the two treatments R146 records (D13,
log 26); the write of the PSR with Rd = R15 is what the spec gives from general knowledge (R142); that the
change of mode is remembered is the model's reading of R266 (log 23); C and V are those of decision D26
(log 30). -/
def Obligations.CmnSetsTheFlagsOfTheSum : Prop :=
  DpFamily .cmn .cmnImm .cmnShiftImm .cmnShiftReg 0x01600000 DpTested (fun a b _ => a + b)
    (fun a b _ _ => addFlags a b false)

/-- O17, tier 2 (R130, R131). For every register, shift type and 5-bit amount, operand 2 exists and is the
register value v shifted: LSL multiplies by 2^a modulo 2^32, LSR divides the unsigned number rounding down
(amount 0 means 32), ASR divides the signed number rounding toward minus infinity (amount 0 means 32), ROR
moves bit i + a modulo 32 to bit i (amount 0 is RRX, C entering at bit 31); the carry output is bit 32 - a
for a left shift, bit a - 1 for a right shift, the old C for LSL #0, bit 0 for RRX. The spec marks rules
R130 and R131 as general knowledge of the family. -/
def Obligations.ShiftByConstant : Prop :=
  ∀ (o : ShiftImmOperand) (s : State), ∃ r, operand2 (.shiftImm o) s = .ok r ∧
    match o.ty with
    | .lsl => r.value.toNat = (readRm 8 o.rm s).toNat * 2 ^ o.amount.toNat % 2 ^ 32 ∧
        r.carry = if o.amount = 0 then s.flagC else (readRm 8 o.rm s).getLsbD (32 - o.amount.toNat)
    | .lsr => r.value.toNat = (readRm 8 o.rm s).toNat / 2 ^ (if o.amount = 0 then 32 else o.amount.toNat) ∧
        r.carry = (readRm 8 o.rm s).getLsbD ((if o.amount = 0 then 32 else o.amount.toNat) - 1)
    | .asr => r.value.toInt = (readRm 8 o.rm s).toInt / 2 ^ (if o.amount = 0 then 32 else o.amount.toNat) ∧
        r.carry = (readRm 8 o.rm s).getLsbD ((if o.amount = 0 then 32 else o.amount.toNat) - 1)
    | .ror =>
        if o.amount = 0 then
          r.value.getLsbD 31 = s.flagC ∧ (∀ i < 31, r.value.getLsbD i = (readRm 8 o.rm s).getLsbD (i + 1)) ∧
            r.carry = (readRm 8 o.rm s).getLsbD 0
        else
          (∀ i < 32, r.value.getLsbD i = (readRm 8 o.rm s).getLsbD ((i + o.amount.toNat) % 32)) ∧
            r.carry = (readRm 8 o.rm s).getLsbD (o.amount.toNat - 1)

/-- O18, tier 2 (R132, D14). The amount a is the low byte of Rs (not R15). Amount 0 leaves the value and C.
Else LSL multiplies by 2^a modulo 2^32 with carry bit 32 - a (0 for a above 32), LSR divides the unsigned
number by 2^a with carry bit a - 1 (0 for a above 32), ASR divides the signed number by 2^a rounding
toward minus infinity with carry bit min(a, 32) - 1, ROR moves bit i + a modulo 32 to bit i with carry bit
(a - 1) modulo 32. For amounts of 32 and more this is the value `family` of the parameter shift_ge32 (log
17), which the statement asks for there. -/
def Obligations.ShiftByRegister : Prop :=
  ∀ (o : ShiftRegOperand) (j : Fin 15) (s : State), o.rs = .gpr j →
    ((readX j s).toNat % 256 < 32 ∨ s.platform.shiftGe32 = .family) → ∃ r, operand2 (.shiftReg o) s = .ok r ∧
    if (readX j s).toNat % 256 = 0 then r.value = readRm 12 o.rm s ∧ r.carry = s.flagC
    else match o.ty with
    | .lsl => r.value.toNat = (readRm 12 o.rm s).toNat * 2 ^ ((readX j s).toNat % 256) % 2 ^ 32 ∧
        r.carry = if (readX j s).toNat % 256 ≤ 32 then
          (readRm 12 o.rm s).getLsbD (32 - (readX j s).toNat % 256) else false
    | .lsr => r.value.toNat = (readRm 12 o.rm s).toNat / 2 ^ ((readX j s).toNat % 256) ∧
        r.carry = (readRm 12 o.rm s).getLsbD ((readX j s).toNat % 256 - 1)
    | .asr => r.value.toInt = (readRm 12 o.rm s).toInt / 2 ^ ((readX j s).toNat % 256) ∧
        r.carry = (readRm 12 o.rm s).getLsbD (min ((readX j s).toNat % 256) 32 - 1)
    | .ror =>
        (∀ i < 32, r.value.getLsbD i = (readRm 12 o.rm s).getLsbD ((i + (readX j s).toNat % 256) % 32)) ∧
        r.carry = (readRm 12 o.rm s).getLsbD (((readX j s).toNat % 256 - 1) % 32)

/-- O19, tier 2 (R134). For every immediate operand, operand 2 exists; bit i of it is bit (i + 2 * rotate)
modulo 32 of the zero-extended 8-bit value; its carry output is the old C when the rotate field is 0 and
bit 31 of the value otherwise. The carry output is the spec's own decision D29 (log 28). -/
def Obligations.RotatedImmediateOperand : Prop :=
  ∀ (o : ImmOperand) (s : State), ∃ r, operand2 (.imm o) s = .ok r ∧
    (∀ i < 32, r.value.getLsbD i = (o.imm8.zeroExtend 32).getLsbD ((i + 2 * o.rotate.toNat) % 32)) ∧
    r.carry = if o.rotate = 0 then s.flagC else r.value.getLsbD 31

/-- O20, tier 1 (R122). A source register other than R15 reads x[i]. R15 as Rn reads the PC plus k modulo 2^26
with the PSR bits zero, R15 as Rm reads the PC plus k with the PSR in its places; k is 8 for an immediate
or a constant shift and 12 for a register shift. An instruction whose shift amount is in R15 is refused
once its condition has passed and it names no hazardous register. The values of R15 are what the spec
gives from general knowledge (R122, log 35). -/
def Obligations.R15AsSourceOperand : Prop :=
  (∀ (k : Addr) (i : Fin 15) (s : State), readRn k (.gpr i) s = readX i s ∧ readRm k (.gpr i) s = readX i s) ∧
  (∀ s : State, (readRn 8 .r15 s).toNat = (4 * s.pc.toNat + 8) % 2 ^ 26 ∧
    (readRn 12 .r15 s).toNat = (4 * s.pc.toNat + 12) % 2 ^ 26 ∧
    IsR15Word (s.pc + 2) s (readRm 8 .r15 s) ∧ IsR15Word (s.pc + 3) s (readRm 12 .r15 s)) ∧
  (∀ (h : DpHead) (s : State), (∀ o, operand1 h (.imm o) s = readRn 8 h.rn s) ∧
    (∀ o, operand1 h (.shiftImm o) s = readRn 8 h.rn s) ∧
    (∀ o, operand1 h (.shiftReg o) s = readRn 12 h.rn s)) ∧
  (∀ (o : ShiftImmOperand) (s : State), operand2 (.shiftImm o) s
    = .ok (shiftByConstant o.ty o.amount (readRm 8 o.rm s) s.flagC)) ∧
  (∀ (j : Fin 15) (ty : ShiftType) (rm : Reg) (s : State),
    ((readX j s).toNat % 256 < 32 ∨ s.platform.shiftGe32 = .family) → operand2 (.shiftReg ⟨.gpr j, ty, rm⟩) s
    = .ok (shiftByAmount ty ((readX j s).toNat % 256) (readRm 12 rm s) s.flagC)) ∧
  (∀ (op : DpOp) (h : DpHead) (o : ShiftRegOperand) (s : State), o.rs = .r15 → condPassed h.cond s = true →
    hazardHit (dpRegisters op h (.shiftReg o)) s = false →
    exec (dpShiftRegInstr op h o) s = .refused .r15AsShiftAmount)

/-- O21, tier 2 (R81, R92). For every 32-bit word and every state: if the condition in bits 31:28 fails on the
flags, exec of the decoded instruction answers a next state in which the PC is one word further and every
register, the PSR, memory and the platform are as before, where the PC may go on (pc_wrap = wrap, or the
PC not at the last word of memory); else it is refused (R28, log 8). With condition 1111 it always fails.
That every class carries the condition is the spec's own decision D30 (log 29). -/
def Obligations.FailedConditionOnlyAdvances : Prop :=
  (∀ (w : Word) (s : State), condPassed (condOfBits (w.extractLsb' 28 4)) s = false →
    (s.platform.pcWrap = .wrap ∨ s.pc ≠ 0xFFFFFF →
      ∃ t, exec (decode w) s = .next t ∧ SameRegs s t ∧ SamePsr s t ∧ SameMemory s t ∧ SameRest s t ∧ Advances s t) ∧
    (s.platform.pcWrap = .refuse → s.pc = 0xFFFFFF → exec (decode w) s = .refused .pcRunsOverTop)) ∧
  (∀ (w : Word) (s : State), w.extractLsb' 28 4 = 15 → condPassed (condOfBits (w.extractLsb' 28 4)) s = false)

/-- O22, tier 1 (R30). For every state the condition of each 4-bit code 0 to 15 passes exactly when the flags
are as the condition table says (EQ, NE, CS, CC, MI, PL, VS, VC, HI, LS, GE, LT, GT, LE, AL, NV). -/
def Obligations.ConditionTable : Prop :=
  ∀ s : State,
    (condPassed (condOfBits 0) s = true ↔ s.flagZ = true) ∧ (condPassed (condOfBits 1) s = true ↔ s.flagZ = false) ∧
    (condPassed (condOfBits 2) s = true ↔ s.flagC = true) ∧ (condPassed (condOfBits 3) s = true ↔ s.flagC = false) ∧
    (condPassed (condOfBits 4) s = true ↔ s.flagN = true) ∧ (condPassed (condOfBits 5) s = true ↔ s.flagN = false) ∧
    (condPassed (condOfBits 6) s = true ↔ s.flagV = true) ∧ (condPassed (condOfBits 7) s = true ↔ s.flagV = false) ∧
    (condPassed (condOfBits 8) s = true ↔ s.flagC = true ∧ s.flagZ = false) ∧
    (condPassed (condOfBits 9) s = true ↔ s.flagC = false ∨ s.flagZ = true) ∧
    (condPassed (condOfBits 10) s = true ↔ s.flagN = s.flagV) ∧
    (condPassed (condOfBits 11) s = true ↔ s.flagN ≠ s.flagV) ∧
    (condPassed (condOfBits 12) s = true ↔ s.flagZ = false ∧ s.flagN = s.flagV) ∧
    (condPassed (condOfBits 13) s = true ↔ s.flagZ = true ∨ s.flagN ≠ s.flagV) ∧
    condPassed (condOfBits 14) s = true ∧ condPassed (condOfBits 15) s = false

/-- O23, tier 2 (R155, R30). When CMP with S = 1 and Rd not R15 runs (all three forms; the PC may go on), it
answers a next state on which EQ, NE, CS, CC, HI, LS, GE, LT, GT, LE pass exactly when operand 1 is equal,
unequal, unsigned at least, below, above, at most, signed at least, less, greater, at most operand 2. C
and V are those of rule R15, decision D26 (log 30). -/
def Obligations.ConditionsAfterCmpReadAsNamed : Prop :=
  let claim := fun (i : Instr) (h : DpHead) (o : Operand2) =>
    ∀ (s : State) (b : Shifted) (d : Fin 15), DpRuns .cmp h o b s → h.s = true → h.rd = .gpr d →
      ∃ t, exec i s = .next t ∧
        (condPassed .eq t = true ↔ operand1 h o s = b.value) ∧ (condPassed .ne t = true ↔ operand1 h o s ≠ b.value) ∧
        (condPassed .cs t = true ↔ b.value.toNat ≤ (operand1 h o s).toNat) ∧
        (condPassed .cc t = true ↔ (operand1 h o s).toNat < b.value.toNat) ∧
        (condPassed .hi t = true ↔ b.value.toNat < (operand1 h o s).toNat) ∧
        (condPassed .ls t = true ↔ (operand1 h o s).toNat ≤ b.value.toNat) ∧
        (condPassed .ge t = true ↔ b.value.toInt ≤ (operand1 h o s).toInt) ∧
        (condPassed .lt t = true ↔ (operand1 h o s).toInt < b.value.toInt) ∧
        (condPassed .gt t = true ↔ b.value.toInt < (operand1 h o s).toInt) ∧
        (condPassed .le t = true ↔ (operand1 h o s).toInt ≤ b.value.toInt)
  (∀ h o, claim (.cmpImm h o) h (.imm o)) ∧ (∀ h o, claim (.cmpShiftImm h o) h (.shiftImm o)) ∧
    (∀ h o, claim (.cmpShiftReg h o) h (.shiftReg o))

/-- O24, tier 1 (R168). From every state whose PC may go on twice (pc_wrap = wrap, or two words left below the
top), SUBS R4,R2,R0 (0xE0524000) and then SBC R5,R3,R1 (0xE0C35001) both answer next states, and in the
last (R5,R4) is (R3,R2) - (R1,R0) of the first, as 64-bit numbers; likewise ADDS R4,R2,R0 (0xE0924000) and
then ADC R5,R3,R1 (0xE0A35001) add. The words' fields are those the spec gives from general knowledge (log
36). -/
def Obligations.SixtyFourBitArithmetic : Prop :=
  ∀ s : State, s.platform.pcWrap = .wrap ∨ s.pc.toNat + 2 < 2 ^ 24 →
    (∃ t u, exec (decode 0xE0524000) s = .next t ∧ exec (decode 0xE0C35001) t = .next u ∧
      (readX 5 u ++ readX 4 u : BitVec 64) =
        (readX 3 s ++ readX 2 s : BitVec 64) - (readX 1 s ++ readX 0 s : BitVec 64)) ∧
    (∃ t u, exec (decode 0xE0924000) s = .next t ∧ exec (decode 0xE0A35001) t = .next u ∧
      (readX 5 u ++ readX 4 u : BitVec 64) =
        (readX 3 s ++ readX 2 s : BitVec 64) + (readX 1 s ++ readX 0 s : BitVec 64))

/-- O25, tier 2 (R142, R143, R266). TEQ with Rn = R15, Rd = R15, S = 1 and an immediate operand, when its
condition passes and the PC may go on, answers a next state: N, Z, C, V are bits 31:28 of the immediate;
outside user mode I, F and M are its bits 27, 26 and 1:0; in user mode I, F and M keep their values; no
register and no memory changes, the PC advances by one word, and a change of mode is remembered for the
next instruction (log 23). -/
def Obligations.TeqpChangesModeMasksAndFlags : Prop :=
  ∀ (c : Cond) (o : ImmOperand) (s : State), condPassed c s = true → mayAdvance s = true →
    ∃ t, exec (.teqImm ⟨c, true, .r15, .r15⟩ o) s = .next t ∧ SameRegs s t ∧ SameMemory s t ∧ t.pc = s.pc + 1 ∧
      PsrWritten (rotatedImmediate o s.flagC).value s t ∧
      t.hazard = if t.mode = s.mode then none else some (.modeChange s.mode)

/-- O26, tier 2 (R22). A value written to Ri in one mode is what Rj reads in a second mode exactly when i = j
and either i is below 10, or the modes are the same, or i is below 13 and neither mode is FIQ; every other
register keeps its value. -/
def Obligations.BankingMap : Prop :=
  ∀ (s : State) (m : Mode) (i j : Fin 15) (v : Word),
    readX j { writeX i v s with mode := m } =
      if i = j ∧ (i.val < 10 ∨ s.mode = m ∨ (i.val < 13 ∧ s.mode ≠ .fiq ∧ m ≠ .fiq)) then v
      else readX j { s with mode := m }

/-- O27, tier 2 (R67). In every memory in canonical form, with each value of the parameter byte_order (little
is the only one), after a word is written at 4w the byte at 4w + k is bits 8k+7 : 8k of it and every other
byte is as before, and after four bytes are written at 4w to 4w + 3 the word at 4w has them as its bits
8k+7 : 8k; both leave the memory in canonical form. The byte order is the spec's own decision D1 (log 1). -/
def Obligations.MixedWidthAccessesAgree : Prop :=
  ∀ (m : Memory) (order : ByteOrder) (w : PcWord), m.wf = true →
    (∀ (v : Word), (m.writeWord order (4 * w.toNat) v).wf = true ∧
      (∀ k < 4, (m.writeWord order (4 * w.toNat) v).read (4 * w.toNat + k) = v.extractLsb' (8 * k) 8) ∧
      (∀ a, (a < 4 * w.toNat ∨ 4 * w.toNat + 4 ≤ a) → (m.writeWord order (4 * w.toNat) v).read a = m.read a)) ∧
    (∀ b : Fin 4 → Byte,
      let m' := (((m.write (4 * w.toNat) (b 0)).write (4 * w.toNat + 1) (b 1)).write (4 * w.toNat + 2) (b 2)).write
        (4 * w.toNat + 3) (b 3)
      m'.wf = true ∧ (∀ k : Fin 4, (m'.readWord order (4 * w.toNat)).extractLsb' (8 * k.val) 8 = b k))

/-- O28, tier 1 (R171, R176, R192). The offset of a single transfer is the zero-extended 12-bit number or the
shifted register (shifted by a register in the form only the parameter ldr_reg_shift_by_reg admits, log
45); indexed is the base plus or minus it; the transfer is at indexed when P = 1 and at the base when P =
0; the base is Rn, for R15 the PC plus 8. A block of k registers starts at base, base + 4, base - 4k + 4,
base - 4k and writes back base + 4k or base - 4k as P and U say. -/
def Obligations.TransferAddresses : Prop :=
  (∀ (v : BitVec 12) (s : State), offsetValue (.imm v) s = .ok (BitVec.ofNat 32 v.toNat)) ∧
  (∀ (a : BitVec 5) (ty : ShiftType) (j : Fin 15) (s : State),
    offsetValue (.reg ⟨a, ty, .gpr j⟩) s = .ok (shiftByConstant ty a (readX j s) s.flagC).value) ∧
  (∀ (ty : ShiftType) (i j : Fin 15) (s : State),
    ((readX i s).toNat % 256 < 32 ∨ s.platform.shiftGe32 = .family) →
    offsetValue (.regShift ⟨.gpr i, ty, .gpr j⟩) s
      = .ok (shiftByAmount ty ((readX i s).toNat % 256) (readX j s) s.flagC).value) ∧
  (∀ (h : SdtHead) (x : Word) (s : State),
    (h.u = true → indexedAddress h x s = readRn 8 h.rn s + x) ∧ (h.u = false → indexedAddress h x s = readRn 8 h.rn s - x) ∧
    (h.p = true → transferAddress h x s = indexedAddress h x s) ∧
    (h.p = false → transferAddress h x s = readRn 8 h.rn s)) ∧
  (∀ (h : BlockHead) (base : Word) (k : Nat),
    (h.p = false → h.u = true → blockStart h base k = base) ∧
    (h.p = true → h.u = true → blockStart h base k = base + 4) ∧
    (h.p = false → h.u = false → blockStart h base k = base - BitVec.ofNat 32 (4 * k) + 4) ∧
    (h.p = true → h.u = false → blockStart h base k = base - BitVec.ofNat 32 (4 * k)) ∧
    (h.u = true → blockFinal h base k = base + BitVec.ofNat 32 (4 * k)) ∧
    (h.u = false → blockFinal h base k = base - BitVec.ofNat 32 (4 * k)))

/-- O29, tier 2 (R172, R171, R54). LDR, its two forms and that of the reserved row, when its condition passes,
it names no hazardous register, it is no refused form, its address is legal and its alignment allowed, the
access is granted and, unless R15 is loaded, the PC may go on, answers a next state: Rd holds the aligned
word at the address, rotated right by 8 times the address's bits 1:0 (0 for an aligned address; the
rotation of a misaligned one is the model's choice, log 2); for Rd = R15 the PC takes bits 25:2 of it and
the PSR stays; the base is written back for P = 0 or W = 1; every other register, the PSR and every byte
of memory are unchanged. The translate form P = 0, W = 1, which the spec's default refuses (D17), is
included where trans_bit = family (log 18), and the offset shifted by a register where
ldr_reg_shift_by_reg = allow (log 45). -/
def Obligations.LdrLoadsAWord : Prop :=
  (∀ h v, encode (.ldrImm h v) &&& 0x0C500000 = 0x04100000 ∧ SdtLoadCompletes (.ldrImm h v) .ldr h (.imm v)
    fun addr s => (wordAt addr s).rotateRight (8 * (addr.toNat % 4))) ∧
  (∀ h o, encode (.ldrReg h o) &&& 0x0C500000 = 0x04100000 ∧ SdtLoadCompletes (.ldrReg h o) .ldr h (.reg o)
    fun addr s => (wordAt addr s).rotateRight (8 * (addr.toNat % 4))) ∧
  (∀ h o, encode (regShiftInstr .ldr h o) &&& 0x0C500000 = 0x04100000 ∧
    SdtLoadCompletes (regShiftInstr .ldr h o) .ldr h (.regShift o)
    fun addr s => (wordAt addr s).rotateRight (8 * (addr.toNat % 4)))

/-- O30, tier 2 (R173, R171). LDRB, its two forms and that of the reserved row, when its condition passes, it
names no hazardous register, it is no refused form, its address is legal and its alignment allowed, the
access is granted and, unless R15 is loaded, the PC may go on, answers a next state: Rd holds the byte at
the address in bits 7:0 and zeros above; the base is written back for P = 0 or W = 1 (also over a loaded
Rd = Rn, which the order of the rule's pseudocode gives, log 16; nothing is claimed of Rd there but the
write-back); every other register, the PSR and every byte of memory are unchanged. The translate form P =
0, W = 1, which the spec's default refuses (D17), is included where trans_bit = family (log 18), and the
offset shifted by a register where ldr_reg_shift_by_reg = allow (log 45). -/
def Obligations.LdrbLoadsAByte : Prop :=
  (∀ h v, encode (.ldrbImm h v) &&& 0x0C500000 = 0x04500000 ∧ SdtLoadCompletes (.ldrbImm h v) .ldrb h (.imm v)
    fun addr s => BitVec.ofNat 32 (s.mem.read addr.toNat).toNat) ∧
  (∀ h o, encode (.ldrbReg h o) &&& 0x0C500000 = 0x04500000 ∧ SdtLoadCompletes (.ldrbReg h o) .ldrb h (.reg o)
    fun addr s => BitVec.ofNat 32 (s.mem.read addr.toNat).toNat) ∧
  (∀ h o, encode (regShiftInstr .ldrb h o) &&& 0x0C500000 = 0x04500000 ∧
    SdtLoadCompletes (regShiftInstr .ldrb h o) .ldrb h (.regShift o)
    fun addr s => BitVec.ofNat 32 (s.mem.read addr.toNat).toNat)

/-- O31, tier 2 (R174, R54, R66). STR, its two forms and that of the reserved row, in a state whose memory is
in canonical form, when its condition passes, it names no hazardous register, it is no refused form, its
address is legal and its alignment allowed, the access is granted and the PC may go on, answers a next
state: the word at the address with bits 1:0 cleared (the model's choice for a misaligned one, log 2) is
Rd as it was before, for R15 the PC plus 12 with the PSR; every byte outside those four, every register
but the written-back base, and the PSR are unchanged. A store into a prefetched word is not granted (R66).
The translate form P = 0, W = 1, which the spec's default refuses (D17), is included where trans_bit =
family (log 18), and the offset shifted by a register where ldr_reg_shift_by_reg = allow (log 45). -/
def Obligations.StrStoresAWord : Prop :=
  let claim := fun (i : Instr) (h : SdtHead) (o : Offset) => encode i &&& 0x0C500000 = 0x04000000 ∧
    ∀ (s : State) (offset : Word), s.mem.wf = true → SdtAttempts .str h o offset s → SdtGranted .str h offset s →
      ∃ t, exec i s = .next t ∧
        SdtStored h offset (accessBytes (busAddress (transferAddress h offset s) .word).toNat .word) s t ∧
        (∀ d, h.rd = .gpr d → wordAt (transferAddress h offset s) t = readX d s) ∧
        (h.rd = .r15 → IsR15Word (s.pc + 3) s (wordAt (transferAddress h offset s) t))
  (∀ h v, claim (.strImm h v) h (.imm v)) ∧ (∀ h o, claim (.strReg h o) h (.reg o)) ∧
    (∀ h o, claim (regShiftInstr .str h o) h (.regShift o))

/-- O32, tier 2 (R175, R66). STRB, its two forms and that of the reserved row, in a state whose memory is in
canonical form, when its condition passes, it names no hazardous register, it is no refused form, its
address is legal and its alignment allowed, the access is granted and the PC may go on, answers a next
state: the byte at the address is bits 7:0 of Rd as it was before; every other byte of memory, every
register but the written-back base, and the PSR are unchanged. A store into a prefetched word is not
granted (R66). The translate form P = 0, W = 1, which the spec's default refuses (D17), is included where
trans_bit = family (log 18), and the offset shifted by a register where ldr_reg_shift_by_reg = allow (log
45). -/
def Obligations.StrbStoresAByte : Prop :=
  let claim := fun (i : Instr) (h : SdtHead) (o : Offset) => encode i &&& 0x0C500000 = 0x04400000 ∧
    ∀ (s : State) (offset : Word), s.mem.wf = true → SdtAttempts .strb h o offset s → SdtGranted .strb h offset s →
      ∃ t, exec i s = .next t ∧
        SdtStored h offset [(transferAddress h offset s).toNat] s t ∧
        (∀ d, h.rd = .gpr d → t.mem.read (transferAddress h offset s).toNat = (readX d s).extractLsb' 0 8)
  (∀ h v, claim (.strbImm h v) h (.imm v)) ∧ (∀ h o, claim (.strbReg h o) h (.reg o)) ∧
    (∀ h o, claim (regShiftInstr .strb h o) h (.regShift o))

/-- O33, tier 2 (R57, R178, R235, R237, D20). All eight instructions and the form of the reserved row, when
attempted: at an address of 0x4000000 or more the address exception is entered (SVC mode, vector 0x14, I
set, R14_SVC the PSR with the address plus 8); at a legal address of allowed alignment whose access is
aborted the data abort is entered (vector 0x10). In both cases no memory, no flag and no register but
R14_SVC and the base register changes; after the trap the base holds what abort_side_effects says: its old
value (kept), the written-back one where the form asks write-back and else its old value (writtenBack; log
47), or a free value (any, the default; log 21), also without write-back (log 39, DEDUCED) and where it is
the Rd of a failed load (log 43), of which nothing is said; where the base is R14_SVC the saved word
stands there (log 46). A misaligned word access reaches the abort test only where misaligned_word = rotate
(log 2, PRESUMED), with the address of the aligned word (log 42). A translated transfer passes trans = 1
(log 18). -/
def Obligations.SingleTransferTraps : Prop :=
  EverySdt (fun i op h o => ∀ (s : State) (offset : Word), SdtAttempts op h o offset s →
    (0x4000000 ≤ (transferAddress h offset s).toNat →
      ∃ t, exec i s = .next t ∧ Entered .svc 5 2 false (baseReg h.rn s) s t ∧ SameMemory s t ∧
        ∀ n, h.rn = .gpr n →
          BaseAfterFailure n (if writesBase h then indexedAddress h offset s else readX n s) s t) ∧
    ((transferAddress h offset s).toNat < 0x4000000 →
      misalignedRefused (transferAddress h offset s) (sdtSize op) s = false → sdtAnswer op h offset s = .dataAbort →
      ∃ t, exec i s = .next t ∧ Entered .svc 4 2 false (baseReg h.rn s) s t ∧ SameMemory s t ∧
        ∀ n, h.rn = .gpr n →
          BaseAfterFailure n (if writesBase h then indexedAddress h offset s else readX n s) s t))

/-- O34, tier 2 (R172, R173, R175, R176, R197, R201, D15). When the condition passes and no named register is
hazardous: a single transfer with R15 as offset register or as the register that holds its shift amount,
or writing back to R15, a byte transfer of R15, and LDR of its own written-back base are refused, each
under one of the names of these forms (or, where a parameter refuses the form too, under that
parameter's); a block transfer with base R15 is refused, and one of the user bank with W = 1 (an LDM with
S = 1 without R15, an STM with S = 1) where no parameter refuses it before. Each refusal is the spec's own
(log 16, log 19). -/
def Obligations.RefusedTransferForms : Prop :=
  EverySdt (fun i op h o => ∀ s : State, condPassed h.cond s = true → hazardHit (sdtRegisters h o) s = false →
    ((∃ a ty, o = .reg ⟨a, ty, .r15⟩) ∨ (∃ rs ty, o = .regShift ⟨rs, ty, .r15⟩) ∨ (∃ ty rm, o = .regShift ⟨.r15, ty, rm⟩) ∨
      (h.rn = .r15 ∧ (h.p = false ∨ h.w = true)) ∨
      ((op = .ldrb ∨ op = .strb) ∧ h.rd = .r15) ∨ (op = .ldr ∧ h.rd = h.rn ∧ (h.p = false ∨ h.w = true))) →
    ∃ why, exec i s = .refused why ∧
      (why ∈ [.r15AsOffset, .r15AsShiftAmount, .r15WriteBack, .r15ByteTransfer, .loadOfWrittenBackBase] ∨
        (why = .translatedTransfer ∧ s.platform.transBit = .refuse) ∨
        (why = .shiftByThirtyTwoOrMore ∧ s.platform.shiftGe32 = .refuse) ∨
        (why = .reservedOffset ∧ s.platform.ldrRegShiftByReg = .refuse))) ∧
  (∀ (h : BlockHead) (s : State), condPassed h.cond s = true → hazardHit (blockRegisters h) s = false →
    (h.rn = .r15 → exec (.ldm h) s = .refused .r15BlockBase ∧ exec (.stm h) s = .refused .r15BlockBase) ∧
    (h.rn ≠ .r15 → misalignedRefused (readRn 8 h.rn s) .word s = false → s.platform.ldmUserBank = .family →
      h.w = true → h.s = true →
      (h.list.getLsbD 15 = false → exec (.ldm h) s = .refused .userBankWriteBack) ∧
      exec (.stm h) s = .refused .userBankWriteBack))

/-- O35, tier 2 (R191, R192, R193, R195, R196, R197). LDM, when its condition passes, it names no hazardous
register, it is no refused form, every address of the block is legal, every access granted and, unless R15
is listed, the PC may go on, answers a next state: the listed register Ri, i below 15, holds the word at
start + 4j, j the number of listed registers below i (of the user bank for S = 1 without R15, where
ldm_user_bank = family, log 19); the base not listed holds final for W = 1; a listed R15 gives the PC its
bits 25:2 and with S = 1 the PSR its bits; else the PC advances and a user-bank load from a privileged
mode is remembered (log 23); every other register and all memory are unchanged. A base that is not a
multiple of 4 is accessed at aligned words where misaligned_word = rotate (log 3), and a listed base with
write-back executes (log 20). -/
def Obligations.LdmLoadsTheListedRegisters : Prop :=
  ∀ (h : BlockHead) (n : Fin 15) (s : State), BlockAttempts h n (loadUsesUserBank h) s → BlockLegal h (readX n s) →
    BlockGranted h (readX n s) .read s → (h.list.getLsbD 15 = false → mayAdvance s = true) →
    encode (.ldm h) &&& 0x0E100000 = 0x08100000 ∧ ∃ t, exec (.ldm h) s = .next t ∧ SameMemory s t ∧ SameRest s t ∧
      (∀ i : Fin 15, h.list.getLsbD i.val = true →
        readPhys (phys (bankMode (loadUsesUserBank h) s) i) t = wordAt (blockAddressOf h (readX n s) i.val) s) ∧
      (h.w = true → h.list.getLsbD n.val = false →
        readPhys (phys s.mode n) t = blockFinal h (readX n s) (listCount h.list)) ∧
      SameRegsExcept (listedPhys (bankMode (loadUsesUserBank h) s) h.list ++ blockWrittenBase h n s) s t ∧
      (if h.list.getLsbD 15 then
        GoesTo ((wordAt (blockAddressOf h (readX n s) 15) s).extractLsb' 2 24) t ∧
          (if h.s then PsrWritten (wordAt (blockAddressOf h (readX n s) 15) s) s t else SamePsr s t)
      else t.pc = s.pc + 1 ∧ SamePsr s t ∧
        t.hazard = if h.s = true ∧ s.mode ≠ .usr then some .userBankLoad else none)

/-- O36, tier 2 (R191, R192, R194, R195, R197, R198). STM, in a state whose memory is in canonical form, when
its condition passes, it names no hazardous register, it is no refused form, every address of the block is
legal, every access granted and the PC may go on, answers a next state: the word at start + 4j is the j-th
listed register (of the user bank for S = 1, where ldm_user_bank = family, log 19), the base as final when
it is written back and not the first, R15 as the PC plus 12 with the PSR; every byte outside the block,
every register but the written-back base, and the PSR are unchanged. A store into a prefetched word is not
granted (R66). A base that is not a multiple of 4 is accessed at aligned words where misaligned_word =
rotate (log 3), and a listed base with write-back executes (log 20). -/
def Obligations.StmStoresTheListedRegisters : Prop :=
  ∀ (h : BlockHead) (n : Fin 15) (s : State), s.mem.wf = true → BlockAttempts h n h.s s →
    BlockLegal h (readX n s) → BlockGranted h (readX n s) .write s → mayAdvance s = true →
    encode (.stm h) &&& 0x0E100000 = 0x08000000 ∧ ∃ t, exec (.stm h) s = .next t ∧ BlockStored h n 16 s t ∧
      SameMemoryExcept (blockBytes h (readX n s) 16) s t ∧ SamePsr s t ∧ SameRest s t ∧
      SameRegsExcept (blockWrittenBase h n s) s t ∧
      (h.w = true → readX n t = blockFinal h (readX n s) (listCount h.list)) ∧ Advances s t

/-- O37, tier 2 (R199, R235, D19, D20). LDM and STM, when attempted: if the first address is 0x4000000 or more
the address exception is entered (SVC mode, vector 0x14, R14_SVC the PSR with the address plus 8), no
memory changing, and for STM no register but R14_SVC and the base, for LDM none but R14_SVC, the base and
the listed registers; if the first address is legal and a later one is not, the transfer is refused by
name. After the trap the base holds what abort_side_effects says (kept, or written back where W = 1; log
47; nothing is said of the free value of the default, log 21). With loads = loaded the listed registers
other than the base keep their values, as R199 says; with loads = any, the default, nothing is said of
them, for they hold free values, as D20 says of an address-excepted LDM (log 40). The refusal of a block
over the top and the free values are the spec's own decisions (D19, D20, log 21, log 41). Where the base
or a listed register is R14_SVC the saved word stands there (log 46). Forms the spec's default refuses are
included where the parameters admit them: a misaligned base (log 3), the user bank (log 19); and a listed
base with write-back (log 20). -/
def Obligations.BlockAddressException : Prop :=
  ∀ (h : BlockHead) (n : Fin 15) (s : State),
    let start := blockStart h (readX n s) (listCount h.list)
    let written := if h.w then blockFinal h (readX n s) (listCount h.list) else readX n s
    (BlockAttempts h n (loadUsesUserBank h) s →
      (0x4000000 ≤ start.toNat → ∃ t, exec (.ldm h) s = .next t ∧ SameMemory s t ∧
        Entered .svc 5 2 false (listedPhys (bankMode (loadUsesUserBank h) s) h.list ++ [phys s.mode n]) s t ∧
        BaseAfterFailure n written s t ∧ LoadsAfterFailure h n 0 s t) ∧
      (start.toNat < 0x4000000 → ¬ BlockLegal h (readX n s) → exec (.ldm h) s = .refused .blockCrossesTop)) ∧
    (BlockAttempts h n h.s s →
      (0x4000000 ≤ start.toNat → ∃ t, exec (.stm h) s = .next t ∧ SameMemory s t ∧
        Entered .svc 5 2 false [phys s.mode n] s t ∧ BaseAfterFailure n written s t) ∧
      (start.toNat < 0x4000000 → ¬ BlockLegal h (readX n s) → exec (.stm h) s = .refused .blockCrossesTop))

/-- O38, tier 2 (R200, R237, D20). LDM and STM of a legal block, when attempted: if the access of the listed
register i is aborted and those of the listed registers below i are granted, the data abort is entered
(SVC mode, vector 0x10, R14_SVC the PSR with the address plus 8). LDM leaves memory unchanged, and no
register but R14_SVC, the listed ones and the base changes: with loads = loaded the listed ones below i
that the parameter names hold their words and the others keep their values, with loads = any, the default,
nothing is said of them, for they hold free values (log 21). STM leaves the words of the registers below i
stored and every other byte unchanged, and no register but R14_SVC and the base changes. After the trap
the base holds what abort_side_effects says (kept, or written back where W = 1; log 47; nothing is said of
the free value of the default, log 21), also where it is listed. Forms the spec's default refuses are
included where the parameters admit them: a misaligned base (log 3), the user bank (log 19); and a listed
base with write-back (log 20). The base takes a free value also without write-back (log 39, DEDUCED).
Where the base or a listed register is R14_SVC the saved word stands there (log 46). The accesses pass
trans = 0 (log 44). -/
def Obligations.BlockDataAbort : Prop :=
  ∀ (h : BlockHead) (n : Fin 15) (i : Nat) (s : State), BlockLegal h (readX n s) → i < 16 → h.list.getLsbD i = true →
    let written := if h.w then blockFinal h (readX n s) (listCount h.list) else readX n s
    (BlockAttempts h n (loadUsesUserBank h) s →
      checkBus (busAddress (blockAddressOf h (readX n s) i) .word) .word .read false s = .dataAbort →
      (∀ j < i, h.list.getLsbD j = true →
        checkBus (busAddress (blockAddressOf h (readX n s) j) .word) .word .read false s = .granted) →
      ∃ t, exec (.ldm h) s = .next t ∧ SameMemory s t ∧
        Entered .svc 4 2 false (listedPhys (bankMode (loadUsesUserBank h) s) h.list ++ [phys s.mode n]) s t ∧
        BaseAfterFailure n written s t ∧ LoadsAfterFailure h n i s t) ∧
    (s.mem.wf = true → BlockAttempts h n h.s s →
      checkBus (busAddress (blockAddressOf h (readX n s) i) .word) .word .write false s = .dataAbort →
      (∀ j < i, h.list.getLsbD j = true →
        checkBus (busAddress (blockAddressOf h (readX n s) j) .word) .word .write false s = .granted) →
      ∃ t, exec (.stm h) s = .next t ∧ BlockStored h n i s t ∧
        SameMemoryExcept (blockBytes h (readX n s) i) s t ∧ Entered .svc 4 2 false [phys s.mode n] s t ∧
        BaseAfterFailure n written s t)

/-- O39, tier 2 (R111). B, when its condition passes, answers a next state whose PC is the instruction's
address plus 8 plus 4 times the offset as a signed number, modulo 2^26; every register, the PSR and all
memory are unchanged. When the condition fails and the PC may go on, the PC only advances. Bits 27:24 of
its encoding are 1010. -/
def Obligations.BranchGoesToItsTarget : Prop :=
  ∀ (c : Cond) (offset : BitVec 24) (s : State), encode (.b c offset) &&& 0x0F000000 = 0x0A000000 ∧
    (condPassed c s = true → ∃ t, exec (.b c offset) s = .next t ∧
      SameRegs s t ∧ SamePsr s t ∧ SameMemory s t ∧ SameRest s t ∧ GoesTo t.pc t ∧
      ((4 * t.pc.toNat : Nat) : Int) = ((4 * s.pc.toNat : Nat) + 8 + 4 * offset.toInt) % 2 ^ 26) ∧
    (condPassed c s = false → mayAdvance s = true → ∃ t, exec (.b c offset) s = .next t ∧
      SameRegs s t ∧ SamePsr s t ∧ SameMemory s t ∧ SameRest s t ∧ Advances s t)

/-- O40, tier 2 (R112). BL, when its condition passes, answers a next state whose PC is the branch target
(address plus 8 plus 4 times the signed offset, modulo 2^26); R14 of the current mode holds N, Z, C, V, I,
F, M in their places and the word address of the following instruction in bits 25:2; every other register,
the PSR and all memory are unchanged. When the condition fails and the PC may go on, the PC only advances.
Bits 27:24 of its encoding are 1011. -/
def Obligations.BranchWithLinkSavesTheReturn : Prop :=
  ∀ (c : Cond) (offset : BitVec 24) (s : State), encode (.bl c offset) &&& 0x0F000000 = 0x0B000000 ∧
    (condPassed c s = true → ∃ t, exec (.bl c offset) s = .next t ∧
      IsR15Word (s.pc + 1) s (readX 14 t) ∧ SameRegsExcept [phys s.mode 14] s t ∧ SamePsr s t ∧ SameMemory s t ∧
      SameRest s t ∧ GoesTo t.pc t ∧
      ((4 * t.pc.toNat : Nat) : Int) = ((4 * s.pc.toNat : Nat) + 8 + 4 * offset.toInt) % 2 ^ 26) ∧
    (condPassed c s = false → mayAdvance s = true → ∃ t, exec (.bl c offset) s = .next t ∧
      SameRegs s t ∧ SamePsr s t ∧ SameMemory s t ∧ SameRest s t ∧ Advances s t)

/-- O41, tier 2 (R115, R140, R141). After BL, from every state t that has the R14 that BL left, is in the same
mode and has no hazard pending, MOV PC,R14 (0xE1A0F00E) answers a next state at the instruction following
the BL with the PSR of t, and MOVS PC,R14 (0xE1B0F00E) one at the same place with the flags of the BL, and
outside user mode its interrupt masks and mode; neither changes a register or memory. -/
def Obligations.SubroutineReturnsToItsCaller : Prop :=
  ∀ (c : Cond) (offset : BitVec 24) (s s' t : State), condPassed c s = true → exec (.bl c offset) s = .next s' →
    readX 14 t = readX 14 s' → t.mode = s'.mode → t.hazard = none →
    ∃ u v, exec (decode 0xE1A0F00E) t = .next u ∧ exec (decode 0xE1B0F00E) t = .next v ∧
      u.pc = s.pc + 1 ∧ SamePsr t u ∧ SameRegs t u ∧ SameMemory t u ∧
      v.pc = s.pc + 1 ∧ SameFlags s v ∧ SameRegs t v ∧ SameMemory t v ∧
      (if s.mode = .usr then SameControl t v else SameControl s v)

/-- O42, tier 1 (R222, R223, R224). From every state each exception is entered as the table says: undefined
instruction (SVC, 0x04, +4), software interrupt (SVC, 0x08, +4), prefetch abort (SVC, 0x0C, +4), data
abort (SVC, 0x10, +8), address exception (SVC, 0x14, +8), IRQ (IRQ mode, 0x18, +4), FIQ (FIQ mode, 0x1C,
+4, F set too). I is set, R14 of the mode entered holds the old PSR with the address plus 4 or 8, and no
flag, other register or byte of memory changes. The mechanism is what the spec gives from general
knowledge (D10, log 13). -/
def Obligations.ExceptionEntries : Prop :=
  ∀ s : State,
    Entered .svc 1 1 false [] s (takeException .undefinedInstruction s) ∧
    Entered .svc 2 1 false [] s (takeException .softwareInterrupt s) ∧
    Entered .svc 3 1 false [] s (takeException .prefetchAbort s) ∧
    Entered .svc 4 2 false [] s (takeException .dataAbort s) ∧
    Entered .svc 5 2 false [] s (takeException .addressException s) ∧
    Entered .irq 6 1 false [] s (takeException .irq s) ∧ Entered .fiq 7 1 true [] s (takeException .fiq s) ∧
    ∀ e, SameMemory s (takeException e s)

/-- O43, tier 1 (R210). SWI with any 24-bit number, when its condition passes, answers a next state: SVC mode,
I set, F, N, Z, C, V unchanged, PC 0x08, R14_SVC the caller's PSR with the address of the next
instruction; no other register and no memory changes. Bits 27:24 of its encoding are 1111. The entry is
what the spec gives from general knowledge (D10, log 13). -/
def Obligations.SwiEntersSupervisorMode : Prop :=
  ∀ (c : Cond) (number : BitVec 24) (s : State), condPassed c s = true →
    encode (.swi c number) &&& 0x0F000000 = 0x0F000000 ∧
      ∃ t, exec (.swi c number) s = .next t ∧ Entered .svc 2 1 false [] s t ∧ SameMemory s t

/-- O44, tier 1 (R212, R90, D11). Both undefined patterns (bits 27:25 = 110, bits 27:24 = 1110), when the
condition passes and the parameter undef_set holds the word, answer a next state: SVC mode, I set, F, N,
Z, C, V unchanged, PC 0x04, R14_SVC the PSR with the address of the next instruction; no other register
and no memory changes. A word that undef_set does not hold is refused by name (the form of the parameter
is the model's choice, log 14). The set the spec uses holds every word of both patterns. The words and the
entry are what the spec gives from general knowledge (D10, D11, log 13, log 14). -/
def Obligations.UndefinedInstructionsTrap : Prop :=
  let claim := fun (i : Instr) => ∀ s : State, condPassed i.cond s = true →
    ((∃ p ∈ s.platform.undefSet, encode i &&& p.mask = p.pattern) →
      ∃ t, exec i s = .next t ∧ Entered .svc 1 1 false [] s t ∧ SameMemory s t) ∧
    ((∀ p ∈ s.platform.undefSet, encode i &&& p.mask ≠ p.pattern) → exec i s = .refused .outsideUndefSet)
  (∀ (c : Cond) (rest : BitVec 25), encode (.undefined110 c rest) &&& 0x0E000000 = 0x0C000000 ∧
    (∃ p ∈ standardUndefSet, encode (.undefined110 c rest) &&& p.mask = p.pattern) ∧ claim (.undefined110 c rest)) ∧
  (∀ (c : Cond) (rest : BitVec 24), encode (.undefined1110 c rest) &&& 0x0F000000 = 0x0E000000 ∧
    (∃ p ∈ standardUndefSet, encode (.undefined1110 c rest) &&& p.mask = p.pattern) ∧ claim (.undefined1110 c rest))

/-- O45, tier 2 (R91, R201, D12, D16, D19). For every word with bits 27:25 = 000 and bits 7 and 4 both 1, or
with bits 27:25 = 011 and bit 4 = 1 (where ldr_reg_shift_by_reg = refuse, or bit 7 = 1; log 45), or with
bits 27:25 = 100 and bits 15:0 zero, whose condition passes: exec of the decoded instruction is refused,
under the name of its pattern. -/
def Obligations.ReservedWordsAreRefused : Prop :=
  ∀ (w : Word) (s : State), condPassed (condOfBits (w.extractLsb' 28 4)) s = true →
    (w.extractLsb' 25 3 = 0 → w.getLsbD 7 = true → w.getLsbD 4 = true →
      exec (decode w) s = .refused .reservedDataProcessing ∧
      decode w = .reservedDp (condOfBits (w.extractLsb' 28 4)) (w.extractLsb' 8 17) (w.extractLsb' 5 2)
        (w.extractLsb' 0 4)) ∧
    (w.extractLsb' 25 3 = 3 → w.getLsbD 4 = true →
      (s.platform.ldrRegShiftByReg = .refuse ∨ w.getLsbD 7 = true → exec (decode w) s = .refused .reservedOffset) ∧
      decode w = .reservedSdt (condOfBits (w.extractLsb' 28 4)) (w.extractLsb' 5 20) (w.extractLsb' 0 4)) ∧
    (w.extractLsb' 25 3 = 4 → w.extractLsb' 0 16 = 0 →
      exec (decode w) s = .refused .emptyRegisterList ∧
      decode w = .reservedBlock (condOfBits (w.extractLsb' 28 4)) (w.extractLsb' 16 9))

/-- O46, tier 1 (R223, R242, R141). After the entry of each exception from any state s, the instruction the
spec names as its return, executed in the handler's first state, answers a next state with the whole PSR
of s (mode and masks included), all memory and every register but R14 of the handler's mode as in s, and
the PC: MOVS PC,R14 (0xE1B0F00E) after an undefined instruction or software interrupt at the next
instruction; SUBS PC,R14,#4 (0xE25EF004) after IRQ, FIQ or prefetch abort at the instruction itself; SUBS
PC,R14,#8 (0xE25EF008) after a data abort or address exception at the instruction itself. The SUBS returns
are claimed where the saved address (the PC plus one word, for data abort and address exception plus two)
has not wrapped past the top of memory, for there the subtraction would borrow from the saved PSR bits.
The mechanism is what the spec gives from general knowledge (D10, log 13). -/
def Obligations.ExceptionReturns : Prop :=
  ∀ s : State,
    let back := fun (e : Exception) (w : Word) (pc : PcWord) => ∃ u, exec (decode w) (takeException e s) = .next u ∧
      u.pc = pc ∧ SamePsr s u ∧ SameMemory s u ∧ SameRest s u ∧ SameRegsExcept [phys (exceptionMode e) 14] s u ∧
      u.hazard = none
    back .undefinedInstruction 0xE1B0F00E (s.pc + 1) ∧ back .softwareInterrupt 0xE1B0F00E (s.pc + 1) ∧
      (s.pc.toNat + 1 < 2 ^ 24 →
        back .prefetchAbort 0xE25EF004 s.pc ∧ back .irq 0xE25EF004 s.pc ∧ back .fiq 0xE25EF004 s.pc) ∧
      (s.pc.toNat + 2 < 2 ^ 24 →
        back .dataAbort 0xE25EF008 s.pc ∧ back .addressException 0xE25EF008 s.pc)

/-- O47, tier 2 (R100, R230, R232, R233, R240). At a state that is not at the halt address: with the reset
input, step answers a state in SVC mode with I and F set, PC 0, memory unchanged, the registers and N, Z,
C, V those of the parameter reset_regs where it gives them (D8, log 12); with no reset, FIQ requested and
F = 0, it enters FIQ (FIQ mode, 0x1C, I and F set, R14_FIQ the PSR with the PC plus 4); with no reset, no
unmasked FIQ, IRQ requested and I = 0, it enters IRQ (IRQ mode, 0x18, I set, F as before, R14_IRQ
likewise). The step's input record is used up. The mechanism and the order are the spec's own decisions
(D5, D10, D28, log 7, log 13, log 27). -/
def Obligations.InterruptsAndResetAreTaken : Prop :=
  ∀ s : State, s.haltAddress ≠ some (pcAddr s) →
    ((currentInput s).reset = true → ∃ t, step s = .next t ∧ t.mode = .svc ∧ t.maskI = true ∧ t.maskF = true ∧
      t.pc = 0 ∧ SameMemory s t ∧ SamePlatform (dropInput s) t ∧ t.hazard = none ∧
      (∀ r, s.platform.resetRegs = some r → t.usr = r.usr ∧ t.fiq = r.fiq ∧ t.irq = r.irq ∧ t.svc = r.svc ∧
        t.flagN = r.flagN ∧ t.flagZ = r.flagZ ∧ t.flagC = r.flagC ∧ t.flagV = r.flagV)) ∧
    ((currentInput s).reset = false → (currentInput s).fiq = true → s.maskF = false →
      ∃ t, step s = .next t ∧ Entered .fiq 7 1 true [] (dropInput s) t ∧ SameMemory s t) ∧
    ((currentInput s).reset = false → ((currentInput s).fiq = false ∨ s.maskF = true) →
      (currentInput s).irq = true → s.maskI = false →
      ∃ t, step s = .next t ∧ Entered .irq 6 1 false [] (dropInput s) t ∧ SameMemory s t)

/-- O48, tier 2 (R55, R100, R236, R241). At a state not at the halt address, with no pending entry, whose
fetch meets no absent or device cell: if the memory manager refuses the fetch and the condition of the
word passes, step enters the prefetch abort (SVC mode, 0x0C, I set, R14_SVC the PSR with the address plus
4), memory unchanged; if the condition fails and the PC may go on, the PC only advances. The mechanism and
the order are the spec's own decisions (D10, D28, log 13, log 27, log 38). -/
def Obligations.PrefetchAbortEntry : Prop :=
  ∀ s : State, s.haltAddress ≠ some (pcAddr s) → pendingEntry s = none →
    cellStop (pcAddr s) .word .fetch s = none → abortOracle (pcAddr s) .word .fetch false s = true →
    let c := condOfBits ((s.mem.readWord s.platform.byteOrder (4 * s.pc.toNat)).extractLsb' 28 4)
    (condPassed c s = false → mayAdvance s = true) →
    ∃ t, step s = .next t ∧
      if condPassed c s = true then
        Entered .svc 3 1 false [] (dropInput s) t ∧ SameMemory s t
      else Advances s t ∧ SameRegs s t ∧ SamePsr s t ∧ SameMemory s t ∧ SameRest (dropInput s) t

/-- O49, tier 1 (R80, R100). At a state not at the halt address, with no reset, no unmasked interrupt, and a
granted fetch: if the four bytes at the PC decode to the instruction i, step answers what exec of i
answers, the step's input record being dropped from a next state. -/
def Obligations.StepRunsTheDecodedInstruction : Prop :=
  ∀ (s : State) (i : Instr), s.haltAddress ≠ some (pcAddr s) → (currentInput s).reset = false →
    ((currentInput s).fiq = true → s.maskF = true) → ((currentInput s).irq = true → s.maskI = true) →
    cellStop (pcAddr s) .word .fetch s = none → abortOracle (pcAddr s) .word .fetch false s = false →
    decodeBytes [s.mem.read (4 * s.pc.toNat), s.mem.read (4 * s.pc.toNat + 1), s.mem.read (4 * s.pc.toNat + 2),
      s.mem.read (4 * s.pc.toNat + 3)] = .ok (i, []) →
    (∀ t, exec i s = .next t → step s = .next { t with inputs := t.inputs.tail }) ∧
      (∀ f, exec i s = .fault f → step s = .fault f) ∧ (∀ r, exec i s = .refused r → step s = .refused r)

/-- O50, tier 1 (R275, R55, D3). A step at the halt address faults with runEnded, whatever the inputs. A step
elsewhere with no pending entry, the word at whose PC has a byte that the memory map says does not exist,
is refused as unpopulatedAddress, also where the memory manager would abort the fetch (log 38); a word
with a device byte and none that does not exist is refused as deviceAccess. The clause about a device, and
that a byte that does not exist comes before it, are the model's choice (log 4, DESIGN CHOICE): D3 and R55
refuse a fetch only from an address that does not exist. -/
def Obligations.StepStopsWhereTheSpecEndsTheRun : Prop :=
  ∀ s : State,
    (s.haltAddress = some (pcAddr s) → step s = .fault .runEnded) ∧
    (s.haltAddress ≠ some (pcAddr s) → pendingEntry s = none →
      ((∃ k < 4, cellKind s.platform.memMap (4 * s.pc.toNat + k) = .absent) → step s = .refused .unpopulatedAddress) ∧
      ((∀ k < 4, cellKind s.platform.memMap (4 * s.pc.toNat + k) ≠ .absent) →
        (∃ k < 4, cellKind s.platform.memMap (4 * s.pc.toNat + k) = .device) → step s = .refused .deviceAccess))

/-- O51, tier 2 (R266, R267, D27). When the condition passes: after a mode change by TSTP, TEQP, CMPP or CMNP
from mode old, an instruction that names a register whose physical register differs between old and the
current mode is refused; after a user-bank LDM, one that names any of R10 to R14 is. Stated for every
data-processing, single and block transfer instruction; which fields count as named is the model's reading
(log 23). -/
def Obligations.HazardousRegistersAreRefused : Prop :=
  let bad := fun (s : State) (named : List Reg) => ∃ i : Fin 15, .gpr i ∈ named ∧
    ((∃ old, s.hazard = some (.modeChange old) ∧ phys old i ≠ phys s.mode i) ∨
      (s.hazard = some .userBankLoad ∧ 10 ≤ i.val))
  (∀ (op : DpOp) (h : DpHead) (s : State), condPassed h.cond s = true →
    (∀ o, bad s (dpRegisters op h (.imm o)) → exec (dpImmInstr op h o) s = .refused .bankedRegisterHazard) ∧
    (∀ o, bad s (dpRegisters op h (.shiftImm o)) → exec (dpShiftImmInstr op h o) s = .refused .bankedRegisterHazard) ∧
    (∀ o, bad s (dpRegisters op h (.shiftReg o)) → exec (dpShiftRegInstr op h o) s = .refused .bankedRegisterHazard)) ∧
  EverySdt (fun i _ h o => ∀ s, condPassed h.cond s = true → bad s (sdtRegisters h o) →
    (∀ r, o = .regShift r → s.platform.ldrRegShiftByReg = .allow) → exec i s = .refused .bankedRegisterHazard) ∧
  (∀ (h : BlockHead) (s : State), condPassed h.cond s = true → bad s (blockRegisters h) →
    exec (.ldm h) s = .refused .bankedRegisterHazard ∧ exec (.stm h) s = .refused .bankedRegisterHazard)

/-- O52, tier 3 (R25, R223, R250). For every state in user mode and every next state of a step: either the
mode is still user, I and F are as before and no private register of FIQ, IRQ or SVC mode has changed, or
the state is one an exception enters: I set, and SVC mode at a vector 0x00 to 0x14, or IRQ mode at 0x18,
or FIQ mode at 0x1C with F set. The vectors are those of D10 (log 13). -/
def Obligations.UserModeIsLeftOnlyByAnException : Prop :=
  ∀ s t : State, s.mode = .usr → step s = .next t →
    (SameControl s t ∧ t.fiq = s.fiq ∧ t.irq = s.irq ∧ t.svc = s.svc) ∨ EnteredFromUser t

/-- O53, tier 3 (R22, R23, R250). For any two states in user mode that differ in nothing but the private
registers of FIQ, IRQ and SVC mode, their steps answer the same fault, the same refusal, or next states
that again differ in nothing but those registers. -/
def Obligations.PrivateRegistersAreInvisibleToUserMode : Prop :=
  ∀ s t : State, s.mode = .usr → SameForUser s t → SameAnswerForUser (step s) (step t)

/-- O54, tier 3 (R34, R266, R267). For every state that meets the invariant (memory in canonical form inside
the 2^26 bytes; a recorded mode change was made from a privileged mode to another; a recorded user-bank
load is in a privileged mode), every next state of a step meets it. Hazards are the model's own field (log
23). -/
def Obligations.StepKeepsTheInvariant : Prop :=
  ∀ s t : State, Inv s → step s = .next t → Inv t

/-- O55, tier 1 (R260, R34). The machine right after reset meets the invariant that every step keeps. Hazards
are the model's own field (log 23). -/
def Obligations.ResetStateMeetsTheInvariant : Prop :=
  Inv State.reset

/-- O56, tier 1 (R260, R261, D8). On every platform the reset state is in SVC mode with I = 1 and F = 1 and
the PC at 0, with no hazard (the pipeline is empty), the registers and N, Z, C, V those of the parameter
reset_regs where it gives them; State.reset is such a state. Of registers and flags to which reset_regs
gives no value, and of memory, nothing is said. The values are the spec's own decision D9 (log 11); the
empty hazard is the model's form of the empty pipeline (log 23), and reset_regs is D8 (log 10). -/
def Obligations.ResetState : Prop :=
  (∀ p : Platform, let s := State.resetWith p
    s.mode = .svc ∧ s.maskI = true ∧ s.maskF = true ∧ s.pc = 0 ∧ s.hazard = none ∧ s.platform = p ∧
      ∀ r, p.resetRegs = some r → s.usr = r.usr ∧ s.fiq = r.fiq ∧ s.irq = r.irq ∧ s.svc = r.svc ∧
        s.flagN = r.flagN ∧ s.flagZ = r.flagZ ∧ s.flagC = r.flagC ∧ s.flagV = r.flagV) ∧
    ∃ p, State.reset = State.resetWith p

/-- O57, tier 3 (R80, R82, R94). For every well-formed instruction, with every operand at every value, decode
of encode is the instruction; and for every 32-bit word, the decoded instruction is well-formed and its
encoding is the word. Most encodings are what the spec gives from general knowledge (log 36). -/
def Obligations.DecodeAndEncodeAgree : Prop :=
  (∀ i : Instr, i.wellFormed = true → decode (encode i) = i) ∧
    (∀ w : Word, (decode w).wellFormed = true ∧ encode (decode w) = w)

/-- O58, tier 1 (R151, R157, R173, R174, R193, R194, R111, R112, R210, R212). ADDS R0,R1,#1; MOV R0,R1,LSL #2;
LDRB R2,[R1,#-1]!; STR R0,[R1],#4; LDMIA R13!,{R0,PC}; STMDB R13!,{R0,R14}; BNE with offset -4; BL; SWI 0
and an undefined word decode to their instructions. -/
def Obligations.ExampleWordsDecode : Prop :=
  decode 0xE2910001 = .addImm ⟨.al, true, .gpr 1, .gpr 0⟩ ⟨0, 1⟩ ∧
  decode 0xE1A00101 = .movShiftImm ⟨.al, false, .gpr 0, .gpr 0⟩ ⟨2, .lsl, .gpr 1⟩ ∧
  decode 0xE5712001 = .ldrbImm ⟨.al, true, false, true, .gpr 1, .gpr 2⟩ 1 ∧
  decode 0xE4810004 = .strImm ⟨.al, false, true, false, .gpr 1, .gpr 0⟩ 4 ∧
  decode 0xE8BD8001 = .ldm ⟨.al, false, true, false, true, .gpr 13, 0x8001⟩ ∧
  decode 0xE92D4001 = .stm ⟨.al, true, false, false, true, .gpr 13, 0x4001⟩ ∧
  decode 0x1AFFFFFC = .b .ne 0xFFFFFC ∧ decode 0xEB000010 = .bl .al 0x10 ∧ decode 0xEF000000 = .swi .al 0 ∧
  decode 0xEE000000 = .undefined1110 .al 0

/-- O59, tier 2 (R53, R66, R174, R265, D3, D22). An access that the memory manager does not abort is stopped
as unpopulatedAddress if a byte of it does not exist, else as deviceAccess if one is a device's, else as
writeToRom if it stores to ROM, else as storeIntoPrefetched if it stores into the word at pc + 4 or pc +
8, else granted. D3 and R53 refuse an address that does not exist and a store to ROM, and R66 and D22 a
store into a prefetched word. That a device's byte is refused, and the order of the first three, are the
model's choice (log 4, DESIGN CHOICE); that the prefetched word is tested last, after the abort and the
memory map, is the model's too (log 22, DEDUCED). An attempted single transfer at a legal address of
allowed alignment whose access is stopped is refused under that name. An attempted LDM or STM of a legal
block is refused under the name of the first access that is not granted, if that access is stopped (an STM
also where it would have stored words before). A misaligned word is checked at its aligned address (log
42), a block's accesses with trans = 0 (log 44). Forms the spec's default refuses are included where the
parameters admit them: the form of the reserved row, its offset shifted by a register
(ldr_reg_shift_by_reg = allow, log 45), the translate form (log 18), misaligned words and bases (log 2,
log 3), the user bank (log 19); and a listed base with write-back (log 20). -/
def Obligations.StoppedAccessesAreRefused : Prop :=
  (∀ (a : Addr) (n : AccessSize) (k : AccessKind) (trans : Bool) (s : State), abortOracle a n k trans s = false →
    checkBus a n k trans s =
      if ∃ b ∈ accessBytes a.toNat n, cellKind s.platform.memMap b = .absent then .stop .unpopulatedAddress
      else if ∃ b ∈ accessBytes a.toNat n, cellKind s.platform.memMap b = .device then .stop .deviceAccess
      else if k = .write ∧ ∃ b ∈ accessBytes a.toNat n, cellKind s.platform.memMap b = .rom then .stop .writeToRom
      else if k = .write ∧ (a.toNat / 4 = (s.pc + 1).toNat ∨ a.toNat / 4 = (s.pc + 2).toNat) then
        .stop .storeIntoPrefetched
      else .granted) ∧
  EverySdt (fun i op h o => ∀ (s : State) (offset : Word) (why : Refusal), SdtAttempts op h o offset s →
    (transferAddress h offset s).toNat < 0x4000000 →
    misalignedRefused (transferAddress h offset s) (sdtSize op) s = false → sdtAnswer op h offset s = .stop why →
    exec i s = .refused why) ∧
  (∀ (h : BlockHead) (n : Fin 15) (i : Nat) (s : State) (why : Refusal),
    let claim := fun (instr : Instr) (k : AccessKind) (userBank : Bool) => BlockAttempts h n userBank s →
      BlockLegal h (readX n s) → i < 16 → h.list.getLsbD i = true →
      checkBus (busAddress (blockAddressOf h (readX n s) i) .word) .word k false s = .stop why →
      (∀ j < i, h.list.getLsbD j = true →
        checkBus (busAddress (blockAddressOf h (readX n s) j) .word) .word k false s = .granted) →
      exec instr s = .refused why
    claim (.ldm h) .read (loadUsesUserBank h) ∧ claim (.stm h) .write h.s)

/-- O60, tier 2 (R28, R54, R132, R177, R197, R201, D2, D6, D14, D17, D18). When the condition passes and no
named register is hazardous. misaligned_word = refuse: an attempted word transfer at a legal misaligned
address and a block transfer with a misaligned base are refused. trans_bit = refuse: a single transfer
with P = 0 and W = 1 whose offset is not refused is refused. ldm_user_bank = refuse: an LDM with S = 1
without R15 and an STM with S = 1 are refused. shift_ge32 = refuse: data processing whose shift amount is
a register of 32 or more, and a single transfer whose offset is a register other than R15 shifted by such
an amount (where ldr_reg_shift_by_reg = allow, log 45), are refused. pc_wrap = refuse, at the last word of
memory: data processing, in its three forms, that does not assign the PC, a granted single transfer that
does not load R15, a granted LDM without R15 and a granted STM are refused (a failing condition there is
in O21). These are the spec's own decisions and parameters (logs 2, 3, 8, 17, 18, 19). -/
def Obligations.ParametersSetToRefuse : Prop :=
  EverySdt (fun i op h o => ∀ (s : State) (offset : Word),
    (SdtAttempts op h o offset s → sdtSize op = .word → (transferAddress h offset s).toNat < 0x4000000 →
      (transferAddress h offset s).toNat % 4 ≠ 0 → s.platform.misalignedWord = .refuse →
      exec i s = .refused .misalignedWordAccess) ∧
    (condPassed h.cond s = true → hazardHit (sdtRegisters h o) s = false → offsetValue o s = .ok offset →
      (∀ r, o = .regShift r → s.platform.ldrRegShiftByReg = .allow) → h.p = false → h.w = true →
      s.platform.transBit = .refuse → exec i s = .refused .translatedTransfer)) ∧
  (∀ (h : BlockHead) (n : Fin 15) (s : State), condPassed h.cond s = true → hazardHit (blockRegisters h) s = false →
    h.rn = .gpr n →
    ((readX n s).toNat % 4 ≠ 0 → s.platform.misalignedWord = .refuse →
      exec (.ldm h) s = .refused .misalignedWordAccess ∧ exec (.stm h) s = .refused .misalignedWordAccess) ∧
    ((readX n s).toNat % 4 = 0 ∨ s.platform.misalignedWord = .rotate → s.platform.ldmUserBank = .refuse → h.s = true →
      (h.list.getLsbD 15 = false → exec (.ldm h) s = .refused .userBankTransfer) ∧
      exec (.stm h) s = .refused .userBankTransfer)) ∧
  (∀ (op : DpOp) (h : DpHead) (o : ShiftRegOperand) (j : Fin 15) (s : State), condPassed h.cond s = true →
    hazardHit (dpRegisters op h (.shiftReg o)) s = false → o.rs = .gpr j → 32 ≤ (readX j s).toNat % 256 →
    s.platform.shiftGe32 = .refuse → exec (dpShiftRegInstr op h o) s = .refused .shiftByThirtyTwoOrMore) ∧
  (∀ (op : SdtOp) (h : SdtHead) (o : ShiftRegOperand) (j : Fin 15) (s : State), condPassed h.cond s = true →
    hazardHit (sdtRegisters h (.regShift o)) s = false → s.platform.ldrRegShiftByReg = .allow → o.rm ≠ .r15 →
    o.rs = .gpr j → 32 ≤ (readX j s).toNat % 256 → s.platform.shiftGe32 = .refuse →
    exec (regShiftInstr op h o) s = .refused .shiftByThirtyTwoOrMore) ∧
  (∀ s : State, s.platform.pcWrap = .refuse → s.pc = 0xFFFFFF →
    (∀ (op : DpOp) (h : DpHead), condPassed h.cond s = true → (writesRd op = false ∨ h.rd ≠ .r15) →
      let claim := fun (i : Instr) (o : Operand2) => ∀ b : Shifted, hazardHit (dpRegisters op h o) s = false →
        operand2 o s = .ok b → exec i s = .refused .pcRunsOverTop
      (∀ o, claim (dpImmInstr op h o) (.imm o)) ∧ (∀ o, claim (dpShiftImmInstr op h o) (.shiftImm o)) ∧
        (∀ o, claim (dpShiftRegInstr op h o) (.shiftReg o))) ∧
    EverySdt (fun i op h o => ∀ offset : Word, SdtAttempts op h o offset s →
      (transferAddress h offset s).toNat < 0x4000000 →
      misalignedRefused (transferAddress h offset s) (sdtSize op) s = false → sdtAnswer op h offset s = .granted →
      sdtAssignsPc op h = false → exec i s = .refused .pcRunsOverTop) ∧
    (∀ (h : BlockHead) (n : Fin 15), BlockLegal h (readX n s) →
      (BlockAttempts h n (loadUsesUserBank h) s → BlockGranted h (readX n s) .read s → h.list.getLsbD 15 = false →
        exec (.ldm h) s = .refused .pcRunsOverTop) ∧
      (BlockAttempts h n h.s s → BlockGranted h (readX n s) .write s → exec (.stm h) s = .refused .pcRunsOverTop)))
end

