-- ==== Sys2Proof/Laws/State.lean ====
section
/-! SUPPORT. The small lemmas of State: what each named update leaves in each field, and what each
read gives after each update. Later proofs cite these and unfold no record update. -/

namespace Sys2Proof.Machine

/-- The state an instruction ends in, the PC gone on to the next word where the instruction did not assign it. -/
def concluded (assignsPc : Bool) (s : State) : State := if assignsPc then s else advance s

/-- Whether the PC may go on depends on the PC and the platform alone (rule R28). -/
theorem mayAdvance_congr {s t : State} (hp : t.pc = s.pc) (hm : t.platform = s.platform) :
    mayAdvance t = mayAdvance s := by simp only [mayAdvance, hp, hm]

/-! ### advance -/

@[simp] theorem advance_usr (s : State) : (advance s).usr = s.usr := rfl
@[simp] theorem advance_fiq (s : State) : (advance s).fiq = s.fiq := rfl
@[simp] theorem advance_irq (s : State) : (advance s).irq = s.irq := rfl
@[simp] theorem advance_svc (s : State) : (advance s).svc = s.svc := rfl
@[simp] theorem advance_pc (s : State) : (advance s).pc = s.pc + 1 := rfl
@[simp] theorem advance_flagN (s : State) : (advance s).flagN = s.flagN := rfl
@[simp] theorem advance_flagZ (s : State) : (advance s).flagZ = s.flagZ := rfl
@[simp] theorem advance_flagC (s : State) : (advance s).flagC = s.flagC := rfl
@[simp] theorem advance_flagV (s : State) : (advance s).flagV = s.flagV := rfl
@[simp] theorem advance_maskI (s : State) : (advance s).maskI = s.maskI := rfl
@[simp] theorem advance_maskF (s : State) : (advance s).maskF = s.maskF := rfl
@[simp] theorem advance_mode (s : State) : (advance s).mode = s.mode := rfl
@[simp] theorem advance_mem (s : State) : (advance s).mem = s.mem := rfl
@[simp] theorem advance_hazard (s : State) : (advance s).hazard = s.hazard := rfl
@[simp] theorem advance_freeCount (s : State) : (advance s).freeCount = s.freeCount := rfl
@[simp] theorem advance_platform (s : State) : (advance s).platform = s.platform := rfl
@[simp] theorem advance_haltAddress (s : State) : (advance s).haltAddress = s.haltAddress := rfl
@[simp] theorem advance_inputs (s : State) : (advance s).inputs = s.inputs := rfl
@[simp] theorem readPhys_advance (p : PhysReg) (s : State) : readPhys p (advance s) = readPhys p s := by cases p <;> simp only [readPhys, advance_usr, advance_fiq, advance_irq, advance_svc]
@[simp] theorem readX_advance (i : Fin 15) (s : State) : readX i (advance s) = readX i s := by simp only [readX, readPhys_advance, advance_mode]

/-! ### concluded -/

@[simp] theorem concluded_usr (b : Bool) (s : State) : (concluded b s).usr = s.usr := by cases b <;> rfl
@[simp] theorem concluded_fiq (b : Bool) (s : State) : (concluded b s).fiq = s.fiq := by cases b <;> rfl
@[simp] theorem concluded_irq (b : Bool) (s : State) : (concluded b s).irq = s.irq := by cases b <;> rfl
@[simp] theorem concluded_svc (b : Bool) (s : State) : (concluded b s).svc = s.svc := by cases b <;> rfl
@[simp] theorem concluded_pc (b : Bool) (s : State) : (concluded b s).pc = if b then s.pc else s.pc + 1 := by cases b <;> rfl
@[simp] theorem concluded_flagN (b : Bool) (s : State) : (concluded b s).flagN = s.flagN := by cases b <;> rfl
@[simp] theorem concluded_flagZ (b : Bool) (s : State) : (concluded b s).flagZ = s.flagZ := by cases b <;> rfl
@[simp] theorem concluded_flagC (b : Bool) (s : State) : (concluded b s).flagC = s.flagC := by cases b <;> rfl
@[simp] theorem concluded_flagV (b : Bool) (s : State) : (concluded b s).flagV = s.flagV := by cases b <;> rfl
@[simp] theorem concluded_maskI (b : Bool) (s : State) : (concluded b s).maskI = s.maskI := by cases b <;> rfl
@[simp] theorem concluded_maskF (b : Bool) (s : State) : (concluded b s).maskF = s.maskF := by cases b <;> rfl
@[simp] theorem concluded_mode (b : Bool) (s : State) : (concluded b s).mode = s.mode := by cases b <;> rfl
@[simp] theorem concluded_mem (b : Bool) (s : State) : (concluded b s).mem = s.mem := by cases b <;> rfl
@[simp] theorem concluded_hazard (b : Bool) (s : State) : (concluded b s).hazard = s.hazard := by cases b <;> rfl
@[simp] theorem concluded_freeCount (b : Bool) (s : State) : (concluded b s).freeCount = s.freeCount := by cases b <;> rfl
@[simp] theorem concluded_platform (b : Bool) (s : State) : (concluded b s).platform = s.platform := by cases b <;> rfl
@[simp] theorem concluded_haltAddress (b : Bool) (s : State) : (concluded b s).haltAddress = s.haltAddress := by cases b <;> rfl
@[simp] theorem concluded_inputs (b : Bool) (s : State) : (concluded b s).inputs = s.inputs := by cases b <;> rfl
@[simp] theorem readPhys_concluded (p : PhysReg) (b : Bool) (s : State) : readPhys p (concluded b s) = readPhys p s := by cases p <;> simp only [readPhys, concluded_usr, concluded_fiq, concluded_irq, concluded_svc]
@[simp] theorem readX_concluded (i : Fin 15) (b : Bool) (s : State) : readX i (concluded b s) = readX i s := by simp only [readX, readPhys_concluded, concluded_mode]

/-! ### clearHazard -/

@[simp] theorem clearHazard_usr (s : State) : (clearHazard s).usr = s.usr := rfl
@[simp] theorem clearHazard_fiq (s : State) : (clearHazard s).fiq = s.fiq := rfl
@[simp] theorem clearHazard_irq (s : State) : (clearHazard s).irq = s.irq := rfl
@[simp] theorem clearHazard_svc (s : State) : (clearHazard s).svc = s.svc := rfl
@[simp] theorem clearHazard_pc (s : State) : (clearHazard s).pc = s.pc := rfl
@[simp] theorem clearHazard_flagN (s : State) : (clearHazard s).flagN = s.flagN := rfl
@[simp] theorem clearHazard_flagZ (s : State) : (clearHazard s).flagZ = s.flagZ := rfl
@[simp] theorem clearHazard_flagC (s : State) : (clearHazard s).flagC = s.flagC := rfl
@[simp] theorem clearHazard_flagV (s : State) : (clearHazard s).flagV = s.flagV := rfl
@[simp] theorem clearHazard_maskI (s : State) : (clearHazard s).maskI = s.maskI := rfl
@[simp] theorem clearHazard_maskF (s : State) : (clearHazard s).maskF = s.maskF := rfl
@[simp] theorem clearHazard_mode (s : State) : (clearHazard s).mode = s.mode := rfl
@[simp] theorem clearHazard_mem (s : State) : (clearHazard s).mem = s.mem := rfl
@[simp] theorem clearHazard_hazard (s : State) : (clearHazard s).hazard = none := rfl
@[simp] theorem clearHazard_freeCount (s : State) : (clearHazard s).freeCount = s.freeCount := rfl
@[simp] theorem clearHazard_platform (s : State) : (clearHazard s).platform = s.platform := rfl
@[simp] theorem clearHazard_haltAddress (s : State) : (clearHazard s).haltAddress = s.haltAddress := rfl
@[simp] theorem clearHazard_inputs (s : State) : (clearHazard s).inputs = s.inputs := rfl
@[simp] theorem readPhys_clearHazard (p : PhysReg) (s : State) : readPhys p (clearHazard s) = readPhys p s := by cases p <;> simp only [readPhys, clearHazard_usr, clearHazard_fiq, clearHazard_irq, clearHazard_svc]
@[simp] theorem readX_clearHazard (i : Fin 15) (s : State) : readX i (clearHazard s) = readX i s := by simp only [readX, readPhys_clearHazard, clearHazard_mode]
@[simp] theorem mayAdvance_clearHazard (s : State) : mayAdvance (clearHazard s) = mayAdvance s := mayAdvance_congr (clearHazard_pc s) (clearHazard_platform s)

/-! ### dropInput -/

@[simp] theorem dropInput_usr (s : State) : (dropInput s).usr = s.usr := rfl
@[simp] theorem dropInput_fiq (s : State) : (dropInput s).fiq = s.fiq := rfl
@[simp] theorem dropInput_irq (s : State) : (dropInput s).irq = s.irq := rfl
@[simp] theorem dropInput_svc (s : State) : (dropInput s).svc = s.svc := rfl
@[simp] theorem dropInput_pc (s : State) : (dropInput s).pc = s.pc := rfl
@[simp] theorem dropInput_flagN (s : State) : (dropInput s).flagN = s.flagN := rfl
@[simp] theorem dropInput_flagZ (s : State) : (dropInput s).flagZ = s.flagZ := rfl
@[simp] theorem dropInput_flagC (s : State) : (dropInput s).flagC = s.flagC := rfl
@[simp] theorem dropInput_flagV (s : State) : (dropInput s).flagV = s.flagV := rfl
@[simp] theorem dropInput_maskI (s : State) : (dropInput s).maskI = s.maskI := rfl
@[simp] theorem dropInput_maskF (s : State) : (dropInput s).maskF = s.maskF := rfl
@[simp] theorem dropInput_mode (s : State) : (dropInput s).mode = s.mode := rfl
@[simp] theorem dropInput_mem (s : State) : (dropInput s).mem = s.mem := rfl
@[simp] theorem dropInput_hazard (s : State) : (dropInput s).hazard = s.hazard := rfl
@[simp] theorem dropInput_freeCount (s : State) : (dropInput s).freeCount = s.freeCount := rfl
@[simp] theorem dropInput_platform (s : State) : (dropInput s).platform = s.platform := rfl
@[simp] theorem dropInput_haltAddress (s : State) : (dropInput s).haltAddress = s.haltAddress := rfl
@[simp] theorem dropInput_inputs (s : State) : (dropInput s).inputs = s.inputs.tail := rfl
@[simp] theorem readPhys_dropInput (p : PhysReg) (s : State) : readPhys p (dropInput s) = readPhys p s := by cases p <;> simp only [readPhys, dropInput_usr, dropInput_fiq, dropInput_irq, dropInput_svc]
@[simp] theorem readX_dropInput (i : Fin 15) (s : State) : readX i (dropInput s) = readX i s := by simp only [readX, readPhys_dropInput, dropInput_mode]
@[simp] theorem mayAdvance_dropInput (s : State) : mayAdvance (dropInput s) = mayAdvance s := mayAdvance_congr (dropInput_pc s) (dropInput_platform s)

/-! ### setPC -/

@[simp] theorem setPC_usr (v : Word) (s : State) : (setPC v s).usr = s.usr := rfl
@[simp] theorem setPC_fiq (v : Word) (s : State) : (setPC v s).fiq = s.fiq := rfl
@[simp] theorem setPC_irq (v : Word) (s : State) : (setPC v s).irq = s.irq := rfl
@[simp] theorem setPC_svc (v : Word) (s : State) : (setPC v s).svc = s.svc := rfl
@[simp] theorem setPC_pc (v : Word) (s : State) : (setPC v s).pc = v.extractLsb' 2 24 := rfl
@[simp] theorem setPC_flagN (v : Word) (s : State) : (setPC v s).flagN = s.flagN := rfl
@[simp] theorem setPC_flagZ (v : Word) (s : State) : (setPC v s).flagZ = s.flagZ := rfl
@[simp] theorem setPC_flagC (v : Word) (s : State) : (setPC v s).flagC = s.flagC := rfl
@[simp] theorem setPC_flagV (v : Word) (s : State) : (setPC v s).flagV = s.flagV := rfl
@[simp] theorem setPC_maskI (v : Word) (s : State) : (setPC v s).maskI = s.maskI := rfl
@[simp] theorem setPC_maskF (v : Word) (s : State) : (setPC v s).maskF = s.maskF := rfl
@[simp] theorem setPC_mode (v : Word) (s : State) : (setPC v s).mode = s.mode := rfl
@[simp] theorem setPC_mem (v : Word) (s : State) : (setPC v s).mem = s.mem := rfl
@[simp] theorem setPC_hazard (v : Word) (s : State) : (setPC v s).hazard = s.hazard := rfl
@[simp] theorem setPC_freeCount (v : Word) (s : State) : (setPC v s).freeCount = s.freeCount := rfl
@[simp] theorem setPC_platform (v : Word) (s : State) : (setPC v s).platform = s.platform := rfl
@[simp] theorem setPC_haltAddress (v : Word) (s : State) : (setPC v s).haltAddress = s.haltAddress := rfl
@[simp] theorem setPC_inputs (v : Word) (s : State) : (setPC v s).inputs = s.inputs := rfl
@[simp] theorem readPhys_setPC (p : PhysReg) (v : Word) (s : State) : readPhys p (setPC v s) = readPhys p s := by cases p <;> simp only [readPhys, setPC_usr, setPC_fiq, setPC_irq, setPC_svc]
@[simp] theorem readX_setPC (i : Fin 15) (v : Word) (s : State) : readX i (setPC v s) = readX i s := by simp only [readX, readPhys_setPC, setPC_mode]

/-! ### branchTo -/

@[simp] theorem branchTo_usr (a : Addr) (s : State) : (branchTo a s).usr = s.usr := rfl
@[simp] theorem branchTo_fiq (a : Addr) (s : State) : (branchTo a s).fiq = s.fiq := rfl
@[simp] theorem branchTo_irq (a : Addr) (s : State) : (branchTo a s).irq = s.irq := rfl
@[simp] theorem branchTo_svc (a : Addr) (s : State) : (branchTo a s).svc = s.svc := rfl
@[simp] theorem branchTo_pc (a : Addr) (s : State) : (branchTo a s).pc = a.extractLsb' 2 24 := rfl
@[simp] theorem branchTo_flagN (a : Addr) (s : State) : (branchTo a s).flagN = s.flagN := rfl
@[simp] theorem branchTo_flagZ (a : Addr) (s : State) : (branchTo a s).flagZ = s.flagZ := rfl
@[simp] theorem branchTo_flagC (a : Addr) (s : State) : (branchTo a s).flagC = s.flagC := rfl
@[simp] theorem branchTo_flagV (a : Addr) (s : State) : (branchTo a s).flagV = s.flagV := rfl
@[simp] theorem branchTo_maskI (a : Addr) (s : State) : (branchTo a s).maskI = s.maskI := rfl
@[simp] theorem branchTo_maskF (a : Addr) (s : State) : (branchTo a s).maskF = s.maskF := rfl
@[simp] theorem branchTo_mode (a : Addr) (s : State) : (branchTo a s).mode = s.mode := rfl
@[simp] theorem branchTo_mem (a : Addr) (s : State) : (branchTo a s).mem = s.mem := rfl
@[simp] theorem branchTo_hazard (a : Addr) (s : State) : (branchTo a s).hazard = s.hazard := rfl
@[simp] theorem branchTo_freeCount (a : Addr) (s : State) : (branchTo a s).freeCount = s.freeCount := rfl
@[simp] theorem branchTo_platform (a : Addr) (s : State) : (branchTo a s).platform = s.platform := rfl
@[simp] theorem branchTo_haltAddress (a : Addr) (s : State) : (branchTo a s).haltAddress = s.haltAddress := rfl
@[simp] theorem branchTo_inputs (a : Addr) (s : State) : (branchTo a s).inputs = s.inputs := rfl
@[simp] theorem readPhys_branchTo (p : PhysReg) (a : Addr) (s : State) : readPhys p (branchTo a s) = readPhys p s := by cases p <;> simp only [readPhys, branchTo_usr, branchTo_fiq, branchTo_irq, branchTo_svc]
@[simp] theorem readX_branchTo (i : Fin 15) (a : Addr) (s : State) : readX i (branchTo a s) = readX i s := by simp only [readX, readPhys_branchTo, branchTo_mode]

/-! ### setFlags -/

@[simp] theorem setFlags_usr (out : AluOut) (c : Bool) (s : State) : (setFlags out c s).usr = s.usr := by cases out <;> rfl
@[simp] theorem setFlags_fiq (out : AluOut) (c : Bool) (s : State) : (setFlags out c s).fiq = s.fiq := by cases out <;> rfl
@[simp] theorem setFlags_irq (out : AluOut) (c : Bool) (s : State) : (setFlags out c s).irq = s.irq := by cases out <;> rfl
@[simp] theorem setFlags_svc (out : AluOut) (c : Bool) (s : State) : (setFlags out c s).svc = s.svc := by cases out <;> rfl
@[simp] theorem setFlags_pc (out : AluOut) (c : Bool) (s : State) : (setFlags out c s).pc = s.pc := by cases out <;> rfl
@[simp] theorem setFlags_maskI (out : AluOut) (c : Bool) (s : State) : (setFlags out c s).maskI = s.maskI := by cases out <;> rfl
@[simp] theorem setFlags_maskF (out : AluOut) (c : Bool) (s : State) : (setFlags out c s).maskF = s.maskF := by cases out <;> rfl
@[simp] theorem setFlags_mode (out : AluOut) (c : Bool) (s : State) : (setFlags out c s).mode = s.mode := by cases out <;> rfl
@[simp] theorem setFlags_mem (out : AluOut) (c : Bool) (s : State) : (setFlags out c s).mem = s.mem := by cases out <;> rfl
@[simp] theorem setFlags_hazard (out : AluOut) (c : Bool) (s : State) : (setFlags out c s).hazard = s.hazard := by cases out <;> rfl
@[simp] theorem setFlags_freeCount (out : AluOut) (c : Bool) (s : State) : (setFlags out c s).freeCount = s.freeCount := by cases out <;> rfl
@[simp] theorem setFlags_platform (out : AluOut) (c : Bool) (s : State) : (setFlags out c s).platform = s.platform := by cases out <;> rfl
@[simp] theorem setFlags_haltAddress (out : AluOut) (c : Bool) (s : State) : (setFlags out c s).haltAddress = s.haltAddress := by cases out <;> rfl
@[simp] theorem setFlags_inputs (out : AluOut) (c : Bool) (s : State) : (setFlags out c s).inputs = s.inputs := by cases out <;> rfl
@[simp] theorem readPhys_setFlags (p : PhysReg) (out : AluOut) (c : Bool) (s : State) : readPhys p (setFlags out c s) = readPhys p s := by cases p <;> simp only [readPhys, setFlags_usr, setFlags_fiq, setFlags_irq, setFlags_svc]
@[simp] theorem readX_setFlags (i : Fin 15) (out : AluOut) (c : Bool) (s : State) : readX i (setFlags out c s) = readX i s := by simp only [readX, readPhys_setFlags, setFlags_mode]
@[simp] theorem mayAdvance_setFlags (out : AluOut) (c : Bool) (s : State) : mayAdvance (setFlags out c s) = mayAdvance s := mayAdvance_congr (setFlags_pc _ _ s) (setFlags_platform _ _ s)

/-! ### storeWord -/

@[simp] theorem storeWord_usr (a : Addr) (v : Word) (s : State) : (storeWord a v s).usr = s.usr := rfl
@[simp] theorem storeWord_fiq (a : Addr) (v : Word) (s : State) : (storeWord a v s).fiq = s.fiq := rfl
@[simp] theorem storeWord_irq (a : Addr) (v : Word) (s : State) : (storeWord a v s).irq = s.irq := rfl
@[simp] theorem storeWord_svc (a : Addr) (v : Word) (s : State) : (storeWord a v s).svc = s.svc := rfl
@[simp] theorem storeWord_pc (a : Addr) (v : Word) (s : State) : (storeWord a v s).pc = s.pc := rfl
@[simp] theorem storeWord_flagN (a : Addr) (v : Word) (s : State) : (storeWord a v s).flagN = s.flagN := rfl
@[simp] theorem storeWord_flagZ (a : Addr) (v : Word) (s : State) : (storeWord a v s).flagZ = s.flagZ := rfl
@[simp] theorem storeWord_flagC (a : Addr) (v : Word) (s : State) : (storeWord a v s).flagC = s.flagC := rfl
@[simp] theorem storeWord_flagV (a : Addr) (v : Word) (s : State) : (storeWord a v s).flagV = s.flagV := rfl
@[simp] theorem storeWord_maskI (a : Addr) (v : Word) (s : State) : (storeWord a v s).maskI = s.maskI := rfl
@[simp] theorem storeWord_maskF (a : Addr) (v : Word) (s : State) : (storeWord a v s).maskF = s.maskF := rfl
@[simp] theorem storeWord_mode (a : Addr) (v : Word) (s : State) : (storeWord a v s).mode = s.mode := rfl
@[simp] theorem storeWord_mem (a : Addr) (v : Word) (s : State) : (storeWord a v s).mem = s.mem.writeWord s.platform.byteOrder a.toNat v := rfl
@[simp] theorem storeWord_hazard (a : Addr) (v : Word) (s : State) : (storeWord a v s).hazard = s.hazard := rfl
@[simp] theorem storeWord_freeCount (a : Addr) (v : Word) (s : State) : (storeWord a v s).freeCount = s.freeCount := rfl
@[simp] theorem storeWord_platform (a : Addr) (v : Word) (s : State) : (storeWord a v s).platform = s.platform := rfl
@[simp] theorem storeWord_haltAddress (a : Addr) (v : Word) (s : State) : (storeWord a v s).haltAddress = s.haltAddress := rfl
@[simp] theorem storeWord_inputs (a : Addr) (v : Word) (s : State) : (storeWord a v s).inputs = s.inputs := rfl
@[simp] theorem readPhys_storeWord (p : PhysReg) (a : Addr) (v : Word) (s : State) : readPhys p (storeWord a v s) = readPhys p s := by cases p <;> simp only [readPhys, storeWord_usr, storeWord_fiq, storeWord_irq, storeWord_svc]
@[simp] theorem readX_storeWord (i : Fin 15) (a : Addr) (v : Word) (s : State) : readX i (storeWord a v s) = readX i s := by simp only [readX, readPhys_storeWord, storeWord_mode]
@[simp] theorem mayAdvance_storeWord (a : Addr) (v : Word) (s : State) : mayAdvance (storeWord a v s) = mayAdvance s := mayAdvance_congr (storeWord_pc _ _ s) (storeWord_platform _ _ s)

/-! ### storeByte -/

@[simp] theorem storeByte_usr (a : Addr) (v : Byte) (s : State) : (storeByte a v s).usr = s.usr := rfl
@[simp] theorem storeByte_fiq (a : Addr) (v : Byte) (s : State) : (storeByte a v s).fiq = s.fiq := rfl
@[simp] theorem storeByte_irq (a : Addr) (v : Byte) (s : State) : (storeByte a v s).irq = s.irq := rfl
@[simp] theorem storeByte_svc (a : Addr) (v : Byte) (s : State) : (storeByte a v s).svc = s.svc := rfl
@[simp] theorem storeByte_pc (a : Addr) (v : Byte) (s : State) : (storeByte a v s).pc = s.pc := rfl
@[simp] theorem storeByte_flagN (a : Addr) (v : Byte) (s : State) : (storeByte a v s).flagN = s.flagN := rfl
@[simp] theorem storeByte_flagZ (a : Addr) (v : Byte) (s : State) : (storeByte a v s).flagZ = s.flagZ := rfl
@[simp] theorem storeByte_flagC (a : Addr) (v : Byte) (s : State) : (storeByte a v s).flagC = s.flagC := rfl
@[simp] theorem storeByte_flagV (a : Addr) (v : Byte) (s : State) : (storeByte a v s).flagV = s.flagV := rfl
@[simp] theorem storeByte_maskI (a : Addr) (v : Byte) (s : State) : (storeByte a v s).maskI = s.maskI := rfl
@[simp] theorem storeByte_maskF (a : Addr) (v : Byte) (s : State) : (storeByte a v s).maskF = s.maskF := rfl
@[simp] theorem storeByte_mode (a : Addr) (v : Byte) (s : State) : (storeByte a v s).mode = s.mode := rfl
@[simp] theorem storeByte_mem (a : Addr) (v : Byte) (s : State) : (storeByte a v s).mem = s.mem.write a.toNat v := rfl
@[simp] theorem storeByte_hazard (a : Addr) (v : Byte) (s : State) : (storeByte a v s).hazard = s.hazard := rfl
@[simp] theorem storeByte_freeCount (a : Addr) (v : Byte) (s : State) : (storeByte a v s).freeCount = s.freeCount := rfl
@[simp] theorem storeByte_platform (a : Addr) (v : Byte) (s : State) : (storeByte a v s).platform = s.platform := rfl
@[simp] theorem storeByte_haltAddress (a : Addr) (v : Byte) (s : State) : (storeByte a v s).haltAddress = s.haltAddress := rfl
@[simp] theorem storeByte_inputs (a : Addr) (v : Byte) (s : State) : (storeByte a v s).inputs = s.inputs := rfl
@[simp] theorem readPhys_storeByte (p : PhysReg) (a : Addr) (v : Byte) (s : State) : readPhys p (storeByte a v s) = readPhys p s := by cases p <;> simp only [readPhys, storeByte_usr, storeByte_fiq, storeByte_irq, storeByte_svc]
@[simp] theorem readX_storeByte (i : Fin 15) (a : Addr) (v : Byte) (s : State) : readX i (storeByte a v s) = readX i s := by simp only [readX, readPhys_storeByte, storeByte_mode]
@[simp] theorem mayAdvance_storeByte (a : Addr) (v : Byte) (s : State) : mayAdvance (storeByte a v s) = mayAdvance s := mayAdvance_congr (storeByte_pc _ _ s) (storeByte_platform _ _ s)

/-! ### setPSR -/

@[simp] theorem setPSR_usr (v : Word) (s : State) : (setPSR v s).usr = s.usr := by unfold setPSR; split <;> rfl
@[simp] theorem setPSR_fiq (v : Word) (s : State) : (setPSR v s).fiq = s.fiq := by unfold setPSR; split <;> rfl
@[simp] theorem setPSR_irq (v : Word) (s : State) : (setPSR v s).irq = s.irq := by unfold setPSR; split <;> rfl
@[simp] theorem setPSR_svc (v : Word) (s : State) : (setPSR v s).svc = s.svc := by unfold setPSR; split <;> rfl
@[simp] theorem setPSR_pc (v : Word) (s : State) : (setPSR v s).pc = s.pc := by unfold setPSR; split <;> rfl
@[simp] theorem setPSR_flagN (v : Word) (s : State) : (setPSR v s).flagN = wordBit 31 v := by unfold setPSR; split <;> rfl
@[simp] theorem setPSR_flagZ (v : Word) (s : State) : (setPSR v s).flagZ = wordBit 30 v := by unfold setPSR; split <;> rfl
@[simp] theorem setPSR_flagC (v : Word) (s : State) : (setPSR v s).flagC = wordBit 29 v := by unfold setPSR; split <;> rfl
@[simp] theorem setPSR_flagV (v : Word) (s : State) : (setPSR v s).flagV = wordBit 28 v := by unfold setPSR; split <;> rfl
@[simp] theorem setPSR_mem (v : Word) (s : State) : (setPSR v s).mem = s.mem := by unfold setPSR; split <;> rfl
@[simp] theorem setPSR_hazard (v : Word) (s : State) : (setPSR v s).hazard = s.hazard := by unfold setPSR; split <;> rfl
@[simp] theorem setPSR_freeCount (v : Word) (s : State) : (setPSR v s).freeCount = s.freeCount := by unfold setPSR; split <;> rfl
@[simp] theorem setPSR_platform (v : Word) (s : State) : (setPSR v s).platform = s.platform := by unfold setPSR; split <;> rfl
@[simp] theorem setPSR_haltAddress (v : Word) (s : State) : (setPSR v s).haltAddress = s.haltAddress := by unfold setPSR; split <;> rfl
@[simp] theorem setPSR_inputs (v : Word) (s : State) : (setPSR v s).inputs = s.inputs := by unfold setPSR; split <;> rfl
@[simp] theorem readPhys_setPSR (p : PhysReg) (v : Word) (s : State) : readPhys p (setPSR v s) = readPhys p s := by cases p <;> simp only [readPhys, setPSR_usr, setPSR_fiq, setPSR_irq, setPSR_svc]
@[simp] theorem mayAdvance_setPSR (v : Word) (s : State) : mayAdvance (setPSR v s) = mayAdvance s := mayAdvance_congr (setPSR_pc _ s) (setPSR_platform _ s)

/-! ### writePhys -/

@[simp] theorem writePhys_pc (p : PhysReg) (v : Word) (s : State) : (writePhys p v s).pc = s.pc := by cases p <;> rfl
@[simp] theorem writePhys_flagN (p : PhysReg) (v : Word) (s : State) : (writePhys p v s).flagN = s.flagN := by cases p <;> rfl
@[simp] theorem writePhys_flagZ (p : PhysReg) (v : Word) (s : State) : (writePhys p v s).flagZ = s.flagZ := by cases p <;> rfl
@[simp] theorem writePhys_flagC (p : PhysReg) (v : Word) (s : State) : (writePhys p v s).flagC = s.flagC := by cases p <;> rfl
@[simp] theorem writePhys_flagV (p : PhysReg) (v : Word) (s : State) : (writePhys p v s).flagV = s.flagV := by cases p <;> rfl
@[simp] theorem writePhys_maskI (p : PhysReg) (v : Word) (s : State) : (writePhys p v s).maskI = s.maskI := by cases p <;> rfl
@[simp] theorem writePhys_maskF (p : PhysReg) (v : Word) (s : State) : (writePhys p v s).maskF = s.maskF := by cases p <;> rfl
@[simp] theorem writePhys_mode (p : PhysReg) (v : Word) (s : State) : (writePhys p v s).mode = s.mode := by cases p <;> rfl
@[simp] theorem writePhys_mem (p : PhysReg) (v : Word) (s : State) : (writePhys p v s).mem = s.mem := by cases p <;> rfl
@[simp] theorem writePhys_hazard (p : PhysReg) (v : Word) (s : State) : (writePhys p v s).hazard = s.hazard := by cases p <;> rfl
@[simp] theorem writePhys_freeCount (p : PhysReg) (v : Word) (s : State) : (writePhys p v s).freeCount = s.freeCount := by cases p <;> rfl
@[simp] theorem writePhys_platform (p : PhysReg) (v : Word) (s : State) : (writePhys p v s).platform = s.platform := by cases p <;> rfl
@[simp] theorem writePhys_haltAddress (p : PhysReg) (v : Word) (s : State) : (writePhys p v s).haltAddress = s.haltAddress := by cases p <;> rfl
@[simp] theorem writePhys_inputs (p : PhysReg) (v : Word) (s : State) : (writePhys p v s).inputs = s.inputs := by cases p <;> rfl
@[simp] theorem mayAdvance_writePhys (p : PhysReg) (v : Word) (s : State) : mayAdvance (writePhys p v s) = mayAdvance s := mayAdvance_congr (writePhys_pc _ _ s) (writePhys_platform _ _ s)

/-! ### writeX -/

@[simp] theorem writeX_pc (i : Fin 15) (v : Word) (s : State) : (writeX i v s).pc = s.pc := writePhys_pc _ v s
@[simp] theorem writeX_flagN (i : Fin 15) (v : Word) (s : State) : (writeX i v s).flagN = s.flagN := writePhys_flagN _ v s
@[simp] theorem writeX_flagZ (i : Fin 15) (v : Word) (s : State) : (writeX i v s).flagZ = s.flagZ := writePhys_flagZ _ v s
@[simp] theorem writeX_flagC (i : Fin 15) (v : Word) (s : State) : (writeX i v s).flagC = s.flagC := writePhys_flagC _ v s
@[simp] theorem writeX_flagV (i : Fin 15) (v : Word) (s : State) : (writeX i v s).flagV = s.flagV := writePhys_flagV _ v s
@[simp] theorem writeX_maskI (i : Fin 15) (v : Word) (s : State) : (writeX i v s).maskI = s.maskI := writePhys_maskI _ v s
@[simp] theorem writeX_maskF (i : Fin 15) (v : Word) (s : State) : (writeX i v s).maskF = s.maskF := writePhys_maskF _ v s
@[simp] theorem writeX_mode (i : Fin 15) (v : Word) (s : State) : (writeX i v s).mode = s.mode := writePhys_mode _ v s
@[simp] theorem writeX_mem (i : Fin 15) (v : Word) (s : State) : (writeX i v s).mem = s.mem := writePhys_mem _ v s
@[simp] theorem writeX_hazard (i : Fin 15) (v : Word) (s : State) : (writeX i v s).hazard = s.hazard := writePhys_hazard _ v s
@[simp] theorem writeX_freeCount (i : Fin 15) (v : Word) (s : State) : (writeX i v s).freeCount = s.freeCount := writePhys_freeCount _ v s
@[simp] theorem writeX_platform (i : Fin 15) (v : Word) (s : State) : (writeX i v s).platform = s.platform := writePhys_platform _ v s
@[simp] theorem writeX_haltAddress (i : Fin 15) (v : Word) (s : State) : (writeX i v s).haltAddress = s.haltAddress := writePhys_haltAddress _ v s
@[simp] theorem writeX_inputs (i : Fin 15) (v : Word) (s : State) : (writeX i v s).inputs = s.inputs := writePhys_inputs _ v s
@[simp] theorem mayAdvance_writeX (i : Fin 15) (v : Word) (s : State) : mayAdvance (writeX i v s) = mayAdvance s := mayAdvance_congr (writeX_pc _ _ s) (writeX_platform _ _ s)

/-! ### spoil -/

@[simp] theorem spoil_pc (p : PhysReg) (s : State) : (spoil p s).pc = s.pc := writePhys_pc p _ s
@[simp] theorem spoil_flagN (p : PhysReg) (s : State) : (spoil p s).flagN = s.flagN := writePhys_flagN p _ s
@[simp] theorem spoil_flagZ (p : PhysReg) (s : State) : (spoil p s).flagZ = s.flagZ := writePhys_flagZ p _ s
@[simp] theorem spoil_flagC (p : PhysReg) (s : State) : (spoil p s).flagC = s.flagC := writePhys_flagC p _ s
@[simp] theorem spoil_flagV (p : PhysReg) (s : State) : (spoil p s).flagV = s.flagV := writePhys_flagV p _ s
@[simp] theorem spoil_maskI (p : PhysReg) (s : State) : (spoil p s).maskI = s.maskI := writePhys_maskI p _ s
@[simp] theorem spoil_maskF (p : PhysReg) (s : State) : (spoil p s).maskF = s.maskF := writePhys_maskF p _ s
@[simp] theorem spoil_mode (p : PhysReg) (s : State) : (spoil p s).mode = s.mode := writePhys_mode p _ s
@[simp] theorem spoil_mem (p : PhysReg) (s : State) : (spoil p s).mem = s.mem := writePhys_mem p _ s
@[simp] theorem spoil_hazard (p : PhysReg) (s : State) : (spoil p s).hazard = s.hazard := writePhys_hazard p _ s
@[simp] theorem spoil_freeCount (p : PhysReg) (s : State) : (spoil p s).freeCount = s.freeCount + 1 := rfl
@[simp] theorem spoil_platform (p : PhysReg) (s : State) : (spoil p s).platform = s.platform := writePhys_platform p _ s
@[simp] theorem spoil_haltAddress (p : PhysReg) (s : State) : (spoil p s).haltAddress = s.haltAddress := writePhys_haltAddress p _ s
@[simp] theorem spoil_inputs (p : PhysReg) (s : State) : (spoil p s).inputs = s.inputs := writePhys_inputs p _ s
@[simp] theorem mayAdvance_spoil (p : PhysReg) (s : State) : mayAdvance (spoil p s) = mayAdvance s := mayAdvance_congr (spoil_pc _ s) (spoil_platform _ s)

end Sys2Proof.Machine
end

