-- ==== Sys2Proof/Laws/Registers.lean ====
section
/-! SUPPORT. Laws of the register file and of R15: a read after a write, the banks, the fields of the
words R15 is read as. -/

namespace Sys2Proof.Machine

/-! ## The register file -/

theorem readPhys_writePhys (p q : PhysReg) (v : Word) (s : State) :
    readPhys q (writePhys p v s) = if q = p then v else readPhys q s := by
  cases p <;> cases q <;> simp [readPhys, writePhys, Vector.getElem_set, Fin.ext_iff, eq_comm]

@[simp] theorem readPhys_writePhys_same (p : PhysReg) (v : Word) (s : State) :
    readPhys p (writePhys p v s) = v := by
  simp [readPhys_writePhys]

theorem readPhys_writePhys_ne {p q : PhysReg} (h : q ≠ p) (v : Word) (s : State) :
    readPhys q (writePhys p v s) = readPhys q s := by
  simp [readPhys_writePhys, h]

/-- In one mode two numbers name two registers (rule R22). -/
theorem phys_inj (m : Mode) (i j : Fin 15) : phys m i = phys m j ↔ i = j := by
  cases m <;> revert i j <;> decide

@[simp] theorem readX_writeX_same (i : Fin 15) (v : Word) (s : State) : readX i (writeX i v s) = v := by
  simp [readX, writeX]

theorem readX_writeX (i j : Fin 15) (v : Word) (s : State) :
    readX j (writeX i v s) = if j = i then v else readX j s := by
  simp [readX, writeX, readPhys_writePhys, phys_inj]

theorem readPhys_writeX (p : PhysReg) (i : Fin 15) (v : Word) (s : State) :
    readPhys p (writeX i v s) = if p = phys s.mode i then v else readPhys p s := by
  simp [writeX, readPhys_writePhys]

/-- Two states with the same registers, read one by one, have the same register file. -/
theorem banks_ext {s t : State} (h : ∀ p, readPhys p t = readPhys p s) :
    t.usr = s.usr ∧ t.fiq = s.fiq ∧ t.irq = s.irq ∧ t.svc = s.svc := by
  exact ⟨Vector.ext fun i hi => h (.usr ⟨i, hi⟩), Vector.ext fun i hi => h (.fiq ⟨i, hi⟩),
    Vector.ext fun i hi => h (.irq ⟨i, hi⟩), Vector.ext fun i hi => h (.svc ⟨i, hi⟩)⟩

/-! ## Mode bits -/

@[simp] theorem modeOfBits_modeBits (m : Mode) : modeOfBits (modeBits m) = m := by
  cases m <;> rfl

@[simp] theorem modeBits_modeOfBits (b : BitVec 2) : modeBits (modeOfBits b) = b := by
  revert b; decide

/-! ## The fields of R15 (rules R12, R24) -/

@[simp] theorem r15full_flagN (k : Addr) (s : State) : wordBit 31 (r15full k s) = s.flagN := by
  simp only [r15full, wordBit, BitVec.getLsbD_append]; simp

@[simp] theorem r15full_flagZ (k : Addr) (s : State) : wordBit 30 (r15full k s) = s.flagZ := by
  simp only [r15full, wordBit, BitVec.getLsbD_append]; simp

@[simp] theorem r15full_flagC (k : Addr) (s : State) : wordBit 29 (r15full k s) = s.flagC := by
  simp only [r15full, wordBit, BitVec.getLsbD_append]; simp

@[simp] theorem r15full_flagV (k : Addr) (s : State) : wordBit 28 (r15full k s) = s.flagV := by
  simp only [r15full, wordBit, BitVec.getLsbD_append]; simp

@[simp] theorem r15full_maskI (k : Addr) (s : State) : wordBit 27 (r15full k s) = s.maskI := by
  simp only [r15full, wordBit, BitVec.getLsbD_append]; simp

@[simp] theorem r15full_maskF (k : Addr) (s : State) : wordBit 26 (r15full k s) = s.maskF := by
  simp only [r15full, wordBit, BitVec.getLsbD_append]; simp

@[simp] theorem r15full_pc (k : Addr) (s : State) :
    (r15full k s).extractLsb' 2 24 = (pcAddr s + k).extractLsb' 2 24 := by
  ext i hi
  simp only [r15full, BitVec.getElem_extractLsb', BitVec.getLsbD_append]
  simp [show ¬ 2 + i < 2 by omega, show 2 + i - 2 = i by omega, hi]
  
@[simp] theorem r15full_mode (k : Addr) (s : State) : (r15full k s).extractLsb' 0 2 = modeBits s.mode := by
  ext i hi
  simp only [r15full, BitVec.getElem_extractLsb', BitVec.getLsbD_append]
  simp [hi]

/-- The byte address is four times the word address the PC holds (rule R26). -/
theorem pcAddr_toNat (s : State) : (pcAddr s).toNat = 4 * s.pc.toNat := by
  change (s.pc ++ 0#2 : BitVec (24 + 2)).toNat = _
  rw [BitVec.toNat_append]
  simp [Nat.shiftLeft_eq, Nat.mul_comm]

/-- The word address a few words ahead. -/
theorem pcAddr_add (s : State) (k : Nat) (hk : k < 8) :
    (pcAddr s + BitVec.ofNat 26 (4 * k)).extractLsb' 2 24 = s.pc + BitVec.ofNat 24 k := by
  apply BitVec.eq_of_toNat_eq
  have h := s.pc.isLt
  simp only [BitVec.extractLsb'_toNat, BitVec.toNat_add, pcAddr_toNat, BitVec.toNat_ofNat,
    Nat.shiftRight_eq_div_pow]
  omega

/-- The PC of the next instruction is pc + 4 (rule R27). -/
@[simp] theorem pcAddr_add_four (s : State) : (pcAddr s + 4).extractLsb' 2 24 = s.pc + 1 :=
  pcAddr_add s 1 (by omega)

/-- The word address of pc + 8. -/
@[simp] theorem pcAddr_add_eight (s : State) : (pcAddr s + 8).extractLsb' 2 24 = s.pc + 2 :=
  pcAddr_add s 2 (by omega)

/-- The word address of pc + 12. -/
@[simp] theorem pcAddr_add_twelve (s : State) : (pcAddr s + 12).extractLsb' 2 24 = s.pc + 3 :=
  pcAddr_add s 3 (by omega)

/-- The word address of the executing instruction. -/
@[simp] theorem pcAddr_word (s : State) : (pcAddr s).extractLsb' 2 24 = s.pc := by
  have h := pcAddr_add s 0 (by omega)
  simpa using h

end Sys2Proof.Machine
end

