-- ==== Sys2Proof/Laws/Memory.lean ====
section
/-! SUPPORT. Laws of memory: every operation keeps the canonical form, a read after a write, equal
readings make equal memories, bytes and words (spec/20_memory.md rules R52, R53, R67). -/

namespace Sys2Proof.Machine

/-! ## The canonical form -/

theorem Memory.wfFrom_cons_iff (low a : Nat) (v : Byte) (m : Memory) :
    Memory.wfFrom low ((a, v) :: m) = true ↔
      low ≤ a ∧ a < 0x4000000 ∧ v ≠ Memory.unlisted ∧ Memory.wfFrom (a + 1) m = true := by
  simp [Memory.wfFrom, and_assoc]

theorem Memory.wfFrom_mono {low low' : Nat} (h : low' ≤ low) {m : Memory} (hm : Memory.wfFrom low m = true) :
    Memory.wfFrom low' m = true := by
  cases m with
  | nil => rfl
  | cons c rest =>
    obtain ⟨a, v⟩ := c
    rw [Memory.wfFrom_cons_iff] at hm ⊢
    exact ⟨by omega, hm.2⟩

/-- Below its first address a memory lists nothing. -/
theorem Memory.read_below {low : Nat} {m : Memory} (hm : Memory.wfFrom low m = true) {a : Nat} (h : a < low) :
    Memory.read m a = Memory.unlisted := by
  cases m with
  | nil => rfl
  | cons c rest =>
    obtain ⟨b, v⟩ := c
    rw [Memory.wfFrom_cons_iff] at hm
    simp [Memory.read, show a ≠ b by omega, show a < b by omega]

theorem Memory.wfFrom_insert {low a : Nat} {m : Memory} (ha : low ≤ a) (hb : a < 0x4000000) (v : Byte)
    (hm : Memory.wfFrom (a + 1) m = true) : Memory.wfFrom low (Memory.cons a v m) = true := by
  unfold Memory.cons
  split
  · exact Memory.wfFrom_mono (by omega) hm
  · rw [Memory.wfFrom_cons_iff]; exact ⟨ha, hb, by assumption, hm⟩

theorem Memory.wfFrom_write {low : Nat} {m : Memory} (hm : Memory.wfFrom low m = true) {a : Nat}
    (ha : low ≤ a) (hb : a < 0x4000000) (v : Byte) : Memory.wfFrom low (Memory.write m a v) = true := by
  induction m generalizing low with
  | nil => exact Memory.wfFrom_insert ha hb v rfl
  | cons c rest ih =>
    obtain ⟨b, u⟩ := c
    rw [Memory.wfFrom_cons_iff] at hm
    obtain ⟨h1, h2, h3, h4⟩ := hm
    unfold Memory.write
    split
    · subst_vars; exact Memory.wfFrom_insert h1 h2 v h4
    · split
      · exact Memory.wfFrom_insert ha hb v
          (by rw [Memory.wfFrom_cons_iff]; exact ⟨by omega, h2, h3, h4⟩)
      · rw [Memory.wfFrom_cons_iff]; exact ⟨h1, h2, h3, ih h4 (by omega)⟩

/-- A write inside the address space keeps the canonical form. -/
theorem Memory.wf_write {m : Memory} (hm : Memory.wf m = true) {a : Nat} (ha : a < 0x4000000) (v : Byte) :
    Memory.wf (Memory.write m a v) = true :=
  Memory.wfFrom_write hm (Nat.zero_le a) ha v

/-- A word write inside the address space keeps the canonical form. -/
theorem Memory.wf_writeWord {m : Memory} (hm : Memory.wf m = true) (o : ByteOrder) {a : Nat} (ha : a + 3 < 0x4000000)
    (v : Word) : Memory.wf (Memory.writeWord m o a v) = true :=
  Memory.wf_write (Memory.wf_write (Memory.wf_write (Memory.wf_write hm (by omega) _) (by omega) _)
    (by omega) _) (by omega) _

/-- The memory of the reset state has the canonical form. -/
theorem Memory.wf_reset : Memory.wf State.reset.mem = true := rfl

/-! ## A read after a write -/

theorem Memory.read_cons {a : Nat} (v : Byte) {m : Memory} (hm : Memory.wfFrom (a + 1) m = true) (b : Nat) :
    Memory.read (Memory.cons a v m) b = if b = a then v else Memory.read m b := by
  unfold Memory.cons
  split
  · split
    · subst_vars; exact Memory.read_below hm (by omega)
    · rfl
  · by_cases h : b = a
    · simp [Memory.read, h]
    · by_cases h' : b < a
      · simp [Memory.read, h, h', Memory.read_below hm (show b < a + 1 by omega)]
      · simp [Memory.read, h, h']

theorem Memory.read_writeFrom {low : Nat} {m : Memory} (hm : Memory.wfFrom low m = true) (a : Nat) (v : Byte)
    (b : Nat) : Memory.read (Memory.write m a v) b = if b = a then v else Memory.read m b := by
  induction m generalizing low with
  | nil => exact Memory.read_cons (m := []) v rfl b
  | cons c rest ih =>
    obtain ⟨k, u⟩ := c
    have hm' := hm
    rw [Memory.wfFrom_cons_iff] at hm'
    obtain ⟨h1, h2, h3, h4⟩ := hm'
    unfold Memory.write
    split
    · rename_i hak
      subst hak
      rw [Memory.read_cons v h4 b]
      split
      · rfl
      · by_cases h : b < a
        · simp [Memory.read, h, show b ≠ a by omega, Memory.read_below h4 (show b < a + 1 by omega)]
        · simp [Memory.read, h, show b ≠ a by omega]
    · split
      · exact Memory.read_cons v (by rw [Memory.wfFrom_cons_iff]; exact ⟨by omega, h2, h3, h4⟩) b
      · by_cases hb : b = k
        · simp [Memory.read, hb, show k ≠ a by omega]
        · by_cases hb' : b < k
          · simp [Memory.read, hb, hb', show b ≠ a by omega]
          · simp [Memory.read, hb, hb', ih h4]

/-- A read after a write of one byte. -/
theorem Memory.read_write {m : Memory} (hm : Memory.wf m = true) (a : Nat) (v : Byte) (b : Nat) :
    Memory.read (Memory.write m a v) b = if b = a then v else Memory.read m b :=
  Memory.read_writeFrom hm a v b

/-- A read after a write of one word: its four bytes, little-endian, and every other byte as before. -/
theorem Memory.read_writeWord {m : Memory} (hm : Memory.wf m = true) (o : ByteOrder) {a : Nat} (ha : a + 3 < 0x4000000)
    (v : Word) (b : Nat) :
    Memory.read (Memory.writeWord m o a v) b =
      if b = a then byteOfWord 0 v else if b = a + 1 then byteOfWord 1 v
      else if b = a + 2 then byteOfWord 2 v else if b = a + 3 then byteOfWord 3 v else Memory.read m b := by
  have h0 := Memory.wf_write hm (show a < 0x4000000 by omega) (byteOfWord 0 v)
  have h1 := Memory.wf_write h0 (show a + 1 < 0x4000000 by omega) (byteOfWord 1 v)
  have h2 := Memory.wf_write h1 (show a + 2 < 0x4000000 by omega) (byteOfWord 2 v)
  simp only [Memory.writeWord]
  rw [Memory.read_write h2, Memory.read_write h1, Memory.read_write h0, Memory.read_write hm]
  split_ifs <;> first | rfl | omega

/-- The four bytes of a word make it again (rule R52). -/
theorem wordOfBytes_byteOfWord (w : Word) :
    wordOfBytes (byteOfWord 0 w) (byteOfWord 1 w) (byteOfWord 2 w) (byteOfWord 3 w) = w := by
  apply BitVec.eq_of_getLsbD_eq
  intro i hi
  have byte (k j : Nat) (hj : j < 8) (hk : 8 * k + j = i) :
      (w.extractLsb' (8 * k) 8).getLsbD j = w.getLsbD i := by
    simp [hj, hk]
  simp only [wordOfBytes, byteOfWord, BitVec.getLsbD_append]
  split_ifs
  · exact byte 0 _ (by omega) (by omega)
  · exact byte 1 _ (by omega) (by omega)
  · exact byte 2 _ (by omega) (by omega)
  · exact byte 3 _ (by omega) (by omega)

/-- A word read after it was written (rule R53). -/
theorem Memory.readWord_writeWord {m : Memory} (hm : Memory.wf m = true) (o : ByteOrder) {a : Nat}
    (ha : a + 3 < 0x4000000) (v : Word) : Memory.readWord (Memory.writeWord m o a v) o a = v := by
  simp only [Memory.readWord, Memory.read_writeWord hm o ha]
  simp [wordOfBytes_byteOfWord]

/-! ## Equal readings make equal memories -/

theorem Memory.eq_of_readFrom {low : Nat} {m m' : Memory} (hm : Memory.wfFrom low m = true)
    (hm' : Memory.wfFrom low m' = true) (h : ∀ a, Memory.read m a = Memory.read m' a) : m = m' := by
  induction m generalizing low m' with
  | nil =>
    cases m' with
    | nil => rfl
    | cons c rest =>
      obtain ⟨b, v⟩ := c
      rw [Memory.wfFrom_cons_iff] at hm'
      exact absurd (by simpa [Memory.read] using (h b).symm) hm'.2.2.1
  | cons c rest ih =>
    obtain ⟨a, v⟩ := c
    rw [Memory.wfFrom_cons_iff] at hm
    cases m' with
    | nil => exact absurd (by simpa [Memory.read] using h a) hm.2.2.1
    | cons c' rest' =>
      obtain ⟨b, u⟩ := c'
      rw [Memory.wfFrom_cons_iff] at hm'
      rcases Nat.lt_trichotomy a b with hlt | rfl | hlt
      · exact absurd (by simpa [Memory.read, hlt, show a ≠ b by omega] using h a) hm.2.2.1
      · have hv : v = u := by simpa [Memory.read] using h a
        subst hv
        congr 1
        refine ih hm.2.2.2 hm'.2.2.2 fun k => ?_
        by_cases hk : k < a + 1
        · rw [Memory.read_below hm.2.2.2 hk, Memory.read_below hm'.2.2.2 hk]
        · simpa [Memory.read, show k ≠ a by omega, show ¬ k < a by omega] using h k
      · exact absurd (by simpa [Memory.read, hlt, show b ≠ a by omega] using (h b).symm) hm'.2.2.1

/-- In the canonical form equal readings make equal memories. -/
theorem Memory.eq_of_read {m m' : Memory} (hm : Memory.wf m = true) (hm' : Memory.wf m' = true)
    (h : ∀ a, Memory.read m a = Memory.read m' a) : m = m' :=
  Memory.eq_of_readFrom hm hm' h

end Sys2Proof.Machine
end

