-- ==== Sys2Proof/Laws/Ops.lean ====
section
/-! SUPPORT. One lemma for each shared operation of Machine/Ops.lean and Machine/Flags.lean: what it can
do, said once. Proofs cite these and do not unfold the operations. -/

namespace Sys2Proof.Machine

/-! ## The frame of an instruction -/

/-- Sequential wrap-around, or a word of memory above the PC: the PC may go on (rule R28). -/
theorem mayAdvance_of {s : State} (h : s.platform.pcWrap = .wrap ∨ s.pc ≠ 0xFFFFFF) : mayAdvance s = true := by
  simpa [mayAdvance] using h

/-- An instruction that assigns the PC, or whose PC may go on, ends in a next state (rules R14, R100). -/
theorem conclude_of {b : Bool} {s : State} (h : b = false → mayAdvance s = true) :
    conclude b s = .next (concluded b s) := by
  cases b
  · simp [conclude, proceed, concluded, h rfl]
  · rfl

/-- All that the end of an instruction can be. -/
theorem conclude_next {b : Bool} {s t : State} (h : conclude b s = .next t) :
    (b = false → mayAdvance s = true) ∧ t = concluded b s := by
  cases b
  · simp only [conclude, proceed, Bool.false_eq_true, if_false] at h
    split at h
    · rename_i hm; cases h; exact ⟨fun _ => hm, rfl⟩
    · cases h
  · cases h; exact ⟨fun h => (by cases h), rfl⟩

/-- A failing condition only advances the PC (rules R30, R81). -/
theorem conditional_failed {c : Cond} {s : State} (h : condPassed c s = false) (named : List Reg)
    (body : State → Result) : conditional c named body s = proceed (clearHazard s) := by
  simp [conditional, h]

/-- A failing condition answers a next state where the PC may go on (rules R28, R30, R81). -/
theorem conditional_skips {c : Cond} {s : State} (h : condPassed c s = false) (hm : mayAdvance s = true)
    (named : List Reg) (body : State → Result) : conditional c named body s = .next (advance (clearHazard s)) := by
  rw [conditional_failed h]
  exact conclude_of (b := false) fun _ => (mayAdvance_clearHazard s).trans hm

/-- The condition passes and a named register is hazardous: refused (rules R266, R267). -/
theorem conditional_hazard {c : Cond} {s : State} {named : List Reg} (h : condPassed c s = true)
    (hz : hazardHit named s = true) (body : State → Result) :
    conditional c named body s = .refused .bankedRegisterHazard := by
  simp [conditional, h, hz]

/-- The condition passes and no named register is hazardous: the body runs, the hazard behind it. -/
theorem conditional_passed {c : Cond} {s : State} {named : List Reg} (h : condPassed c s = true)
    (hz : hazardHit named s = false) (body : State → Result) :
    conditional c named body s = body (clearHazard s) := by
  simp [conditional, h, hz]

/-- All that an instruction answering a next state can have done. -/
theorem conditional_next {c : Cond} {named : List Reg} {body : State → Result} {s t : State}
    (h : conditional c named body s = .next t) :
    (condPassed c s = false ∧ t = advance (clearHazard s)) ∨
      (condPassed c s = true ∧ hazardHit named s = false ∧ body (clearHazard s) = .next t) := by
  cases hc : condPassed c s with
  | false => rw [conditional_failed hc] at h; exact .inl ⟨rfl, (conclude_next (b := false) h).2⟩
  | true =>
    cases hz : hazardHit named s with
    | true => rw [conditional_hazard hc hz] at h; cases h
    | false => rw [conditional_passed hc hz] at h; exact .inr ⟨rfl, rfl, h⟩

@[simp] theorem condPassed_clearHazard (c : Cond) (s : State) : condPassed c (clearHazard s) = condPassed c s := by
  cases c <;> rfl

/-- Without a hazard nothing is hit. -/
theorem hazardHit_none {s : State} (h : s.hazard = none) (named : List Reg) : hazardHit named s = false := by
  simp [hazardHit, h]

@[simp] theorem hazardHit_nil (s : State) : hazardHit [] s = false := by
  unfold hazardHit; split <;> rfl

/-! ## The flags -/

@[simp] theorem setFlags_flagN (out : AluOut) (c : Bool) (s : State) :
    (setFlags out c s).flagN = (aluValue out).msb := by cases out <;> rfl

@[simp] theorem setFlags_flagZ (out : AluOut) (c : Bool) (s : State) :
    (setFlags out c s).flagZ = decide (aluValue out = 0) := by cases out <;> rfl

@[simp] theorem setFlags_logical_flagC (v : Word) (c : Bool) (s : State) :
    (setFlags (.logical v) c s).flagC = c := rfl

@[simp] theorem setFlags_logical_flagV (v : Word) (c : Bool) (s : State) :
    (setFlags (.logical v) c s).flagV = s.flagV := rfl

@[simp] theorem setFlags_arith_flagC (r : Sum) (c : Bool) (s : State) :
    (setFlags (.arith r) c s).flagC = r.carry := rfl

@[simp] theorem setFlags_arith_flagV (r : Sum) (c : Bool) (s : State) :
    (setFlags (.arith r) c s).flagV = r.overflow := rfl

/-- The value of a sum is the sum of the words (rule R15). -/
theorem addWithCarry_value (a b : Word) (c : Bool) :
    (addWithCarry a b c).value = a + b + BitVec.ofNat 32 c.toNat := by
  apply BitVec.eq_of_toNat_eq
  simp [addWithCarry, BitVec.toNat_add]

/-! ## The PSR (rules R12, R25) -/

/-- In user mode a write of the PSR leaves I, F and M. -/
theorem setPSR_user {s : State} (h : s.mode = .usr) (v : Word) :
    (setPSR v s).maskI = s.maskI ∧ (setPSR v s).maskF = s.maskF ∧ (setPSR v s).mode = .usr := by
  simp [setPSR, h]

/-- Outside user mode a write of the PSR takes I, F and M from the word. -/
theorem setPSR_privileged {s : State} (h : s.mode ≠ .usr) (v : Word) :
    (setPSR v s).maskI = wordBit 27 v ∧ (setPSR v s).maskF = wordBit 26 v ∧
      (setPSR v s).mode = modeOfBits (v.extractLsb' 0 2) := by
  cases hm : s.mode <;> simp_all [setPSR]

@[simp] theorem restoreR15_pc (v : Word) (s : State) : (restoreR15 v s).pc = v.extractLsb' 2 24 := by
  simp [restoreR15, setPC]

@[simp] theorem restoreR15_mem (v : Word) (s : State) : (restoreR15 v s).mem = s.mem := by
  simp [restoreR15]

@[simp] theorem restoreR15_hazard (v : Word) (s : State) : (restoreR15 v s).hazard = s.hazard := by
  simp [restoreR15]

@[simp] theorem restoreR15_freeCount (v : Word) (s : State) : (restoreR15 v s).freeCount = s.freeCount := by
  simp [restoreR15]

@[simp] theorem restoreR15_platform (v : Word) (s : State) : (restoreR15 v s).platform = s.platform := by
  simp [restoreR15]

@[simp] theorem restoreR15_haltAddress (v : Word) (s : State) : (restoreR15 v s).haltAddress = s.haltAddress := by
  simp [restoreR15]

@[simp] theorem restoreR15_inputs (v : Word) (s : State) : (restoreR15 v s).inputs = s.inputs := by
  simp [restoreR15]

@[simp] theorem readPhys_restoreR15 (p : PhysReg) (v : Word) (s : State) :
    readPhys p (restoreR15 v s) = readPhys p s := by
  simp [restoreR15]

/-! ## Free values (rule R14) -/

/-- Giving a register a free value leaves every other register. -/
theorem readPhys_spoil_ne {p q : PhysReg} (h : q ≠ p) (s : State) : readPhys q (spoil p s) = readPhys q s := by
  have e : readPhys q (spoil p s) = readPhys q (writePhys p (Config.freeWord s.freeCount) s) := by
    cases q <;> rfl
  rw [e, readPhys_writePhys_ne h]

/-- The register itself holds the free value drawn. -/
theorem readPhys_spoil_same (p : PhysReg) (s : State) :
    readPhys p (spoil p s) = Config.freeWord s.freeCount := by
  have e : readPhys p (spoil p s) = readPhys p (writePhys p (Config.freeWord s.freeCount) s) := by
    cases p <;> rfl
  rw [e, readPhys_writePhys_same]

@[simp] theorem spoil_freeCount' (p : PhysReg) (s : State) : (spoil p s).freeCount = s.freeCount + 1 := rfl

/-- What a failed transfer can leave in its base register, by the value of `abort_side_effects` (D20). -/
theorem failedBase_cases (i : Fin 15) (kept written : Word) (s : State) :
    (s.platform.abortSideEffects.base = .any ∧ failedBase (.gpr i) kept written s = spoil (phys s.mode i) s) ∨
      (s.platform.abortSideEffects.base = .kept ∧ failedBase (.gpr i) kept written s = writeX i kept s) ∨
      (s.platform.abortSideEffects.base = .writtenBack ∧ failedBase (.gpr i) kept written s = writeX i written s) := by
  unfold failedBase
  cases s.platform.abortSideEffects.base <;> simp

@[simp] theorem failedBase_r15 (kept written : Word) (s : State) : failedBase .r15 kept written s = s := rfl

/-- All that giving a list of registers free values leaves alone. -/
theorem spoilAll_frame (ps : List PhysReg) (s : State) :
    (∀ p, p ∉ ps → readPhys p (spoilAll ps s) = readPhys p s) ∧
      (spoilAll ps s).pc = s.pc ∧ (spoilAll ps s).flagN = s.flagN ∧ (spoilAll ps s).flagZ = s.flagZ ∧
      (spoilAll ps s).flagC = s.flagC ∧ (spoilAll ps s).flagV = s.flagV ∧
      (spoilAll ps s).maskI = s.maskI ∧ (spoilAll ps s).maskF = s.maskF ∧
      (spoilAll ps s).mode = s.mode ∧ (spoilAll ps s).mem = s.mem ∧
      (spoilAll ps s).hazard = s.hazard ∧
      (spoilAll ps s).freeCount = s.freeCount + ps.length ∧ (spoilAll ps s).platform = s.platform ∧
      (spoilAll ps s).haltAddress = s.haltAddress ∧ (spoilAll ps s).inputs = s.inputs := by
  induction ps generalizing s with
  | nil => simp [spoilAll]
  | cons p rest ih =>
    obtain ⟨hr, h⟩ := ih (spoil p s)
    refine ⟨fun q hq => ?_, by simpa [spoilAll, Nat.add_assoc, Nat.add_comm 1] using h⟩
    rw [List.mem_cons, not_or] at hq
    rw [spoilAll, hr q hq.2, readPhys_spoil_ne hq.1]

/-! ## Exceptions (rules R223, R224) -/

@[simp] theorem takeException_pc (e : Exception) (s : State) : (takeException e s).pc = exceptionVector e := rfl
@[simp] theorem takeException_flagN (e : Exception) (s : State) : (takeException e s).flagN = s.flagN := by
  simp [takeException]
@[simp] theorem takeException_flagZ (e : Exception) (s : State) : (takeException e s).flagZ = s.flagZ := by
  simp [takeException]
@[simp] theorem takeException_flagC (e : Exception) (s : State) : (takeException e s).flagC = s.flagC := by
  simp [takeException]
@[simp] theorem takeException_flagV (e : Exception) (s : State) : (takeException e s).flagV = s.flagV := by
  simp [takeException]
@[simp] theorem takeException_maskI (e : Exception) (s : State) : (takeException e s).maskI = true := rfl
@[simp] theorem takeException_maskF (e : Exception) (s : State) :
    (takeException e s).maskF = (s.maskF || exceptionMasksFiq e) := rfl
@[simp] theorem takeException_mode (e : Exception) (s : State) : (takeException e s).mode = exceptionMode e := by
  simp [takeException]
@[simp] theorem takeException_mem (e : Exception) (s : State) : (takeException e s).mem = s.mem := by
  simp [takeException]
@[simp] theorem takeException_hazard (e : Exception) (s : State) : (takeException e s).hazard = none := rfl
@[simp] theorem takeException_freeCount (e : Exception) (s : State) : (takeException e s).freeCount = s.freeCount := by
  simp [takeException]
@[simp] theorem takeException_platform (e : Exception) (s : State) : (takeException e s).platform = s.platform := by
  simp [takeException]
@[simp] theorem takeException_haltAddress (e : Exception) (s : State) :
    (takeException e s).haltAddress = s.haltAddress := by simp [takeException]
@[simp] theorem takeException_inputs (e : Exception) (s : State) : (takeException e s).inputs = s.inputs := by
  simp [takeException]

/-- R14 of the mode entered holds the saved word, every other register is as before. -/
theorem readPhys_takeException (p : PhysReg) (e : Exception) (s : State) :
    readPhys p (takeException e s) =
      if p = phys (exceptionMode e) 14 then r15full (exceptionLink e) s else readPhys p s := by
  have e1 : readPhys p (takeException e s)
      = readPhys p (writePhys (phys (exceptionMode e) 14) (r15full (exceptionLink e) s)
          { s with mode := exceptionMode e }) := by cases p <;> rfl
  have e2 : readPhys p { s with mode := exceptionMode e } = readPhys p s := by cases p <;> rfl
  rw [e1, readPhys_writePhys, e2]

/-! ## The bus -/

/-- A granted access is not refused by the memory manager, every byte of it may be accessed, and it is no
store into a prefetched word. -/
theorem checkBus_granted {a : Addr} {n : AccessSize} {k : AccessKind} {tr : Bool} {s : State} :
    checkBus a n k tr s = .granted ↔
      abortOracle a n k tr s = false ∧ cellStop a n k s = none ∧ storesIntoPrefetched a k s = false := by
  unfold checkBus
  cases abortOracle a n k tr s <;> cases cellStop a n k s <;> cases storesIntoPrefetched a k s <;> simp

/-- Why the bus stops an access: the memory map, or a store into a prefetched word (rules R53, R66). -/
theorem checkBus_stop {a : Addr} {n : AccessSize} {k : AccessKind} {tr : Bool} {s : State} {why : Refusal} :
    checkBus a n k tr s = .stop why ↔ abortOracle a n k tr s = false ∧
      (cellStop a n k s = some why ∨
        (cellStop a n k s = none ∧ storesIntoPrefetched a k s = true ∧ why = .storeIntoPrefetched)) := by
  unfold checkBus
  cases abortOracle a n k tr s <;> cases cellStop a n k s <;> cases storesIntoPrefetched a k s <;> simp [eq_comm]

/-- The bus looks at the inputs, the mode, the memory map and the PC, at nothing else. -/
theorem checkBus_congr {s t : State} (hi : t.inputs = s.inputs) (hm : t.mode = s.mode)
    (hp : t.platform = s.platform) (hpc : t.pc = s.pc) (a : Addr) (n : AccessSize) (k : AccessKind) (tr : Bool) :
    checkBus a n k tr t = checkBus a n k tr s := by
  have h1 : abortOracle a n k tr t = abortOracle a n k tr s := by simp only [abortOracle, currentInput, hi, hm]
  have h2 : cellStop a n k t = cellStop a n k s := by simp only [cellStop, hp]
  have h3 : storesIntoPrefetched a k t = storesIntoPrefetched a k s := by simp only [storesIntoPrefetched, hpc]
  rw [checkBus, h1, h2, h3, checkBus]

/-- A word is accessed at a multiple of four (rule R54). -/
theorem busAddress_word_toNat (addr : Word) :
    (busAddress addr .word).toNat = 4 * ((addr.extractLsb' 2 24).toNat) := by
  change (BitVec.append (addr.extractLsb' 2 24) 0#2).toNat = _
  have := BitVec.toNat_append (addr.extractLsb' 2 24) (0#2)
  simp only [HAppend.hAppend] at this
  rw [this]
  simp [Nat.shiftLeft_eq]
  omega

/-- The four bytes of a word access are inside the 2^26 bytes of the address space. -/
theorem busAddress_word_lt (addr : Word) : (busAddress addr .word).toNat + 3 < 0x4000000 := by
  have := (addr.extractLsb' 2 24).isLt
  rw [busAddress_word_toNat]
  omega

/-- A word store inside the address space keeps the canonical form of memory. -/
theorem storeWord_wf {s : State} (h : s.mem.wf = true) (addr v : Word) :
    (storeWord (busAddress addr .word) v s).mem.wf = true := by
  rw [storeWord_mem]; exact Memory.wf_writeWord h _ (busAddress_word_lt addr) v

/-- The word at an address depends on the byte order and its four bytes alone. -/
theorem loadWord_congr {a : Addr} {s t : State} (hp : t.platform = s.platform)
    (h : ∀ k < 4, t.mem.read (a.toNat + k) = s.mem.read (a.toNat + k)) : loadWord a t = loadWord a s := by
  have h0 := h 0 (by decide)
  rw [Nat.add_zero] at h0
  rw [loadWord, loadWord, hp]
  cases s.platform.byteOrder
  simp only [Memory.readWord, h0, h 1 (by decide), h 2 (by decide), h 3 (by decide)]

/-- The word at an address depends on the byte order and memory alone. -/
theorem loadWord_of_mem {a : Addr} {s t : State} (hp : t.platform = s.platform) (hm : t.mem = s.mem) :
    loadWord a t = loadWord a s := loadWord_congr hp fun _ _ => by rw [hm]

/-- The word a fetch reads (rule R55). -/
theorem loadWord_pcAddr (s : State) : loadWord (pcAddr s) s = s.mem.readWord s.platform.byteOrder (4 * s.pc.toNat) := by
  rw [loadWord, pcAddr_toNat]

@[simp] theorem loadWord_clearHazard (a : Addr) (s : State) : loadWord a (clearHazard s) = loadWord a s := rfl
@[simp] theorem loadWord_dropInput (a : Addr) (s : State) : loadWord a (dropInput s) = loadWord a s := rfl
@[simp] theorem loadWord_advance (a : Addr) (s : State) : loadWord a (advance s) = loadWord a s := rfl
@[simp] theorem loadWord_setPC (a : Addr) (v : Word) (s : State) : loadWord a (setPC v s) = loadWord a s := rfl
@[simp] theorem loadWord_writePhys (a : Addr) (p : PhysReg) (v : Word) (s : State) :
    loadWord a (writePhys p v s) = loadWord a s := loadWord_of_mem (writePhys_platform p v s) (writePhys_mem p v s)
@[simp] theorem loadWord_writeX (a : Addr) (i : Fin 15) (v : Word) (s : State) :
    loadWord a (writeX i v s) = loadWord a s := loadWord_writePhys a _ v s
@[simp] theorem loadWord_takeException (a : Addr) (e : Exception) (s : State) :
    loadWord a (takeException e s) = loadWord a s := loadWord_of_mem (takeException_platform e s) (takeException_mem e s)

/-- A word read after it was stored (rule R53). -/
theorem loadWord_storeWord {s : State} (h : s.mem.wf = true) (addr v : Word) :
    loadWord (busAddress addr .word) (storeWord (busAddress addr .word) v s) = v := by
  rw [loadWord, storeWord_mem, storeWord_platform]
  exact Memory.readWord_writeWord h _ (busAddress_word_lt addr) v

/-- A byte store keeps the canonical form of memory. -/
theorem storeByte_wf {s : State} (h : s.mem.wf = true) (a : Addr) (v : Byte) : (storeByte a v s).mem.wf = true := by
  rw [storeByte_mem]; exact Memory.wf_write h a.isLt v

end Sys2Proof.Machine
end

