-- ==== Sys2Proof/Laws/Operands.lean ====
section
/-! SUPPORT. What the operands are after the small updates: clearing the hazard changes no operand, no
address and no access. -/

namespace Sys2Proof.Machine

@[simp] theorem pcAddr_clearHazard (s : State) : pcAddr (clearHazard s) = pcAddr s := rfl

@[simp] theorem r15full_clearHazard (k : Addr) (s : State) : r15full k (clearHazard s) = r15full k s := rfl

@[simp] theorem r15pc_clearHazard (k : Addr) (s : State) : r15pc k (clearHazard s) = r15pc k s := rfl

@[simp] theorem readRn_clearHazard (k : Addr) (r : Reg) (s : State) : readRn k r (clearHazard s) = readRn k r s := by
  cases r <;> simp [readRn]

@[simp] theorem readRm_clearHazard (k : Addr) (r : Reg) (s : State) : readRm k r (clearHazard s) = readRm k r s := by
  cases r <;> simp [readRm]

@[simp] theorem readStored_clearHazard (r : Reg) (s : State) : readStored r (clearHazard s) = readStored r s := by
  cases r <;> simp [readStored]

@[simp] theorem shiftByRegister_clearHazard (t : ShiftType) (rs : Reg) (v : Word) (s : State) :
    shiftByRegister t rs v (clearHazard s) = shiftByRegister t rs v s := by
  cases rs <;> rfl

@[simp] theorem operand2_clearHazard (o : Operand2) (s : State) : operand2 o (clearHazard s) = operand2 o s := by
  unfold operand2
  simp only [clearHazard_flagC, readRm_clearHazard, shiftByRegister_clearHazard]

@[simp] theorem offsetValue_clearHazard (o : Offset) (s : State) : offsetValue o (clearHazard s) = offsetValue o s := by
  unfold offsetValue
  simp only [clearHazard_flagC, readX_clearHazard, shiftByRegister_clearHazard]

@[simp] theorem sdtForbidden_clearHazard (op : SdtOp) (h : SdtHead) (s : State) :
    sdtForbidden op h (clearHazard s) = sdtForbidden op h s := rfl

@[simp] theorem misalignedRefused_clearHazard (a : Word) (n : AccessSize) (s : State) :
    misalignedRefused a n (clearHazard s) = misalignedRefused a n s := rfl

@[simp] theorem blockForbidden_clearHazard (h : BlockHead) (b : Bool) (s : State) :
    blockForbidden h b (clearHazard s) = blockForbidden h b s := by
  rw [blockForbidden, readRn_clearHazard]; rfl

@[simp] theorem indexedAddress_clearHazard (h : SdtHead) (x : Word) (s : State) :
    indexedAddress h x (clearHazard s) = indexedAddress h x s := by
  simp only [indexedAddress, readRn_clearHazard]

@[simp] theorem transferAddress_clearHazard (h : SdtHead) (x : Word) (s : State) :
    transferAddress h x (clearHazard s) = transferAddress h x s := by
  simp only [transferAddress, indexedAddress_clearHazard, readRn_clearHazard]

@[simp] theorem checkBus_clearHazard (a : Addr) (n : AccessSize) (k : AccessKind) (tr : Bool) (s : State) :
    checkBus a n k tr (clearHazard s) = checkBus a n k tr s :=
  checkBus_congr rfl rfl rfl rfl a n k tr

@[simp] theorem bankMode_clearHazard (b : Bool) (s : State) : bankMode b (clearHazard s) = bankMode b s := rfl

/-- An address is illegal exactly when it is 0x4000000 or more (rule R57). -/
theorem addressIllegal_iff (a : Word) : addressIllegal a = true ↔ 0x4000000 ≤ a.toNat := by
  have e : (a.extractLsb' 26 6).toNat = a.toNat / 0x4000000 := by
    have := a.isLt
    simp only [BitVec.extractLsb'_toNat, Nat.shiftRight_eq_div_pow]
    omega
  simp only [addressIllegal, decide_eq_true_eq, ne_eq]
  rw [← BitVec.toNat_inj, e]
  change ¬ (a.toNat / 0x4000000 = 0) ↔ _
  omega

/-- An address is legal exactly when it is below 0x4000000 (rule R57). -/
theorem addressIllegal_false_iff (a : Word) : addressIllegal a = false ↔ a.toNat < 0x4000000 := by
  rw [← Bool.not_eq_true, addressIllegal_iff]; omega

/-- A legal address is the byte address on the bus (rule R54). -/
theorem busAddress_byte_toNat {a : Word} (h : a.toNat < 0x4000000) : (busAddress a .byte).toNat = a.toNat := by
  simp only [busAddress, BitVec.extractLsb'_toNat, Nat.shiftRight_zero]
  omega

/-- A legal address with bits 1:0 cleared is the word address on the bus (rule R54). -/
theorem busAddress_word_of_legal {a : Word} (h : a.toNat < 0x4000000) :
    (busAddress a .word).toNat = 4 * (a.toNat / 4) := by
  rw [busAddress_word_toNat]
  simp only [BitVec.extractLsb'_toNat, Nat.shiftRight_eq_div_pow]
  omega

end Sys2Proof.Machine
end

