-- ==== Sys2Proof/Laws/DataProcessing.lean ====
section
/-! SUPPORT. All that a data-processing instruction can do, said once (spec/41_data_processing.md rule R121). -/

namespace Sys2Proof.Machine

/-- An operation that does not assign the PC leaves it (rule R27). -/
theorem dpWrite_pc {op : DpOp} {h : DpHead} (ha : dpAssignsPc op h = false) (out : AluOut) (c : Bool) (s : State) :
    (dpWrite op h out c s).pc = s.pc := by
  unfold dpWrite writePsrOnly
  split <;> simp_all [dpAssignsPc]

/-- What a data-processing instruction writes leaves memory, the platform and the free values alone. -/
theorem dpWrite_frame (op : DpOp) (h : DpHead) (out : AluOut) (c : Bool) (s : State) :
    (dpWrite op h out c s).mem = s.mem ∧ (dpWrite op h out c s).platform = s.platform ∧
      (dpWrite op h out c s).haltAddress = s.haltAddress ∧ (dpWrite op h out c s).inputs = s.inputs ∧
      (dpWrite op h out c s).freeCount = s.freeCount := by
  unfold dpWrite writePsrOnly
  split <;> simp

/-- An operation that does not assign the PC leaves it free to go on. -/
theorem mayAdvance_dpWrite {op : DpOp} {h : DpHead} (ha : dpAssignsPc op h = false) {out : AluOut} {c : Bool}
    {s : State} : mayAdvance (dpWrite op h out c s) = mayAdvance s :=
  mayAdvance_congr (dpWrite_pc ha out c s) (dpWrite_frame op h out c s).2.1

/-- A data-processing instruction that runs answers the write of its result. -/
theorem dataProcessing_runs {op : DpOp} {h : DpHead} {o : Operand2} {b : Shifted} {s : State}
    (hr : DpRuns op h o b s) : dataProcessing op h o s = .next (concluded (dpAssignsPc op h)
      (dpWrite op h (alu op (operand1 h o s) b.value s.flagC) b.carry (clearHazard s))) := by
  obtain ⟨hc, hz, ho, hm⟩ := hr
  rw [dataProcessing, conditional_passed hc hz, dpBody, operand2_clearHazard, ho]
  simp only [readRn_clearHazard, clearHazard_flagC, operand1]
  exact conclude_of fun ha => by rw [mayAdvance_dpWrite ha, mayAdvance_clearHazard, hm ha]

/-- An operand 2 the spec or a parameter refuses is refused under its name (rules R122, R132). -/
theorem dataProcessing_refused {op : DpOp} {h : DpHead} {o : Operand2} {s : State} {why : Refusal}
    (ho : operand2 o s = .error why) (hc : condPassed h.cond s = true)
    (hz : hazardHit (dpRegisters op h o) s = false) : dataProcessing op h o s = .refused why := by
  rw [dataProcessing, conditional_passed hc hz, dpBody, operand2_clearHazard, ho]

/-- A shift by the amount in R15 is refused (rule R122). -/
theorem dataProcessing_r15Amount {op : DpOp} {h : DpHead} {o : ShiftRegOperand} {s : State} (ho : o.rs = .r15)
    (hc : condPassed h.cond s = true) (hz : hazardHit (dpRegisters op h (.shiftReg o)) s = false) :
    dataProcessing op h (.shiftReg o) s = .refused .r15AsShiftAmount :=
  dataProcessing_refused (by simp [operand2, shiftByRegister, ho]) hc hz

/-- All that a data-processing instruction answering a next state can have done. -/
theorem dataProcessing_next {op : DpOp} {h : DpHead} {o : Operand2} {s t : State}
    (hn : dataProcessing op h o s = .next t) :
    (condPassed h.cond s = false ∧ t = advance (clearHazard s)) ∨
      ∃ b, DpRuns op h o b s ∧ t = concluded (dpAssignsPc op h)
        (dpWrite op h (alu op (operand1 h o s) b.value s.flagC) b.carry (clearHazard s)) := by
  rcases conditional_next hn with hf | ⟨hc, hz, hb⟩
  · exact .inl hf
  · refine .inr ?_
    unfold dpBody at hb
    rw [operand2_clearHazard] at hb
    split at hb
    · cases hb
    · rename_i b ho
      have hr : DpRuns op h o b s := ⟨hc, hz, ho, fun ha => by
        have := (conclude_next hb).1 ha
        rwa [mayAdvance_dpWrite ha, mayAdvance_clearHazard] at this⟩
      rw [dataProcessing_runs hr] at hn
      cases hn
      exact ⟨b, hr, rfl⟩

/-- A write of the PSR, in the terms of the claims (rules R12, R25). -/
theorem psrWritten_setPSR (v : Word) (s : State) : PsrWritten v s (setPSR v s) := by
  refine ⟨setPSR_flagN v s, setPSR_flagZ v s, setPSR_flagC v s, setPSR_flagV v s, fun h => ?_, fun h => ?_⟩
  · obtain ⟨h1, h2, h3⟩ := setPSR_user h v
    exact ⟨h1, h2, h3.trans h.symm⟩
  · obtain ⟨h1, h2, h3⟩ := setPSR_privileged h v
    exact ⟨h1, h2, by rw [h3, modeBits_modeOfBits]⟩

/-- A write of R15 with its PSR, in the terms of the claims (rules R12, R141). -/
theorem psrWritten_restoreR15 (v : Word) (s : State) : PsrWritten v s (restoreR15 v s) :=
  psrWritten_setPSR v (setPC v s)

/-- A word built as R15 has the PSR and the PC in their places (rule R12). -/
theorem isR15Word_four (s : State) : IsR15Word (s.pc + 1) s (r15full 4 s) :=
  ⟨r15full_flagN _ s, r15full_flagZ _ s, r15full_flagC _ s, r15full_flagV _ s, r15full_maskI _ s, r15full_maskF _ s,
    (r15full_pc _ s).trans (pcAddr_add_four s), r15full_mode _ s⟩

theorem isR15Word_eight (s : State) : IsR15Word (s.pc + 2) s (r15full 8 s) :=
  ⟨r15full_flagN _ s, r15full_flagZ _ s, r15full_flagC _ s, r15full_flagV _ s, r15full_maskI _ s, r15full_maskF _ s,
    (r15full_pc _ s).trans (pcAddr_add_eight s), r15full_mode _ s⟩

theorem isR15Word_twelve (s : State) : IsR15Word (s.pc + 3) s (r15full 12 s) :=
  ⟨r15full_flagN _ s, r15full_flagZ _ s, r15full_flagC _ s, r15full_flagV _ s, r15full_maskI _ s, r15full_maskF _ s,
    (r15full_pc _ s).trans (pcAddr_add_twelve s), r15full_mode _ s⟩

/-- What an operation that writes Rd leaves, in the terms of the claims. -/
theorem dpWritten_dpWrite {op : DpOp} (hw : writesRd op = true) (h : DpHead) (out : AluOut) (c : Bool) (s : State)
    {f : FlagValues} (hf : HasFlags f (setFlags out c s)) :
    DpWritten h (aluValue out) f s (concluded (dpAssignsPc op h) (dpWrite op h out c (clearHazard s))) := by
  obtain ⟨h1, h2, h3, h4, h5⟩ := dpWrite_frame op h out c (clearHazard s)
  refine ⟨fun a => by simp [h1], ⟨⟨?_, ?_, ?_⟩, ?_⟩, ?_⟩
  · simp [h2]
  · simp [h3]
  · simp [h4]
  · simp [h5]
  obtain ⟨hn, hz, hcf, hv⟩ := hf
  rcases hd : h.rd with d | _ <;> cases hs : h.s <;>
    simp only [dpWrite, dpAssignsPc, hw, hd, hs, reduceCtorEq, decide_false, decide_true, Bool.and_false, Bool.and_true]
  · refine ⟨by simp, fun p hp => ?_, ⟨by simp, by simp⟩, ⟨by simp, by simp, by simp⟩, by simp [SameFlags]⟩
    rw [readPhys_concluded, readPhys_writeX, if_neg (by simpa using hp)]; simp
  · refine ⟨by simp, fun p hp => ?_, ⟨by simp, by simp⟩, ⟨by simp, by simp, by simp⟩, ?_⟩
    · rw [readPhys_concluded, readPhys_writeX, if_neg (by simpa using hp)]; simp
    · cases out <;> simp_all [HasFlags]
  · exact ⟨fun p => by simp, ⟨by simp, by simp⟩, by simp [SamePsr, SameFlags, SameControl]⟩
  · exact ⟨fun p => by simp, ⟨by simp, by simp⟩, psrWritten_restoreR15 _ (clearHazard s)⟩

/-- What a test or compare leaves, in the terms of the claims. -/
theorem dpTested_dpWrite {op : DpOp} (hw : writesRd op = false) (h : DpHead) (out : AluOut) (c : Bool) (s : State)
    {f : FlagValues} (hf : HasFlags f (setFlags out c s)) :
    DpTested h (aluValue out) f s (concluded (dpAssignsPc op h) (dpWrite op h out c (clearHazard s))) := by
  obtain ⟨h1, h2, h3, h4, h5⟩ := dpWrite_frame op h out c (clearHazard s)
  have ha : dpAssignsPc op h = false := by simp [dpAssignsPc, hw]
  refine ⟨fun a => by simp [h1], ⟨⟨?_, ?_, ?_⟩, ?_⟩, ?_⟩
  · simp [h2]
  · simp [h3]
  · simp [h4]
  · simp [h5]
  obtain ⟨hn, hz, hcf, hv⟩ := hf
  rw [ha]
  rcases hd : h.rd with d | _ <;> cases hs : h.s <;> simp only [dpWrite, hw, hd, hs]
  · exact ⟨fun p => by simp, by simp, by simp [SamePsr, SameFlags, SameControl], by simp⟩
  · refine ⟨fun p => by simp, by simp, ?_, ⟨by simp, by simp, by simp⟩, by simp⟩
    cases out <;> simp_all [HasFlags]
  · exact ⟨fun p => by simp, by simp, by simp [SamePsr, SameFlags, SameControl], by simp⟩
  · refine ⟨fun p => ?_, ?_, ?_, ?_⟩
    · have e : readPhys p (writePsrOnly (aluValue out) (clearHazard s))
          = readPhys p (setPSR (aluValue out) (clearHazard s)) := by cases p <;> rfl
      rw [readPhys_concluded, e]; simp
    · simp [writePsrOnly]
    · exact psrWritten_setPSR (aluValue out) (clearHazard s)
    · rfl

/-- The sum of the spec has the flags of the claims (rules R15, R124). -/
theorem hasFlags_add (a b : Word) (cin c : Bool) (s : State) :
    HasFlags (addFlags a b cin) (setFlags (.arith (addWithCarry a b cin)) c s) := by
  refine ⟨?_, ?_, ?_, ?_⟩
  · simp [addFlags, aluValue, addWithCarry_value, BitVec.msb_eq_getLsbD_last]
  · simp [addFlags, aluValue, addWithCarry_value]
  · simp [addFlags, addWithCarry]
  · simp only [setFlags_arith_flagV, addFlags, addWithCarry]
    rw [decide_eq_decide]; omega

/-- A subtraction as an addition of the inverse gives the difference with the borrow (rule R124). -/
theorem addWithCarry_not_value (a b : Word) (cin : Bool) :
    (addWithCarry a (~~~b) cin).value = a - b - BitVec.ofNat 32 (!cin).toNat := by
  rw [addWithCarry_value]
  cases cin <;> simp only [Bool.toNat_true, Bool.toNat_false, Bool.not_true, Bool.not_false] <;> bv_omega

/-- The inverse of a word as an integer. -/
theorem toInt_not_word (b : Word) : (~~~b).toInt = -b.toInt - 1 := by
  rw [BitVec.toInt_not, Int.bmod_def]
  have h1 := b.isLt
  rw [BitVec.toInt_eq_toNat_cond]
  split_ifs <;> omega

/-- The difference of the spec has the flags of the claims (rules R15, R124). -/
theorem hasFlags_sub (a b : Word) (cin c : Bool) (s : State) :
    HasFlags (subFlags a b (!cin)) (setFlags (.arith (addWithCarry a (~~~b) cin)) c s) := by
  have hb := b.isLt
  refine ⟨?_, ?_, ?_, ?_⟩
  · simp only [setFlags_flagN, aluValue, addWithCarry_not_value, subFlags, BitVec.msb_eq_getLsbD_last]
  · simp only [setFlags_flagZ, aluValue, addWithCarry_not_value, subFlags]
  · simp only [setFlags_arith_flagC, subFlags, addWithCarry, BitVec.toNat_not]
    rw [decide_eq_decide]
    cases cin <;> simp only [Bool.toNat_true, Bool.toNat_false, Bool.not_true, Bool.not_false] <;> omega
  · simp only [setFlags_arith_flagV, subFlags, addWithCarry, toInt_not_word]
    rw [decide_eq_decide]
    cases cin <;> simp only [Bool.toNat_true, Bool.toNat_false, Bool.not_true, Bool.not_false] <;> omega

/-- A logical result has the flags of the claims (rule R123). -/
theorem hasFlags_logical (r : Word) (c : Bool) (s : State) :
    HasFlags (logicalFlags r s c) (setFlags (.logical r) c s) := by
  refine ⟨?_, rfl, rfl, rfl⟩
  simp [aluValue, logicalFlags, BitVec.msb_eq_getLsbD_last]

/-- What TSTP, TEQP, CMPP and CMNP leave to check: a change of mode with the mode before (rule R266). -/
theorem writePsrOnly_hazard (v : Word) (s : State) :
    (writePsrOnly v s).hazard = if (setPSR v s).mode = s.mode then none else some (.modeChange s.mode) := rfl

/-- In user mode nothing is left to check, for the mode cannot change (rule R25). -/
theorem writePsrOnly_hazard_user {s : State} (h : s.mode = .usr) (v : Word) : (writePsrOnly v s).hazard = none := by
  rw [writePsrOnly_hazard, (setPSR_user h v).2.2, h, if_pos rfl]

end Sys2Proof.Machine
end

