-- ==== Sys2Proof/Laws/Exceptions.lean ====
section
/-! SUPPORT. Exception entry in the terms of the claims (spec/60_exceptions.md rules R223, R224), also
after registers were given free values. -/

namespace Sys2Proof.Machine

/-- Two states that differ in registers, memory, hazards and drawn free values alone. -/
def SameForEntry (s t : State) : Prop := t.pc = s.pc ∧ SamePsr s t ∧ SamePlatform s t

/-- The saved word depends on the PC and the PSR alone. -/
theorem r15full_congr {s t : State} (h : SameForEntry s t) (k : Addr) : r15full k t = r15full k s := by
  obtain ⟨h1, ⟨⟨h2, h3, h4, h5⟩, h6, h7, h8⟩, -⟩ := h
  simp only [r15full, pcAddr, h1, h2, h3, h4, h5, h6, h7, h8]

/-- A state t that an instruction leaves before its trap: it differs from s in memory, in hazards and in
registers of the list alone, and at most a free value for each of them was drawn. -/
def LeftOpen (ps : List PhysReg) (s t : State) : Prop :=
  SameForEntry s t ∧ SameRegsExcept ps s t ∧ s.freeCount ≤ t.freeCount ∧ t.freeCount ≤ s.freeCount + ps.length

theorem SameForEntry.refl (s : State) : SameForEntry s s := ⟨rfl, ⟨⟨rfl, rfl, rfl, rfl⟩, rfl, rfl, rfl⟩, rfl, rfl, rfl⟩

theorem SameForEntry.trans {s t u : State} (h : SameForEntry s t) (k : SameForEntry t u) : SameForEntry s u := by
  obtain ⟨h1, ⟨⟨h2, h3, h4, h5⟩, h6, h7, h8⟩, h9, h10, h11⟩ := h
  obtain ⟨k1, ⟨⟨k2, k3, k4, k5⟩, k6, k7, k8⟩, k9, k10, k11⟩ := k
  exact ⟨k1.trans h1, ⟨⟨k2.trans h2, k3.trans h3, k4.trans h4, k5.trans h5⟩, k6.trans h6, k7.trans h7, k8.trans h8⟩,
    k9.trans h9, k10.trans h10, k11.trans h11⟩

theorem LeftOpen.trans {a b : List PhysReg} {s t u : State} (h : LeftOpen a s t) (k : LeftOpen b t u) :
    LeftOpen (a ++ b) s u := by
  refine ⟨h.1.trans k.1, fun p hp => ?_, h.2.2.1.trans k.2.2.1, ?_⟩
  · rw [List.mem_append, not_or] at hp
    rw [k.2.1 p hp.2, h.2.1 p hp.1]
  · have := h.2.2.2; have := k.2.2.2; rw [List.length_append]; omega

theorem leftOpen_clearHazard (s : State) : LeftOpen [] s (clearHazard s) :=
  ⟨⟨rfl, ⟨⟨rfl, rfl, rfl, rfl⟩, rfl, rfl, rfl⟩, rfl, rfl, rfl⟩, fun p _ => readPhys_clearHazard p s, Nat.le_refl _,
    Nat.le_refl _⟩

/-- Exception entry from a state that has the PC and the PSR of s and differs in open registers. -/
theorem entered_takeException {e : Exception} {m : Mode} {v a : PcWord} {f : Bool} {spoilt : List PhysReg}
    {s t : State} (hm : exceptionMode e = m) (hv : exceptionVector e = v) (hf : exceptionMasksFiq e = f)
    (hl : IsR15Word (s.pc + a) s (r15full (exceptionLink e) s)) (ho : LeftOpen spoilt s t) :
    Entered m v a f spoilt s (takeException e t) := by
  subst hm hv hf
  obtain ⟨hs, hr, hc, hc'⟩ := ho
  have hw := r15full_congr hs (exceptionLink e)
  obtain ⟨-, ⟨⟨h2, h3, h4, h5⟩, h6, h7, h8⟩, h9, h10, h11⟩ := hs
  refine ⟨by simp, rfl, rfl, by simp [h7], by simp [SameFlags, h2, h3, h4, h5], ?_, fun p hp => ?_, rfl, ?_, ?_, ?_⟩
  · rw [readPhys_takeException, if_pos rfl, hw]; exact hl
  · rw [List.mem_cons, not_or] at hp
    rw [readPhys_takeException, if_neg hp.1, hr p hp.2]
  · exact ⟨(takeException_platform e t).trans h9, (takeException_haltAddress e t).trans h10,
      (takeException_inputs e t).trans h11⟩
  · rw [takeException_freeCount]; exact hc
  · rw [takeException_freeCount]; exact hc'

/-- What a failed transfer does to its base register (D20): nothing else changes. -/
theorem leftOpen_failedBase (r : Reg) (kept written : Word) (s : State) :
    LeftOpen (baseReg r s) s (failedBase r kept written s) ∧ (failedBase r kept written s).mem = s.mem := by
  rcases r with n | _
  · rcases failedBase_cases n kept written s with ⟨-, h⟩ | ⟨-, h⟩ | ⟨-, h⟩ <;> rw [h] <;>
      refine ⟨⟨⟨by simp, by simp [SamePsr, SameFlags, SameControl], by simp [SamePlatform]⟩, fun p hp => ?_,
        by simp, by simp [baseReg]⟩, by simp⟩
    · exact readPhys_spoil_ne (by simpa [baseReg] using hp) s
    · rw [readPhys_writeX, if_neg (by simpa [baseReg] using hp)]
    · rw [readPhys_writeX, if_neg (by simpa [baseReg] using hp)]
  · exact ⟨⟨SameForEntry.refl s, fun _ _ => rfl, Nat.le_refl _, Nat.le_refl _⟩, rfl⟩

/-- What the base register of a failed transfer holds before the trap, where the platform says (D20). -/
theorem readPhys_failedBase (n : Fin 15) (kept written : Word) (s : State) :
    (s.platform.abortSideEffects.base = .kept →
      readPhys (phys s.mode n) (failedBase (.gpr n) kept written s) = kept) ∧
    (s.platform.abortSideEffects.base = .writtenBack →
      readPhys (phys s.mode n) (failedBase (.gpr n) kept written s) = written) := by
  rcases failedBase_cases n kept written s with ⟨hb, h⟩ | ⟨hb, h⟩ | ⟨hb, h⟩ <;>
    simp [hb, h, readPhys_writeX]

/-- The base register after the trap of a failed transfer, u being the state its other effects leave. -/
theorem baseAfterFailure_takeException {e : Exception} (he : exceptionMode e = .svc) (n : Fin 15) (written : Word)
    {s u : State} (hm : u.mode = s.mode) (hp : u.platform = s.platform) :
    BaseAfterFailure n written s (takeException e (failedBase (.gpr n) (readX n s) written u)) := by
  intro hne
  rw [readPhys_takeException, he, if_neg hne, ← hm, ← hp]
  exact readPhys_failedBase n (readX n s) written u

/-- Giving a list of registers free values. -/
theorem leftOpen_spoilAll (ps : List PhysReg) (s : State) :
    LeftOpen ps s (spoilAll ps s) ∧ (spoilAll ps s).mem = s.mem := by
  obtain ⟨h0, h1, h2, h3, h4, h5, h6, h7, h8, h9, -, h12, h13, h14, h15⟩ := spoilAll_frame ps s
  exact ⟨⟨⟨h1, ⟨⟨h2, h3, h4, h5⟩, h6, h7, h8⟩, h13, h14, h15⟩, h0, by omega, by omega⟩, h9⟩

end Sys2Proof.Machine
end

