-- ==== Sys2Proof/Laws/SingleTransfer.lean ====
section
/-! SUPPORT. All that a single data transfer can do, said once (spec/42_single_data_transfer.md rules R171
to R178). -/

namespace Sys2Proof.Machine

/-- What an attempted single transfer answers: the address exception, the refusal of a misaligned address,
the abort, a stop of the bus, or the transfer (rules R53, R178, R241). -/
theorem singleTransfer_attempts {op : SdtOp} {h : SdtHead} {o : Offset} {x : Word} {s : State}
    (ha : SdtAttempts op h o x s) : singleTransfer op h o s =
      if addressIllegal (transferAddress h x s) then
        .next (failSdt .addressException h x (clearHazard s))
      else if misalignedRefused (transferAddress h x s) (sdtSize op) s then .refused .misalignedWordAccess
      else
        match sdtAnswer op h x s with
        | .dataAbort => .next (failSdt .dataAbort h x (clearHazard s))
        | .stop why => .refused why
        | .granted => conclude (sdtAssignsPc op h) (sdtTransfer op h x (clearHazard s)) := by
  obtain ⟨hc, hz, ho, hf, -⟩ := ha
  rw [singleTransfer, conditional_passed hc hz, sdtBody, offsetValue_clearHazard, sdtForbidden_clearHazard, ho, hf]
  simp only [transferAddress_clearHazard, checkBus_clearHazard, misalignedRefused_clearHazard]
  all_goals rfl

/-- Write-back leaves everything but a register alone. -/
theorem writeBack_frame (h : SdtHead) (x : Word) (s : State) :
    (writeBack h x s).pc = s.pc ∧ (writeBack h x s).flagN = s.flagN ∧ (writeBack h x s).flagZ = s.flagZ ∧
      (writeBack h x s).flagC = s.flagC ∧ (writeBack h x s).flagV = s.flagV ∧
      (writeBack h x s).maskI = s.maskI ∧ (writeBack h x s).maskF = s.maskF ∧ (writeBack h x s).mode = s.mode ∧
      (writeBack h x s).mem = s.mem ∧ (writeBack h x s).hazard = s.hazard ∧
      (writeBack h x s).freeCount = s.freeCount ∧ (writeBack h x s).platform = s.platform ∧
      (writeBack h x s).haltAddress = s.haltAddress ∧ (writeBack h x s).inputs = s.inputs := by
  unfold writeBack
  split <;> simp

/-- A transfer leaves the platform, and the PC unless it assigns it (rule R27). -/
theorem sdtTransfer_frame (op : SdtOp) (h : SdtHead) (x : Word) (s : State) :
    (sdtTransfer op h x s).platform = s.platform ∧
      (sdtAssignsPc op h = false → (sdtTransfer op h x s).pc = s.pc) := by
  have hw := fun (y : Word) (t : State) => (writeBack_frame h y t).1
  have hp := fun (y : Word) (t : State) => (writeBack_frame h y t).2.2.2.2.2.2.2.2.2.2.2.1
  cases op <;> rcases hd : h.rd with d | _ <;> simp [sdtTransfer, hw, hp, hd, loadReg, sdtAssignsPc, sdtKind]

/-- A transfer that does not assign the PC leaves it free to go on. -/
theorem mayAdvance_sdtTransfer {op : SdtOp} {h : SdtHead} (ha : sdtAssignsPc op h = false) {x : Word} {s : State} :
    mayAdvance (sdtTransfer op h x s) = mayAdvance s :=
  mayAdvance_congr ((sdtTransfer_frame op h x s).2 ha) (sdtTransfer_frame op h x s).1

/-- All that a single transfer answering a next state can have done. -/
theorem singleTransfer_next {op : SdtOp} {h : SdtHead} {o : Offset} {s t : State}
    (hp : ∀ r, o = .regShift r → s.platform.ldrRegShiftByReg = .allow) (hn : singleTransfer op h o s = .next t) :
    (condPassed h.cond s = false ∧ t = advance (clearHazard s)) ∨
      ∃ x, SdtAttempts op h o x s ∧
        (t = failSdt .addressException h x (clearHazard s) ∨ t = failSdt .dataAbort h x (clearHazard s) ∨
          (SdtGranted op h x s ∧ t = concluded (sdtAssignsPc op h) (sdtTransfer op h x (clearHazard s)))) := by
  rcases conditional_next hn with hf | ⟨hc, hz, hb⟩
  · exact .inl hf
  · refine .inr ?_
    unfold sdtBody at hb
    rw [offsetValue_clearHazard, sdtForbidden_clearHazard] at hb
    split at hb
    · cases hb
    · cases hb
    · rename_i x ho hf
      have ha : SdtAttempts op h o x s := ⟨hc, hz, ho, hf, hp⟩
      refine ⟨x, ha, ?_⟩
      rw [singleTransfer_attempts ha] at hn
      split at hn
      · cases hn; exact .inl rfl
      · rename_i hl
        split at hn
        · cases hn
        · rename_i hma
          split at hn
          · cases hn; exact .inr (.inl rfl)
          · cases hn
          · rename_i hg
            obtain ⟨hm, ht⟩ := conclude_next hn
            refine .inr (.inr ⟨⟨(addressIllegal_false_iff _).mp (by simpa using hl), by simpa using hma, hg,
              fun hb => ?_⟩, ht⟩)
            have := hm hb
            rwa [mayAdvance_sdtTransfer hb, mayAdvance_clearHazard] at this

/-- A granted transfer is carried out. -/
theorem singleTransfer_granted {op : SdtOp} {h : SdtHead} {o : Offset} {x : Word} {s : State}
    (ha : SdtAttempts op h o x s) (hg : SdtGranted op h x s) :
    singleTransfer op h o s = .next (concluded (sdtAssignsPc op h) (sdtTransfer op h x (clearHazard s))) := by
  obtain ⟨hl, hma, hg, hm⟩ := hg
  rw [singleTransfer_attempts ha, (addressIllegal_false_iff _).mpr hl, hma, hg]
  exact conclude_of fun hb => by rw [mayAdvance_sdtTransfer hb, mayAdvance_clearHazard, hm hb]

/-- Write-back changes the base register alone, and only where the form writes it (rules R171, R177). -/
theorem readPhys_writeBack (p : PhysReg) (h : SdtHead) (x : Word) (s : State) :
    readPhys p (writeBack h x s) = if p ∈ writtenBase h s then x else readPhys p s := by
  unfold writeBack writtenBase
  cases hb : writesBase h <;> rcases h.rn with n | _ <;> simp [readPhys_writeX]

/-- The written base depends on the mode alone. -/
theorem writtenBase_congr {h : SdtHead} {s t : State} (hm : t.mode = s.mode) : writtenBase h t = writtenBase h s := by
  simp only [writtenBase, hm]

/-- The base register after a transfer, in the terms of the claims. -/
theorem baseWritten_writeBack {h : SdtHead} {x : Word} {s t : State} (_hm : t.mode = s.mode) :
    BaseWritten h x s (writeBack h (indexedAddress h x s) t) := by
  intro n hn hw
  obtain ⟨-, -, -, -, -, -, -, hmode, -⟩ := writeBack_frame h (indexedAddress h x s) t
  rw [readX, readPhys_writeBack, if_pos]
  simp [writtenBase, hn, hw, hmode]

/-- A load leaves what the claims say of loads. -/
theorem sdtLoaded_writeBack {op : SdtOp} {h : SdtHead} {x v : Word} {s : State} (hk : sdtKind op = .read) :
    SdtLoaded h x v s (concluded (sdtAssignsPc op h) (writeBack h (indexedAddress h x s) (loadReg h.rd v (clearHazard s)))) ∧
      SdtLoadFrame h v s
        (concluded (sdtAssignsPc op h) (writeBack h (indexedAddress h x s) (loadReg h.rd v (clearHazard s)))) := by
  have hm : (loadReg h.rd v (clearHazard s)).mode = s.mode := by cases h.rd <;> simp [loadReg]
  obtain ⟨w1, w2, w3, w4, w5, w6, w7, w8, w9, w10, w11, w12, w13, w14⟩ :=
    writeBack_frame h (indexedAddress h x s) (loadReg h.rd v (clearHazard s))
  have hb := baseWritten_writeBack (h := h) (x := x) hm
  have hwb := writtenBase_congr (h := h) hm
  constructor
  · refine ⟨fun a => ?_, ⟨⟨?_, ?_, ?_, ?_⟩, ?_, ?_, ?_⟩, ⟨⟨?_, ?_, ?_⟩, ?_⟩, fun n hn hw => ?_, ?_⟩
    · rw [concluded_mem, w9]; cases h.rd <;> simp [loadReg]
    · rw [concluded_flagN, w2]; cases h.rd <;> simp [loadReg]
    · rw [concluded_flagZ, w3]; cases h.rd <;> simp [loadReg]
    · rw [concluded_flagC, w4]; cases h.rd <;> simp [loadReg]
    · rw [concluded_flagV, w5]; cases h.rd <;> simp [loadReg]
    · rw [concluded_maskI, w6]; cases h.rd <;> simp [loadReg]
    · rw [concluded_maskF, w7]; cases h.rd <;> simp [loadReg]
    · rw [concluded_mode, w8, hm]
    · rw [concluded_platform, w12]; cases h.rd <;> simp [loadReg]
    · rw [concluded_haltAddress, w13]; cases h.rd <;> simp [loadReg]
    · rw [concluded_inputs, w14]; cases h.rd <;> simp [loadReg]
    · rw [concluded_freeCount, w11]; cases h.rd <;> simp [loadReg]
    · rw [readX_concluded]; exact hb n hn hw
    · rcases hd : h.rd with d | _
      · simp only
        intro hdn
        rw [hd] at w8 hm hwb
        rw [readX_concluded, readX, w8, readPhys_writeBack, hm, hwb, if_neg]
        · simp [loadReg, readPhys_writeX]
        · unfold writtenBase
          rcases hrn : h.rn with n | _
          · cases hwr : writesBase h
            · simp
            · have : d ≠ n := by
                rintro rfl
                exact absurd (hdn hrn.symm) (by simp [hwr])
              simpa [phys_inj] using this
          · simp
      · simp only
  · unfold SdtLoadFrame
    rcases hd : h.rd with d | _
    · simp only
      rw [hd] at w1 w10 hwb
      refine ⟨fun p hp => ?_, ?_, ?_⟩
      · rw [List.mem_cons, not_or] at hp
        rw [readPhys_concluded, readPhys_writeBack, hwb, if_neg hp.2, loadReg, readPhys_writeX, if_neg (by simpa using hp.1)]
        simp
      · rw [concluded_pc, w1]; simp [loadReg, sdtAssignsPc, hd]
      · rw [concluded_hazard, w10]; simp [loadReg]
    · simp only
      rw [hd] at w1 w10 hwb
      refine ⟨fun p hp => ?_, ?_, ?_⟩
      · rw [readPhys_concluded, readPhys_writeBack, hwb, if_neg hp]; simp [loadReg]
      · rw [concluded_pc, w1]; simp [loadReg, sdtAssignsPc, hd, hk]
      · rw [concluded_hazard, w10]; simp [loadReg]

/-- A store leaves what the claims say of stores, but for memory. -/
theorem sdtStored_writeBack {h : SdtHead} {x : Word} {s t : State} {bytes : List Nat}
    (hr : ∀ p, readPhys p t = readPhys p s) (hmem : ∀ k, k ∉ bytes → t.mem.read k = s.mem.read k)
    (hpsr : SamePsr s t) (hrest : SameRest s t) (hpc : t.pc = s.pc) (hhz : t.hazard = none) :
    SdtStored h x bytes s (advance (writeBack h (indexedAddress h x s) t)) := by
  obtain ⟨w1, w2, w3, w4, w5, w6, w7, w8, w9, w10, w11, w12, w13, w14⟩ :=
    writeBack_frame h (indexedAddress h x s) t
  have hm : t.mode = s.mode := hpsr.2.2.2
  obtain ⟨⟨p1, p2, p3, p4⟩, p5, p6, p7⟩ := hpsr
  obtain ⟨⟨r1, r2, r3⟩, r4⟩ := hrest
  refine ⟨fun k hk => ?_, ⟨⟨?_, ?_, ?_, ?_⟩, ?_, ?_, ?_⟩, ⟨⟨?_, ?_, ?_⟩, ?_⟩, fun n hn hw => ?_, fun p hp => ?_, ?_, ?_⟩
  · rw [advance_mem, w9, hmem k hk]
  · rw [advance_flagN, w2, p1]
  · rw [advance_flagZ, w3, p2]
  · rw [advance_flagC, w4, p3]
  · rw [advance_flagV, w5, p4]
  · rw [advance_maskI, w6, p5]
  · rw [advance_maskF, w7, p6]
  · rw [advance_mode, w8, hm]
  · rw [advance_platform, w12, r1]
  · rw [advance_haltAddress, w13, r2]
  · rw [advance_inputs, w14, r3]
  · rw [advance_freeCount, w11, r4]
  · rw [readX_advance]; exact baseWritten_writeBack hm n hn hw
  · rw [readPhys_advance, readPhys_writeBack, writtenBase_congr hm, if_neg hp, hr]
  · rw [advance_pc, w1, hpc]
  · rw [advance_hazard, w10, hhz]

end Sys2Proof.Machine
end

