-- ==== Sys2Proof/Laws/BlockTransfer.lean ====
section
/-! SUPPORT. Laws of block data transfer: the listed registers with their addresses, the reads and the
writes of a block, the registers an LDM loads (spec/43_block_data_transfer.md). -/

namespace Sys2Proof.Machine

/-! ## The list and its addresses (rules R191, R192) -/

/-- The register of a number 0 to 15. -/
def regOfNat (i : Nat) : Reg := if h : i < 15 then .gpr ⟨i, h⟩ else .r15

/-- The listed numbers below a bound, in ascending order. -/
def listedBelow (list : BitVec 16) (bound : Nat) : List Nat := (List.range bound).filter list.getLsbD

theorem mem_listedBelow {list : BitVec 16} {bound i : Nat} :
    i ∈ listedBelow list bound ↔ i < bound ∧ list.getLsbD i = true := by simp [listedBelow]

theorem nodup_listedBelow (list : BitVec 16) (bound : Nat) : (listedBelow list bound).Nodup :=
  List.nodup_range.filter _

/-- The listed registers are those of the listed numbers. -/
theorem listedRegs_eq (list : BitVec 16) : listedRegs list = (listedBelow list 16).map regOfNat := by
  have h : allRegs = (List.range 16).map regOfNat := by decide
  rw [listedRegs, h, List.filter_map, listedBelow]
  refine congrArg (List.map regOfNat) (List.filter_congr ?_)
  intro i hi
  rw [List.mem_range] at hi
  have : ∀ i < 16, regNumber (regOfNat i) = i := by decide
  simp only [Function.comp, inList, this i hi]

theorem length_listedRegs (list : BitVec 16) : (listedRegs list).length = listCount list := by
  rw [listedRegs_eq, List.length_map]; rfl

/-- The last of the block's addresses. -/
theorem blockAddresses_succ (start : Word) (k : Nat) :
    blockAddresses start (k + 1) = blockAddresses start k ++ [start + BitVec.ofNat 32 (4 * k)] := by
  induction k generalizing start with
  | zero => simp [blockAddresses]
  | succ k ih =>
    rw [blockAddresses, ih, blockAddresses, List.cons_append]
    congr 3
    rw [show 4 * (k + 1) = 4 + 4 * k by omega, BitVec.ofNat_add, BitVec.add_assoc]; rfl

/-- The j-th address belongs to the register with j listed registers below it. -/
theorem blockAddresses_listedBelow (start : Word) (list : BitVec 16) (bound : Nat) :
    blockAddresses start (listedBelow list bound).length =
      (listedBelow list bound).map fun i => start + BitVec.ofNat 32 (4 * listPlace list i) := by
  induction bound with
  | zero => rfl
  | succ n ih =>
    have hs : listedBelow list (n + 1) = listedBelow list n ++ [n].filter list.getLsbD := by
      rw [listedBelow, List.range_succ, List.filter_append]; rfl
    cases hb : list.getLsbD n with
    | false => rw [hs, List.filter_cons_of_neg (by simp [hb])]; simpa using ih
    | true =>
      rw [hs, List.filter_cons_of_pos hb, List.filter_nil, List.length_append, List.length_singleton,
        blockAddresses_succ, ih, List.map_append]
      rfl

/-- The addresses of a block, register by register. -/
theorem blockAddresses_eq (h : BlockHead) (base : Word) :
    blockAddresses (blockStart h base (listCount h.list)) (listCount h.list) =
      (listedBelow h.list 16).map (blockAddressOf h base) :=
  blockAddresses_listedBelow (blockStart h base (listCount h.list)) h.list 16

/-- The listed numbers split at a listed number. -/
theorem listedBelow_split {list : BitVec 16} {i : Nat} (hi : i < 16) (hl : list.getLsbD i = true) :
    ∃ post, listedBelow list 16 = listedBelow list i ++ i :: post := by
  refine ⟨((List.range' (i + 1) (15 - i)).filter list.getLsbD), ?_⟩
  have hr : List.range 16 = List.range i ++ i :: List.range' (i + 1) (15 - i) := by
    rw [List.range_eq_range', List.range_eq_range', show (16 : Nat) = i + ((15 - i) + 1) by omega,
      ← List.range'_append_1, List.range'_succ]
    simp
  rw [listedBelow, hr, List.filter_append, List.filter_cons_of_pos hl]; rfl

theorem listPlace_eq (list : BitVec 16) (i : Nat) : listPlace list i = (listedBelow list i).length := rfl

/-- A listed register has a higher place than a listed register below it. -/
theorem listPlace_lt {list : BitVec 16} {i j : Nat} (hij : i < j) (hi : list.getLsbD i = true) :
    listPlace list i < listPlace list j := by
  have hs : (List.range j) = List.range i ++ i :: List.range' (i + 1) (j - i - 1) := by
    rw [List.range_eq_range', List.range_eq_range', show j = i + ((j - i - 1) + 1) by omega,
      ← List.range'_append_1, List.range'_succ]
    simp
  rw [listPlace, listPlace, hs, List.filter_append, List.filter_cons_of_pos hi, List.length_append]
  simp

theorem listPlace_le (list : BitVec 16) (i : Nat) : listPlace list i ≤ i := by
  have := List.length_filter_le list.getLsbD (List.range i)
  rwa [List.length_range] at this

/-- No address of a block is wholly outside: the first register's address is the start. -/
theorem mem_listedBelow_of_ne_zero {list : BitVec 16} (h : list ≠ 0) : listedBelow list 16 ≠ [] := by
  intro he
  apply h
  apply BitVec.eq_of_getLsbD_eq
  intro i hi
  cases hb : list.getLsbD i with
  | false => simp
  | true =>
    have := mem_listedBelow.mpr ⟨hi, hb⟩
    rw [he] at this
    cases this

/-! ## The reads of a block (rules R193, R200) -/

/-- Every access granted: the words at the addresses. -/
theorem readBlock_granted {s : State} {addrs : List Word}
    (h : ∀ a ∈ addrs, checkBus (busAddress a .word) .word .read false s = .granted) :
    readBlock s addrs = .values (addrs.map fun a => wordAt a s) := by
  induction addrs with
  | nil => rfl
  | cons a rest ih =>
    rw [readBlock, h a (by simp), ih fun b hb => h b (by simp [hb])]
    rfl

/-- The first access that is not granted is aborted: the words read before it. -/
theorem readBlock_abort {s : State} {pre post : List Word} {a : Word}
    (h : ∀ b ∈ pre, checkBus (busAddress b .word) .word .read false s = .granted)
    (ha : checkBus (busAddress a .word) .word .read false s = .dataAbort) :
    readBlock s (pre ++ a :: post) = .dataAbort (pre.map fun b => wordAt b s) := by
  induction pre with
  | nil => rw [List.nil_append, readBlock, ha]; rfl
  | cons b rest ih =>
    rw [List.cons_append, readBlock, h b (by simp), ih fun c hc => h c (by simp [hc])]; rfl

/-- The first access that is not granted is stopped by the bus: its refusal. -/
theorem readBlock_stop {s : State} {pre post : List Word} {a : Word} {why : Refusal}
    (h : ∀ b ∈ pre, checkBus (busAddress b .word) .word .read false s = .granted)
    (ha : checkBus (busAddress a .word) .word .read false s = .stop why) :
    readBlock s (pre ++ a :: post) = .stop why := by
  induction pre with
  | nil => rw [List.nil_append, readBlock, ha]
  | cons b rest ih =>
    rw [List.cons_append, readBlock, h b (by simp), ih fun c hc => h c (by simp [hc])]

/-- The reads look at memory, its byte order and the bus alone. -/
theorem readBlock_congr {s t : State} (hm : t.mem = s.mem) (hp : t.platform = s.platform)
    (hb : ∀ a k, checkBus a .word k false t = checkBus a .word k false s) (addrs : List Word) :
    readBlock t addrs = readBlock s addrs := by
  induction addrs with
  | nil => rfl
  | cons a rest ih =>
    have hw : ∀ b, loadWord b t = loadWord b s := fun b => by rw [loadWord, loadWord, hm, hp]
    rw [readBlock, readBlock, hb, ih, hw]

/-! ## The registers an LDM loads (rules R193, R197) -/

/-- The fields a load of registers leaves alone. -/
theorem loadRegs_frame (m : Mode) (pairs : List (Reg × Word)) (s : State) :
    (loadRegs m pairs s).pc = s.pc ∧ SamePsr s (loadRegs m pairs s) ∧ (loadRegs m pairs s).mem = s.mem ∧
      (loadRegs m pairs s).hazard = s.hazard ∧ SameRest s (loadRegs m pairs s) := by
  induction pairs generalizing s with
  | nil => exact ⟨rfl, ⟨⟨rfl, rfl, rfl, rfl⟩, rfl, rfl, rfl⟩, rfl, rfl, ⟨rfl, rfl, rfl⟩, rfl⟩
  | cons p rest ih =>
    obtain ⟨_ | _, v⟩ := p
    · simpa [loadRegs, SamePsr, SameFlags, SameControl, SameRest, SamePlatform] using
        ih (writePhys (phys m _) v s)
    · exact ih s

/-- A register that no pair loads. -/
theorem readPhys_loadRegs_of_not_mem {m : Mode} {pairs : List (Reg × Word)} {p : PhysReg}
    (h : ∀ i v, (Reg.gpr i, v) ∈ pairs → p ≠ phys m i) (s : State) :
    readPhys p (loadRegs m pairs s) = readPhys p s := by
  induction pairs generalizing s with
  | nil => rfl
  | cons q rest ih =>
    have hr := fun i v hm => h i v (List.mem_cons_of_mem _ hm)
    obtain ⟨i | _, v⟩ := q
    · rw [loadRegs, ih hr, readPhys_writePhys_ne (h i v (by simp))]
    · exact ih hr s

/-- A register that one pair loads. -/
theorem readPhys_loadRegs_of_mem {m : Mode} {pairs : List (Reg × Word)} (hn : (pairs.map Prod.fst).Nodup)
    {i : Fin 15} {v : Word} (h : (Reg.gpr i, v) ∈ pairs) (s : State) :
    readPhys (phys m i) (loadRegs m pairs s) = v := by
  induction pairs generalizing s with
  | nil => cases h
  | cons q rest ih =>
    rw [List.map_cons, List.nodup_cons] at hn
    rcases List.mem_cons.mp h with rfl | hr
    · rw [loadRegs, readPhys_loadRegs_of_not_mem, readPhys_writePhys_same]
      intro j w hj hp
      rw [phys_inj] at hp
      exact hn.1 (List.mem_map.mpr ⟨_, hj, by rw [hp]⟩)
    · obtain ⟨_ | _, w⟩ := q
      · exact ih hn.2 hr _
      · exact ih hn.2 hr s

/-- The word loaded for R15, where a pair has one. -/
theorem loadedPc_of_mem {pairs : List (Reg × Word)} (hn : (pairs.map Prod.fst).Nodup) {v : Word}
    (h : (Reg.r15, v) ∈ pairs) : loadedPc pairs = some v := by
  induction pairs with
  | nil => cases h
  | cons q rest ih =>
    rw [List.map_cons, List.nodup_cons] at hn
    rcases List.mem_cons.mp h with rfl | hr
    · rfl
    · obtain ⟨_ | _, w⟩ := q
      · exact ih hn.2 hr
      · exact absurd (List.mem_map.mpr ⟨_, hr, rfl⟩) hn.1

/-- No word is loaded for R15 where no pair has it. -/
theorem loadedPc_of_not_mem {pairs : List (Reg × Word)} (h : ∀ v, (Reg.r15, v) ∉ pairs) : loadedPc pairs = none := by
  induction pairs with
  | nil => rfl
  | cons q rest ih =>
    obtain ⟨_ | _, w⟩ := q
    · exact ih fun v hv => h v (List.mem_cons_of_mem _ hv)
    · exact absurd (List.mem_cons_self ..) (h w)

/-! ## The writes of a block (rules R194, R200) -/

/-- The words of a block stored one after another. -/
def storeAll (pairs : List (Word × Word)) (s : State) : State :=
  pairs.foldl (fun u p => storeWord (busAddress p.1 .word) p.2 u) s

/-- Two states between which words were stored. -/
def StoresOnly (s t : State) : Prop :=
  (∀ p, readPhys p t = readPhys p s) ∧ t.pc = s.pc ∧ SamePsr s t ∧ t.hazard = s.hazard ∧ SameRest s t

theorem storesOnly_storeWord (a : Addr) (v : Word) (s : State) : StoresOnly s (storeWord a v s) := by
  simp [StoresOnly, SamePsr, SameFlags, SameControl, SameRest, SamePlatform]

theorem StoresOnly.trans {s t u : State} (h : StoresOnly s t) (k : StoresOnly t u) : StoresOnly s u := by
  obtain ⟨h0, h1, ⟨⟨h2, h3, h4, h5⟩, h6, h7, h8⟩, h9, ⟨h10, h11, h12⟩, h13⟩ := h
  obtain ⟨k0, k1, ⟨⟨k2, k3, k4, k5⟩, k6, k7, k8⟩, k9, ⟨k10, k11, k12⟩, k13⟩ := k
  exact ⟨fun p => (k0 p).trans (h0 p), k1.trans h1, ⟨⟨k2.trans h2, k3.trans h3, k4.trans h4, k5.trans h5⟩,
    k6.trans h6, k7.trans h7, k8.trans h8⟩, k9.trans h9, ⟨k10.trans h10, k11.trans h11, k12.trans h12⟩,
    k13.trans h13⟩

/-- Storing words changes memory alone. -/
theorem storesOnly_storeAll (pairs : List (Word × Word)) (s : State) : StoresOnly s (storeAll pairs s) := by
  induction pairs generalizing s with
  | nil => exact ⟨fun _ => rfl, rfl, ⟨⟨rfl, rfl, rfl, rfl⟩, rfl, rfl, rfl⟩, rfl, ⟨rfl, rfl, rfl⟩, rfl⟩
  | cons p rest ih => exact (storesOnly_storeWord _ _ s).trans (ih _)

/-- A state between which and s words were stored meets the same answers of the bus. -/
theorem StoresOnly.checkBus {s t : State} (h : StoresOnly s t) (a : Addr) (n : AccessSize) (k : AccessKind)
    (tr : Bool) : checkBus a n k tr t = checkBus a n k tr s :=
  checkBus_congr h.2.2.2.2.1.2.2 h.2.2.1.2.2.2 h.2.2.2.2.1.1 h.2.1 a n k tr

/-- Storing words keeps the canonical form of memory. -/
theorem storeAll_wf {s : State} (h : s.mem.wf = true) (pairs : List (Word × Word)) :
    (storeAll pairs s).mem.wf = true := by
  induction pairs generalizing s with
  | nil => exact h
  | cons p rest ih => exact ih (storeWord_wf h p.1 p.2)

/-- Every access granted: all words are stored. -/
theorem writeBlock_granted {pairs : List (Word × Word)} {s : State}
    (h : ∀ p ∈ pairs, checkBus (busAddress p.1 .word) .word .write false s = .granted) :
    writeBlock pairs s = .done (storeAll pairs s) := by
  induction pairs generalizing s with
  | nil => rfl
  | cons p rest ih =>
    rw [writeBlock, h p (by simp)]
    refine ih fun q hq => ?_
    rw [(storesOnly_storeWord _ _ s).checkBus]
    exact h q (by simp [hq])

/-- The first access that is not granted is aborted: the words before it are stored. -/
theorem writeBlock_abort {pre post : List (Word × Word)} {p : Word × Word} {s : State}
    (h : ∀ q ∈ pre, checkBus (busAddress q.1 .word) .word .write false s = .granted)
    (ha : checkBus (busAddress p.1 .word) .word .write false s = .dataAbort) :
    writeBlock (pre ++ p :: post) s = .dataAbort (storeAll pre s) := by
  induction pre generalizing s with
  | nil => rw [List.nil_append, writeBlock, ha]; rfl
  | cons q rest ih =>
    rw [List.cons_append, writeBlock, h q (by simp)]
    refine ih (fun r hr => ?_) ?_
    · rw [(storesOnly_storeWord _ _ s).checkBus]; exact h r (by simp [hr])
    · rw [(storesOnly_storeWord _ _ s).checkBus]; exact ha

/-- The first access that is not granted is stopped by the bus: its refusal. -/
theorem writeBlock_stop {pre post : List (Word × Word)} {p : Word × Word} {s : State} {why : Refusal}
    (h : ∀ q ∈ pre, checkBus (busAddress q.1 .word) .word .write false s = .granted)
    (ha : checkBus (busAddress p.1 .word) .word .write false s = .stop why) :
    writeBlock (pre ++ p :: post) s = .stop why := by
  induction pre generalizing s with
  | nil => rw [List.nil_append, writeBlock, ha]
  | cons q rest ih =>
    rw [List.cons_append, writeBlock, h q (by simp)]
    refine ih (fun r hr => ?_) ?_
    · rw [(storesOnly_storeWord _ _ s).checkBus]; exact h r (by simp [hr])
    · rw [(storesOnly_storeWord _ _ s).checkBus]; exact ha

/-- All that the writes of a block can end in. -/
theorem writeBlock_cases (pairs : List (Word × Word)) (s : State) :
    (writeBlock pairs s = .done (storeAll pairs s)) ∨
      (∃ pre, pre <+: pairs ∧ writeBlock pairs s = .dataAbort (storeAll pre s)) ∨
      ∃ why, writeBlock pairs s = .stop why := by
  induction pairs generalizing s with
  | nil => exact .inl rfl
  | cons p rest ih =>
    rw [writeBlock]
    split
    · exact .inr (.inl ⟨[], List.nil_prefix, rfl⟩)
    · exact .inr (.inr ⟨_, rfl⟩)
    · rcases ih (storeWord (busAddress p.1 .word) p.2 s) with h | ⟨pre, hp, h⟩ | h
      · exact .inl h
      · exact .inr (.inl ⟨p :: pre, List.cons_prefix_cons.mpr ⟨rfl, hp⟩, h⟩)
      · exact .inr (.inr h)

/-- A byte outside the words stored. -/
theorem read_storeAll_of_not_mem {pairs : List (Word × Word)} {s : State} (hm : s.mem.wf = true) {b : Nat}
    (h : ∀ p ∈ pairs, b ∉ accessBytes (busAddress p.1 .word).toNat .word) :
    (storeAll pairs s).mem.read b = s.mem.read b := by
  induction pairs generalizing s with
  | nil => rfl
  | cons p rest ih =>
    have hp := h p (by simp)
    simp only [accessBytes, List.mem_cons, List.not_mem_nil, or_false, not_or] at hp
    change (storeAll rest (storeWord _ _ s)).mem.read b = _
    rw [ih (storeWord_wf hm p.1 p.2) fun q hq => h q (by simp [hq]), storeWord_mem,
      Memory.read_writeWord hm _ (busAddress_word_lt p.1), if_neg hp.1, if_neg hp.2.1, if_neg hp.2.2.1, if_neg hp.2.2.2]

/-- The word of each pair stands in memory, the words having different places. -/
theorem wordAt_storeAll {pairs : List (Word × Word)} {s : State} (hm : s.mem.wf = true)
    (hn : (pairs.map fun p => (busAddress p.1 .word).toNat).Nodup) {p : Word × Word} (hp : p ∈ pairs) :
    wordAt p.1 (storeAll pairs s) = p.2 := by
  induction pairs generalizing s with
  | nil => cases hp
  | cons q rest ih =>
    rw [List.map_cons, List.nodup_cons] at hn
    change wordAt p.1 (storeAll rest (storeWord _ _ s)) = _
    rcases List.mem_cons.mp hp with rfl | hp
    · have hwf := storeWord_wf hm p.1 p.2
      have hout : ∀ k < 4, ∀ r ∈ rest, (busAddress p.1 .word).toNat + k ∉ accessBytes (busAddress r.1 .word).toNat .word := by
        intro k hk r hr hmem
        have hne : (busAddress r.1 .word).toNat ≠ (busAddress p.1 .word).toNat := fun he =>
          hn.1 (List.mem_map.mpr ⟨r, hr, he⟩)
        simp only [accessBytes, List.mem_cons, List.not_mem_nil, or_false] at hmem
        rw [busAddress_word_toNat, busAddress_word_toNat] at *
        omega
      have hb := fun k hk => read_storeAll_of_not_mem hwf (hout k hk)
      rw [wordAt, loadWord_congr (storesOnly_storeAll rest _).2.2.2.2.1.1 hb]
      exact loadWord_storeWord hm p.1 p.2
    · exact ih (storeWord_wf hm q.1 q.2) hn.2 hp

/-- Write-back of a block transfer changes the base register alone. -/
theorem blockWriteBack_frame (h : BlockHead) (n : Fin 15) (v : Word) (s : State) :
    (blockWriteBack h n v s).pc = s.pc ∧ SamePsr s (blockWriteBack h n v s) ∧ (blockWriteBack h n v s).mem = s.mem ∧
      (blockWriteBack h n v s).hazard = s.hazard ∧ SameRest s (blockWriteBack h n v s) ∧
      ∀ p, readPhys p (blockWriteBack h n v s) = if p ∈ blockWrittenBase h n s then v else readPhys p s := by
  unfold blockWriteBack blockWrittenBase
  cases h.w <;> simp [SamePsr, SameFlags, SameControl, SameRest, SamePlatform, readPhys_writeX]

/-! ## The two instructions -/

@[simp] theorem readX_clearHazard' (n : Fin 15) (s : State) : readX n (clearHazard s) = readX n s := rfl

/-- The registers an LDM loads, each with its word. -/
def ldmPairs (h : BlockHead) (n : Fin 15) (s : State) : List (Reg × Word) :=
  (listedBelow h.list 16).map fun i => (regOfNat i, wordAt (blockAddressOf h (readX n s) i) s)

/-- The addresses an STM stores to for the registers below a bound, each with its word. -/
def stmPairs (h : BlockHead) (n : Fin 15) (bound : Nat) (s : State) : List (Word × Word) :=
  (listedBelow h.list bound).map fun i =>
    (blockAddressOf h (readX n s) i,
      storedWord h (bankMode h.s s) n (blockFinal h (readX n s) (listCount h.list)) (decide (listPlace h.list i = 0))
        (regOfNat i) s)

/-- An attempted block transfer is none of the refused forms. -/
theorem blockForbidden_attempts {h : BlockHead} {n : Fin 15} {b : Bool} {s : State} (ha : BlockAttempts h n b s) :
    blockForbidden h b s = none := by
  obtain ⟨-, -, hn, -, hm, hw⟩ := ha
  cases b
  · simp [blockForbidden, hn, readRn, hm]
  · simp [blockForbidden, hn, readRn, hm, hw rfl]

/-- An LDM that is attempted: what it does, with the refused forms out of the way. -/
theorem execLdm_attempts {h : BlockHead} {n : Fin 15} {s : State} (ha : BlockAttempts h n (loadUsesUserBank h) s) :
    execLdm h s = ldmFrom h n (clearHazard s) := by
  rw [execLdm, conditional_passed ha.1 ha.2.1, ldmBody, blockForbidden_clearHazard, blockForbidden_attempts ha, ha.2.2.1]

/-- An STM that is attempted. -/
theorem execStm_attempts {h : BlockHead} {n : Fin 15} {s : State} (ha : BlockAttempts h n h.s s) :
    execStm h s = stmTo h n (clearHazard s) := by
  rw [execStm, conditional_passed ha.1 ha.2.1, stmBody, blockForbidden_clearHazard, blockForbidden_attempts ha, ha.2.2.1]

/-- A legal block: no address of it raises the address exception. -/
theorem addressIllegal_block {h : BlockHead} {base : Word} (hl : BlockLegal h base) :
    ((listedBelow h.list 16).map (blockAddressOf h base)).any addressIllegal = false := by
  rw [List.any_eq_false]
  intro a ha
  obtain ⟨i, hi, rfl⟩ := List.mem_map.mp ha
  obtain ⟨hi, hb⟩ := mem_listedBelow.mp hi
  rw [(addressIllegal_false_iff _).mpr (hl i hi hb)]
  decide

/-- The first address of a block is its start. -/
theorem exists_blockStart {h : BlockHead} (hl : h.list ≠ 0) (base : Word) :
    ∃ i, i < 16 ∧ h.list.getLsbD i = true ∧ blockAddressOf h base i = blockStart h base (listCount h.list) := by
  obtain ⟨i, hi⟩ := List.exists_mem_of_ne_nil _ (mem_listedBelow_of_ne_zero hl)
  have hex : ∃ i, i < 16 ∧ h.list.getLsbD i = true := ⟨i, mem_listedBelow.mp hi⟩
  refine ⟨Nat.find hex, (Nat.find_spec hex).1, (Nat.find_spec hex).2, ?_⟩
  have h0 : listPlace h.list (Nat.find hex) = 0 := by
    rw [listPlace, List.length_eq_zero_iff, List.filter_eq_nil_iff]
    intro j hj hb
    have hlt := List.mem_range.mp hj
    exact Nat.find_min hex hlt ⟨hlt.trans (Nat.find_spec hex).1, hb⟩
  simp [blockAddressOf, h0]

theorem addressIllegal_blockStart {h : BlockHead} {base : Word} (hl : h.list ≠ 0) (hb : BlockLegal h base) :
    addressIllegal (blockStart h base (listCount h.list)) = false := by
  obtain ⟨i, hi, hg, he⟩ := exists_blockStart hl base
  rw [← he]
  exact (addressIllegal_false_iff _).mpr (hb i hi hg)

/-- A legal block that is attempted: the reads decide (rules R193, R200). -/
theorem execLdm_legal {h : BlockHead} {n : Fin 15} {s : State} (ha : BlockAttempts h n (loadUsesUserBank h) s)
    (hl : BlockLegal h (readX n s)) : execLdm h s =
      match readBlock s ((listedBelow h.list 16).map (blockAddressOf h (readX n s))) with
      | .dataAbort vs => .next (failBlock .dataAbort h n (readX n s) (blockFinal h (readX n s) (listCount h.list))
          (failedLoads (bankMode (loadUsesUserBank h) s) (listedRegs h.list) vs (clearHazard s)))
      | .stop why => .refused why
      | .values vs => conclude (inList h.list .r15) (finishLdm h (loadedPc ((listedRegs h.list).zip vs))
          (loadRegs (bankMode (loadUsesUserBank h) s) ((listedRegs h.list).zip vs)
            (blockWriteBack h n (blockFinal h (readX n s) (listCount h.list)) (clearHazard s)))) := by
  rw [execLdm_attempts ha, ldmFrom]
  simp only [readX_clearHazard', length_listedRegs, bankMode_clearHazard, blockAddresses_eq,
    addressIllegal_blockStart ha.2.2.2.1 hl, addressIllegal_block hl]
  rw [readBlock_congr (s := s) (t := clearHazard s) rfl rfl (fun a k => checkBus_clearHazard a .word k false s)]
  rfl

/-- An LDM that does not load R15 leaves the PC free to go on. -/
theorem mayAdvance_ldm (h : BlockHead) {pairs : List (Reg × Word)} (hp : loadedPc pairs = none) (m : Mode) (n : Fin 15)
    (v : Word) (s : State) :
    mayAdvance (finishLdm h (loadedPc pairs) (loadRegs m pairs (blockWriteBack h n v (clearHazard s)))) = mayAdvance s := by
  obtain ⟨h1, -, -, -, ⟨h2, -⟩, -⟩ := loadRegs_frame m pairs (blockWriteBack h n v (clearHazard s))
  obtain ⟨k1, -, -, -, ⟨⟨k2, -⟩, -⟩, -⟩ := blockWriteBack_frame h n v (clearHazard s)
  rw [hp]
  exact mayAdvance_congr (h1.trans k1) (h2.trans k2)

/-- No word is loaded for R15 where the list has it not. -/
theorem loadedPc_ldmPairs {h : BlockHead} (hb : h.list.getLsbD 15 = false) (n : Fin 15) (s : State) :
    loadedPc (ldmPairs h n s) = none := by
  refine loadedPc_of_not_mem fun v hv => ?_
  obtain ⟨i, hi, he⟩ := List.mem_map.mp hv
  obtain ⟨hi, hl⟩ := mem_listedBelow.mp hi
  have hr : regOfNat i = .r15 := (Prod.mk.inj he).1
  have : i = 15 := by
    simp only [regOfNat] at hr
    split at hr
    · cases hr
    · omega
  subst this
  rw [hb] at hl
  cases hl

/-- An LDM whose accesses are all granted. -/
theorem execLdm_granted {h : BlockHead} {n : Fin 15} {s : State} (ha : BlockAttempts h n (loadUsesUserBank h) s)
    (hl : BlockLegal h (readX n s)) (hg : BlockGranted h (readX n s) .read s)
    (hm : h.list.getLsbD 15 = false → mayAdvance s = true) : execLdm h s =
      .next (concluded (inList h.list .r15) (finishLdm h (loadedPc (ldmPairs h n s)) (loadRegs (bankMode (loadUsesUserBank h) s) (ldmPairs h n s)
        (blockWriteBack h n (blockFinal h (readX n s) (listCount h.list)) (clearHazard s))))) := by
  rw [execLdm_legal ha hl, readBlock_granted]
  · simp only [listedRegs_eq, List.map_map, List.zip_map']
    refine conclude_of fun hb => ?_
    rw [← hm hb]
    exact mayAdvance_ldm h (loadedPc_ldmPairs hb n s) ..
  · intro a hm
    obtain ⟨i, hi, rfl⟩ := List.mem_map.mp hm
    exact hg i (mem_listedBelow.mp hi).1 (mem_listedBelow.mp hi).2

/-- The stored words, register by register: the first is the one with place 0 (rule R195). -/
theorem storedWords_eq (h : BlockHead) (m : Mode) (n : Fin 15) (final : Word) (s : State) :
    storedWords h m n final s (listedRegs h.list) = (listedBelow h.list 16).map fun i =>
      storedWord h m n final (decide (listPlace h.list i = 0)) (regOfNat i) s := by
  have hsort : (listedBelow h.list 16).Pairwise (· < ·) := List.pairwise_lt_range.filter _
  rw [listedRegs_eq]
  cases hL : listedBelow h.list 16 with
  | nil => rfl
  | cons a rest =>
    rw [hL, List.pairwise_cons] at hsort
    have ha : a < 16 ∧ h.list.getLsbD a = true := mem_listedBelow.mp (by rw [hL]; simp)
    have h0 : listPlace h.list a = 0 := by
      rw [listPlace, List.length_eq_zero_iff, List.filter_eq_nil_iff]
      intro j hj hb
      have hlt := List.mem_range.mp hj
      have hm : j ∈ listedBelow h.list 16 := mem_listedBelow.mpr ⟨hlt.trans ha.1, hb⟩
      rw [hL] at hm
      rcases List.mem_cons.mp hm with rfl | hm
      · exact absurd hlt (Nat.lt_irrefl _)
      · exact absurd (hsort.1 j hm) (Nat.lt_asymm hlt)
    rw [List.map_cons, List.map_cons, storedWords, h0, List.map_map]
    refine congrArg₂ _ rfl (List.map_congr_left fun i hi => ?_)
    have : listPlace h.list i ≠ 0 := by have := listPlace_lt (hsort.1 i hi) ha.2; omega
    simp [this]

/-- A stored word does not depend on what the instruction before left to check. -/
theorem storedWord_clearHazard (h : BlockHead) (m : Mode) (n : Fin 15) (final : Word) (first : Bool) (r : Reg)
    (s : State) : storedWord h m n final first r (clearHazard s) = storedWord h m n final first r s := by
  cases r <;> simp [storedWord]

/-- A legal block that is attempted: the writes decide (rules R194, R200). -/
theorem execStm_legal {h : BlockHead} {n : Fin 15} {s : State} (ha : BlockAttempts h n h.s s)
    (hl : BlockLegal h (readX n s)) : execStm h s =
      match writeBlock (stmPairs h n 16 s) (clearHazard s) with
      | .dataAbort t => .next (failBlock .dataAbort h n (readX n s) (blockFinal h (readX n s) (listCount h.list)) t)
      | .stop why => .refused why
      | .done t => proceed (blockWriteBack h n (blockFinal h (readX n s) (listCount h.list)) t) := by
  rw [execStm_attempts ha, stmTo]
  simp only [readX_clearHazard', length_listedRegs, bankMode_clearHazard, blockAddresses_eq,
    addressIllegal_blockStart ha.2.2.2.1 hl, addressIllegal_block hl, storedWords_eq, List.zip_map',
    storedWord_clearHazard]
  rfl

/-- An STM whose accesses are all granted. -/
theorem execStm_granted {h : BlockHead} {n : Fin 15} {s : State} (ha : BlockAttempts h n h.s s)
    (hl : BlockLegal h (readX n s)) (hg : BlockGranted h (readX n s) .write s) (hm : mayAdvance s = true) :
    execStm h s = .next (advance (blockWriteBack h n (blockFinal h (readX n s) (listCount h.list))
        (storeAll (stmPairs h n 16 s) (clearHazard s)))) := by
  rw [execStm_legal ha hl, writeBlock_granted]
  · refine conclude_of (b := false) fun _ => ?_
    obtain ⟨k1, -, -, -, ⟨⟨k2, -⟩, -⟩, -⟩ := blockWriteBack_frame h n (blockFinal h (readX n s) (listCount h.list))
      (storeAll (stmPairs h n 16 s) (clearHazard s))
    obtain ⟨-, h1, -, -, ⟨h2, -⟩, -⟩ := storesOnly_storeAll (stmPairs h n 16 s) (clearHazard s)
    rw [← hm]
    exact mayAdvance_congr (k1.trans h1) (k2.trans h2)
  · intro p hp
    obtain ⟨i, hi, rfl⟩ := List.mem_map.mp hp
    exact hg i (mem_listedBelow.mp hi).1 (mem_listedBelow.mp hi).2

/-- An LDM or STM whose start is illegal (rule R199). -/
theorem exec_blockException {h : BlockHead} {n : Fin 15} {s : State}
    (hx : addressIllegal (blockStart h (readX n s) (listCount h.list)) = true) :
    (BlockAttempts h n (loadUsesUserBank h) s →
      execLdm h s = .next (failBlock .addressException h n (readX n s) (blockFinal h (readX n s) (listCount h.list))
        (failedLoads (bankMode (loadUsesUserBank h) s) (listedRegs h.list) [] (clearHazard s)))) ∧
    (BlockAttempts h n h.s s →
      execStm h s = .next (failBlock .addressException h n (readX n s) (blockFinal h (readX n s) (listCount h.list))
        (clearHazard s))) := by
  refine ⟨fun ha => ?_, fun ha => ?_⟩
  · rw [execLdm_attempts ha, ldmFrom]
    simp only [readX_clearHazard', length_listedRegs, bankMode_clearHazard, hx, if_true]
  · rw [execStm_attempts ha, stmTo]
    simp only [readX_clearHazard', length_listedRegs, hx, if_true]

/-- All that an LDM answering a next state can have done. -/
theorem execLdm_next {h : BlockHead} {s t : State} (hn : execLdm h s = .next t) :
    (condPassed h.cond s = false ∧ t = advance (clearHazard s)) ∨
      ∃ n, h.rn = .gpr n ∧
        ((∃ e b f vs, exceptionMode e = .svc ∧ (exceptionVector e).toNat ≤ 5 ∧
            t = failBlock e h n b f (failedLoads (bankMode (loadUsesUserBank h) s) (listedRegs h.list) vs (clearHazard s))) ∨
          ∃ pairs v, t = concluded (inList h.list .r15) (finishLdm h (loadedPc pairs)
            (loadRegs (bankMode (loadUsesUserBank h) s) pairs (blockWriteBack h n v (clearHazard s))))) := by
  rcases conditional_next hn with h1 | ⟨-, -, hb⟩
  · exact .inl h1
  · refine .inr ?_
    unfold ldmBody at hb
    split at hb
    · cases hb
    · rename_i n hrn _
      refine ⟨n, hrn, ?_⟩
      unfold ldmFrom at hb
      simp only [bankMode_clearHazard] at hb
      split at hb
      · cases hb; exact .inl ⟨_, _, _, _, rfl, by decide, rfl⟩
      · split at hb
        · cases hb
        · split at hb
          · cases hb; exact .inl ⟨_, _, _, _, rfl, by decide, rfl⟩
          · cases hb
          · exact .inr ⟨_, _, (conclude_next hb).2⟩
    · cases hb

/-- All that an STM answering a next state can have done. -/
theorem execStm_next {h : BlockHead} {s t : State} (hn : execStm h s = .next t) :
    (condPassed h.cond s = false ∧ t = advance (clearHazard s)) ∨
      ∃ n, h.rn = .gpr n ∧
        ∃ pairs, (∃ e b f, exceptionMode e = .svc ∧ (exceptionVector e).toNat ≤ 5 ∧
            t = failBlock e h n b f (storeAll pairs (clearHazard s))) ∨
          ∃ v, t = advance (blockWriteBack h n v (storeAll pairs (clearHazard s))) := by
  rcases conditional_next hn with h1 | ⟨-, -, hb⟩
  · exact .inl h1
  · refine .inr ?_
    unfold stmBody at hb
    split at hb
    · cases hb
    · rename_i n hrn _
      refine ⟨n, hrn, ?_⟩
      unfold stmTo at hb
      simp only at hb
      split at hb
      · cases hb; exact ⟨[], .inl ⟨_, _, _, rfl, by decide, rfl⟩⟩
      · split at hb
        · cases hb
        · revert hb
          generalize hp : List.zip _ _ = pairs
          rcases writeBlock_cases pairs (clearHazard s) with hw | ⟨pre, -, hw⟩ | ⟨why, hw⟩
          · rw [hw]; intro hb; exact ⟨pairs, .inr ⟨_, (conclude_next (b := false) hb).2⟩⟩
          · rw [hw]; intro hb; cases hb; exact ⟨pre, .inl ⟨_, _, _, rfl, by decide, rfl⟩⟩
          · rw [hw]; intro hb; cases hb
    · cases hb

/-! ## The claims' terms -/

/-- The register of a number below 15. -/
theorem regOfNat_lt (i : Fin 15) : regOfNat i.val = .gpr i := by simp [regOfNat, i.isLt]

/-- An LDM loads each register once. -/
theorem nodup_ldmPairs (h : BlockHead) (n : Fin 15) (s : State) : ((ldmPairs h n s).map Prod.fst).Nodup := by
  rw [ldmPairs, List.map_map]
  refine List.Nodup.map_on ?_ (nodup_listedBelow _ _)
  intro i hi j hj hij
  have := (mem_listedBelow.mp hi).1
  have := (mem_listedBelow.mp hj).1
  simp only [Function.comp, regOfNat] at hij
  split at hij <;> split at hij <;> simp_all
  omega

/-- The registers an LDM loads, with their words. -/
theorem mem_ldmPairs {h : BlockHead} {n : Fin 15} {s : State} {p : Reg × Word} :
    p ∈ ldmPairs h n s ↔ ∃ i, i < 16 ∧ h.list.getLsbD i = true ∧ p = (regOfNat i, wordAt (blockAddressOf h (readX n s) i) s) := by
  simp only [ldmPairs, List.mem_map, mem_listedBelow]
  constructor
  · rintro ⟨i, ⟨h1, h2⟩, rfl⟩; exact ⟨i, h1, h2, rfl⟩
  · rintro ⟨i, h1, h2, rfl⟩; exact ⟨i, ⟨h1, h2⟩, rfl⟩

/-- Two listed registers of a legal block have different words of memory. -/
theorem busAddress_block_ne {h : BlockHead} {base : Word} (hl : BlockLegal h base) {i j : Nat} (hij : i < j) (hj : j < 16)
    (hbi : h.list.getLsbD i = true) (hbj : h.list.getLsbD j = true) :
    (busAddress (blockAddressOf h base i) .word).toNat ≠ (busAddress (blockAddressOf h base j) .word).toNat := by
  have h1 := hl i (hij.trans hj) hbi
  have h2 := hl j hj hbj
  rw [busAddress_word_of_legal h1, busAddress_word_of_legal h2]
  have h3 := listPlace_lt hij hbi
  have h4 := listPlace_le h.list j
  simp only [blockAddressOf, BitVec.toNat_add, BitVec.toNat_ofNat] at *
  omega

/-- The bytes of a block. -/
theorem mem_blockBytes {h : BlockHead} {base : Word} {bound a : Nat} : a ∈ blockBytes h base bound ↔
    ∃ i < bound, h.list.getLsbD i = true ∧ a ∈ accessBytes (busAddress (blockAddressOf h base i) .word).toNat .word := by
  simp only [blockBytes, List.mem_flatMap, List.mem_range]
  constructor
  · rintro ⟨i, hi, hm⟩
    split at hm
    · exact ⟨i, hi, ‹_›, hm⟩
    · cases hm
  · rintro ⟨i, hi, hb, hm⟩
    exact ⟨i, hi, by rw [if_pos hb]; exact hm⟩

/-- An STM stores to each word once. -/
theorem nodup_stmPairs {h : BlockHead} {n : Fin 15} {s : State} (hl : BlockLegal h (readX n s)) {bound : Nat} (hb : bound ≤ 16) :
    ((stmPairs h n bound s).map fun p => (busAddress p.1 .word).toNat).Nodup := by
  rw [stmPairs, List.map_map]
  refine List.Nodup.map_on ?_ (nodup_listedBelow _ _)
  intro i hi j hj hij
  obtain ⟨hi1, hi2⟩ := mem_listedBelow.mp hi
  obtain ⟨hj1, hj2⟩ := mem_listedBelow.mp hj
  by_contra hne
  rcases Nat.lt_or_gt_of_ne hne with hlt | hlt
  · exact busAddress_block_ne hl hlt (by omega) hi2 hj2 hij
  · exact busAddress_block_ne hl hlt (by omega) hj2 hi2 hij.symm

/-- What stands in memory after the words of the registers below a bound are stored. -/
theorem blockStored_storeAll {h : BlockHead} {n : Fin 15} {s u : State} {bound : Nat} (hb : bound ≤ 16) (hl : BlockLegal h (readX n s))
   (hm : s.mem.wf = true) (hp : u.platform = s.platform) (hu : u.mem = (storeAll (stmPairs h n bound s) (clearHazard s)).mem) :
   BlockStored h n bound s u ∧ SameMemoryExcept (blockBytes h (readX n s) bound) s u := by
  have key : ∀ i < bound, h.list.getLsbD i = true → wordAt (blockAddressOf h (readX n s) i) u =
      storedWord h (bankMode h.s s) n (blockFinal h (readX n s) (listCount h.list)) (decide (listPlace h.list i = 0)) (regOfNat i) s := by
    intro i hi hbi
    have := wordAt_storeAll (s := clearHazard s) hm (nodup_stmPairs hl hb) (List.mem_map.mpr ⟨i, mem_listedBelow.mpr ⟨hi, hbi⟩, rfl⟩)
    dsimp only at this
    rw [← this]
    exact loadWord_congr (hp.trans (storesOnly_storeAll _ (clearHazard s)).2.2.2.2.1.1.symm) fun k _ => by rw [hu]
  refine ⟨⟨fun i hi hbi => ?_, fun hi hbi => ?_⟩, fun a ha => ?_⟩
  · rw [key _ hi hbi, regOfNat_lt, storedWord]
    have hp : (decide (listPlace h.list i.val = 0) = false) ↔ 0 < listPlace h.list i.val := by
      simp [Nat.pos_iff_ne_zero]
    simp only [hp]
  · rw [key 15 hi hbi]
    exact isR15Word_twelve s
  · rw [hu, read_storeAll_of_not_mem (s := clearHazard s) hm]
    · rfl
    · intro p hp
      obtain ⟨i, hi, rfl⟩ := List.mem_map.mp hp
      intro hmem
      exact ha (mem_blockBytes.mpr ⟨i, (mem_listedBelow.mp hi).1, (mem_listedBelow.mp hi).2, hmem⟩)

/-- Giving two lists of registers free values. -/
theorem spoilAll_append (a b : List PhysReg) (s : State) : spoilAll (a ++ b) s = spoilAll b (spoilAll a s) := by
  induction a generalizing s with
  | nil => rfl
  | cons p r ih => exact ih _

/-- The registers an LDM lists, as physical registers. -/
theorem loadedPhys_eq (m : Mode) (l : BitVec 16) : loadedPhys m (listedRegs l) = listedPhys m l := by
  have h1 : ∀ L : List Reg, loadedPhys m L = L.filterMap fun r => match r with | .gpr i => some (phys m i) | .r15 => none := by
    intro L
    induction L with
    | nil => rfl
    | cons r rest ih => cases r <;> simp [loadedPhys, ih]
  have h2 : allRegs = (List.finRange 15).map .gpr ++ [.r15] := by decide
  rw [h1, listedRegs, h2, List.filter_append, List.filter_map, List.filterMap_append, List.filterMap_map, listedPhys]
  have h3 : (List.filter (inList l ∘ Reg.gpr) (List.finRange 15)) = (List.finRange 15).filter fun i => l.getLsbD i.val := rfl
  rw [h3]
  have h4 : List.filterMap (fun r : Reg => match r with | .gpr i => some (phys m i) | .r15 => none) (List.filter (inList l) [Reg.r15]) = [] := by
    cases hb : inList l .r15 <;> simp [hb]
  rw [h4, List.append_nil]
  rw [← List.filterMap_eq_map]
  rfl

/-! ## A block transfer that fails (rules R199, R200, D20) -/

theorem mem_listedPhys {m : Mode} {list : BitVec 16} {p : PhysReg} :
    p ∈ listedPhys m list ↔ ∃ i : Fin 15, list.getLsbD i.val = true ∧ phys m i = p := by
  simp [listedPhys]

/-- The registers below a bound stand first among the listed ones. -/
theorem listedBelow_append (list : BitVec 16) {bound : Nat} (hb : bound ≤ 16) :
    ∃ post, listedBelow list 16 = listedBelow list bound ++ post := by
  refine ⟨(List.range' bound (16 - bound)).filter list.getLsbD, ?_⟩
  have hr : List.range 16 = List.range bound ++ List.range' bound (16 - bound) := by
    rw [List.range_eq_range', List.range_eq_range', show (16 : Nat) = bound + (16 - bound) by omega,
      ← List.range'_append_1]
    simp
  rw [listedBelow, hr, List.filter_append]; rfl

/-- The words read before number `bound`, each with its register. -/
theorem zip_listedRegs (list : BitVec 16) {bound : Nat} (hb : bound ≤ 16) (f : Nat → Word) :
    (listedRegs list).zip ((listedBelow list bound).map f) =
      (listedBelow list bound).map fun i => (regOfNat i, f i) := by
  obtain ⟨post, hp⟩ := listedBelow_append list hb
  have h : ∀ (l : List Nat) (r : List Reg), (l.map regOfNat ++ r).zip (l.map f) = l.map fun i => (regOfNat i, f i) := by
    intro l r
    induction l with
    | nil => simp
    | cons a l ih => simp [ih]
  rw [listedRegs_eq, hp, List.map_append, h]

/-- What a failed LDM does to its listed registers: nothing else changes. -/
theorem leftOpen_failedLoads (m : Mode) (list : BitVec 16) (vs : List Word) (s : State) :
    LeftOpen (listedPhys m list) s (failedLoads m (listedRegs list) vs s) ∧
      (failedLoads m (listedRegs list) vs s).mem = s.mem := by
  unfold failedLoads
  split
  · rw [loadedPhys_eq]; exact leftOpen_spoilAll _ _
  · obtain ⟨h1, h2, h3, -, h4, h5⟩ :=
      loadRegs_frame m (((listedRegs list).zip vs).filter fun p => inList ‹BitVec 16› p.1) s
    refine ⟨⟨⟨h1, h2, h4⟩, fun p hp => readPhys_loadRegs_of_not_mem (fun i v hm he => hp ?_) s, by omega, by omega⟩, h3⟩
    have hl := (List.of_mem_zip (List.mem_filter.mp hm).1).1
    exact mem_listedPhys.mpr ⟨i, by simpa [listedRegs, inList, regNumber] using (List.mem_filter.mp hl).2, he.symm⟩

/-- Where the platform says which words a failed LDM has loaded: those hold in the registers it names, the
others keep their values. -/
theorem readPhys_failedLoads {m : Mode} {list which : BitVec 16} {bound : Nat} (hb : bound ≤ 16) (f : Nat → Word)
    {s : State} (hs : s.platform.abortSideEffects.loads = .loaded which) {k : Fin 15}
    (hk : list.getLsbD k.val = true) :
    readPhys (phys m k) (failedLoads m (listedRegs list) ((listedBelow list bound).map f) s) =
      if k.val < bound ∧ which.getLsbD k.val = true then f k.val else readPhys (phys m k) s := by
  simp only [failedLoads, hs, zip_listedRegs list hb]
  have hnum : ∀ i : Fin 15, inList which (regOfNat i.val) = which.getLsbD i.val := fun i => by
    rw [regOfNat_lt]; rfl
  split
  · rename_i hc
    refine readPhys_loadRegs_of_mem ?_ ?_ s
    · refine List.Nodup.sublist (List.Sublist.map _ List.filter_sublist) ?_
      rw [List.map_map]
      refine List.Nodup.map_on ?_ (nodup_listedBelow _ _)
      intro i hi j hj hij
      have := (mem_listedBelow.mp hi).1
      have := (mem_listedBelow.mp hj).1
      simp only [Function.comp, regOfNat] at hij
      split at hij <;> split at hij <;> simp_all
      omega
    · rw [List.mem_filter]
      exact ⟨List.mem_map.mpr ⟨k.val, mem_listedBelow.mpr ⟨hc.1, hk⟩, by rw [regOfNat_lt]⟩, hc.2⟩
  · rename_i hc
    refine readPhys_loadRegs_of_not_mem (fun i v hm he => hc ?_) s
    rw [phys_inj] at he
    subst he
    obtain ⟨hm, hw⟩ := List.mem_filter.mp hm
    obtain ⟨j, hj, he⟩ := List.mem_map.mp hm
    have hjk : j = k.val := by
      have hr : regOfNat j = .gpr k := (Prod.mk.inj he).1
      simp only [regOfNat] at hr
      split at hr
      · cases hr; rfl
      · cases hr
    subst hjk
    exact ⟨(mem_listedBelow.mp hj).1, hw⟩

/-- The listed registers after the trap of an LDM that failed at number `bound`. -/
theorem loadsAfterFailure_failBlock {e : Exception} (he : exceptionMode e = .svc) (h : BlockHead) (n : Fin 15)
    {bound : Nat} (hb : bound ≤ 16) (b f : Word) (s : State) :
    LoadsAfterFailure h n bound s (failBlock e h n b f (failedLoads (bankMode (loadUsesUserBank h) s) (listedRegs h.list)
      ((listedBelow h.list bound).map fun i => wordAt (blockAddressOf h (readX n s) i) s) (clearHazard s))) := by
  intro which k hs hk hn h14
  have ho := (leftOpen_failedLoads (bankMode (loadUsesUserBank h) s) h.list
    ((listedBelow h.list bound).map fun i => wordAt (blockAddressOf h (readX n s) i) s) (clearHazard s)).1
  rw [failBlock, readPhys_takeException, he, if_neg h14, (leftOpen_failedBase _ _ _ _).1.2.1,
    readPhys_failedLoads hb _ (s := clearHazard s) hs hk, readPhys_clearHazard]
  have hmode := ho.1.2.1.2.2.2
  simp only [baseReg, hmode, List.mem_singleton]
  exact hn

end Sys2Proof.Machine
end

