-- ==== Sys2Proof/Laws/Decode.lean ====
section
/-! SUPPORT. Laws of the decoder and the encoder: the codes of conditions, registers, shift types and
operations; each field of an encoded word; the condition of a decoded word. -/

namespace Sys2Proof

/-! ## Codes -/

@[simp] theorem condOfBits_condBits (c : Cond) : condOfBits (condBits c) = c := by cases c <;> rfl

@[simp] theorem condBits_condOfBits (b : BitVec 4) : condBits (condOfBits b) = b := by
  revert b; decide

@[simp] theorem regOfBits_regBits (r : Reg) : regOfBits (regBits r) = r := by
  rcases r with i | _
  · revert i; decide
  · rfl

@[simp] theorem regBits_regOfBits (b : BitVec 4) : regBits (regOfBits b) = b := by
  revert b; decide

@[simp] theorem shiftTypeOfBits_shiftTypeBits (t : ShiftType) : shiftTypeOfBits (shiftTypeBits t) = t := by
  cases t <;> rfl

@[simp] theorem shiftTypeBits_shiftTypeOfBits (b : BitVec 2) : shiftTypeBits (shiftTypeOfBits b) = b := by
  revert b; decide

@[simp] theorem dpOpOfBits_dpOpBits (op : DpOp) : dpOpOfBits (dpOpBits op) = op := by cases op <;> rfl

@[simp] theorem dpOpBits_dpOpOfBits (b : BitVec 4) : dpOpBits (dpOpOfBits b) = b := by
  revert b; decide

/-! ## Joining the fields of a word -/

/-- A word is its upper bits joined to its lower bits. -/
theorem append_extractLsb' {n m : Nat} (k : Nat) (w : BitVec k) (start : Nat) :
    (w.extractLsb' (start + m) n ++ w.extractLsb' start m) = w.extractLsb' start (n + m) := by
  apply BitVec.eq_of_getLsbD_eq
  intro i hi
  simp only [BitVec.getLsbD_append, BitVec.getLsbD_extractLsb']
  by_cases h : i < m
  · simp [h, hi]
  · simp [h, hi, show i - m < n by omega, show start + m + (i - m) = start + i by omega]

/-- A bit of the upper part of a joined word. -/
theorem getLsbD_append_of_le {n m : Nat} {x : BitVec n} {y : BitVec m} {i : Nat} (h : m ≤ i) :
    (x ++ y).getLsbD i = x.getLsbD (i - m) := by
  rw [BitVec.getLsbD_append, if_neg (by omega)]

/-- A bit of the lower part of a joined word. -/
theorem getLsbD_append_of_lt {n m : Nat} {x : BitVec n} {y : BitVec m} {i : Nat} (h : i < m) :
    (x ++ y).getLsbD i = y.getLsbD i := by
  rw [BitVec.getLsbD_append, if_pos h]

/-- One bit of a word as a bit vector. -/
theorem ofBool_wordBit (i : Nat) (w : Word) : BitVec.ofBool (wordBit i w) = w.extractLsb' i 1 := by
  apply BitVec.eq_of_getLsbD_eq
  intro k hk
  obtain rfl : k = 0 := by omega
  simp [wordBit]

/-- The condition of a decoded word is that of its bits 31:28 (rule R81). -/
theorem cond_decode (w : Word) : (decode w).cond = condOfBits (w.extractLsb' 28 4) := by
  unfold decode
  split
  · unfold decodeDpRegister
    split
    · cases dpOpOfBits (w.extractLsb' 21 4) <;> rfl
    · cases dpOpOfBits (w.extractLsb' 21 4) <;> rfl
    · rfl
  · cases dpOpOfBits (w.extractLsb' 21 4) <;> rfl
  · unfold decodeSdtImmediate; dsimp only; split <;> rfl
  · unfold decodeSdtRegister; dsimp only; split <;> rfl
  · unfold decodeBlock; dsimp only; split <;> rfl
  · unfold decodeBranch; split <;> rfl
  · rfl
  · unfold decodeSupervisor; split <;> rfl

/-- Every decoded word is well-formed (rules R91, R201). -/
theorem wellFormed_decode (w : Word) : (decode w).wellFormed = true := by
  unfold decode
  split
  · unfold decodeDpRegister
    split
    · cases dpOpOfBits (w.extractLsb' 21 4) <;> rfl
    · cases dpOpOfBits (w.extractLsb' 21 4) <;> rfl
    · rfl
  · cases dpOpOfBits (w.extractLsb' 21 4) <;> rfl
  · unfold decodeSdtImmediate; dsimp only; split <;> rfl
  · unfold decodeSdtRegister; dsimp only; split <;> rfl
  · unfold decodeBlock; dsimp only
    split
    · rfl
    · assumption
    · assumption
  · unfold decodeBranch; split <;> rfl
  · rfl
  · unfold decodeSupervisor; split <;> rfl

/-- The word of an operation with an immediate operand. -/
theorem encode_dpImmInstr (op : DpOp) (h : DpHead) (o : ImmOperand) :
    encode (dpImmInstr op h o) = encodeDp 1 op h (immOperandBits o) := by cases op <;> rfl

/-- The word of an operation with a register shifted by a constant. -/
theorem encode_dpShiftImmInstr (op : DpOp) (h : DpHead) (o : ShiftImmOperand) :
    encode (dpShiftImmInstr op h o) = encodeDp 0 op h (shiftImmBits o) := by cases op <;> rfl

/-- The word of an operation with a register shifted by a register. -/
theorem encode_dpShiftRegInstr (op : DpOp) (h : DpHead) (o : ShiftRegOperand) :
    encode (dpShiftRegInstr op h o) = encodeDp 0 op h (shiftRegBits o) := by cases op <;> rfl

/-! ## The fields of an encoded word -/

/-- The fields of a data-processing word (rule R84). -/
theorem encodeDp_fields (i : BitVec 1) (op : DpOp) (h : DpHead) (x : BitVec 12) :
    wordBit 27 (encodeDp i op h x) = false ∧ wordBit 26 (encodeDp i op h x) = false ∧
      wordBit 25 (encodeDp i op h x) = i.getLsbD 0 ∧ (encodeDp i op h x).extractLsb' 21 4 = dpOpBits op ∧
      dpHeadOfWord (encodeDp i op h x) = h ∧ (∀ k < 12, wordBit k (encodeDp i op h x) = x.getLsbD k) ∧
      (∀ k len, k + len ≤ 12 → (encodeDp i op h x).extractLsb' k len = x.extractLsb' k len) := by
  refine ⟨?_, ?_, ?_, ?_, ?_, fun k hk => ?_, fun k len hk => ?_⟩
  · simp (disch := decide) only [encodeDp, wordBit, getLsbD_append_of_le, getLsbD_append_of_lt]; simp
  · simp (disch := decide) only [encodeDp, wordBit, getLsbD_append_of_le, getLsbD_append_of_lt]; simp
  · simp (disch := decide) only [encodeDp, wordBit, getLsbD_append_of_le, getLsbD_append_of_lt]
  · simp (disch := decide) only [encodeDp, BitVec.extractLsb'_append_eq_of_le, BitVec.extractLsb'_append_eq_of_add_le]
    simp
  · simp (disch := decide) only [encodeDp, dpHeadOfWord, wordBit, getLsbD_append_of_le, getLsbD_append_of_lt,
      BitVec.extractLsb'_append_eq_of_le, BitVec.extractLsb'_append_eq_of_add_le]
    simp
  · simp only [encodeDp, wordBit]; exact getLsbD_append_of_lt hk
  · simp only [encodeDp]; exact BitVec.extractLsb'_append_eq_of_add_le hk

/-- The fields of a single data transfer word (rule R87). -/
theorem encodeSdt_fields (i b l : BitVec 1) (h : SdtHead) (x : BitVec 12) :
    wordBit 27 (encodeSdt i b l h x) = false ∧ wordBit 26 (encodeSdt i b l h x) = true ∧
      wordBit 25 (encodeSdt i b l h x) = i.getLsbD 0 ∧ wordBit 22 (encodeSdt i b l h x) = b.getLsbD 0 ∧
      wordBit 20 (encodeSdt i b l h x) = l.getLsbD 0 ∧ sdtHeadOfWord (encodeSdt i b l h x) = h ∧
      (∀ k < 12, wordBit k (encodeSdt i b l h x) = x.getLsbD k) ∧
      (∀ k len, k + len ≤ 12 → (encodeSdt i b l h x).extractLsb' k len = x.extractLsb' k len) := by
  refine ⟨?_, ?_, ?_, ?_, ?_, ?_, fun k hk => ?_, fun k len hk => ?_⟩
  · simp (disch := decide) only [encodeSdt, wordBit, getLsbD_append_of_le, getLsbD_append_of_lt]; simp
  · simp (disch := decide) only [encodeSdt, wordBit, getLsbD_append_of_le, getLsbD_append_of_lt]; simp
  · simp (disch := decide) only [encodeSdt, wordBit, getLsbD_append_of_le, getLsbD_append_of_lt]
  · simp (disch := decide) only [encodeSdt, wordBit, getLsbD_append_of_le, getLsbD_append_of_lt]
  · simp (disch := decide) only [encodeSdt, wordBit, getLsbD_append_of_le, getLsbD_append_of_lt]
  · simp (disch := decide) only [encodeSdt, sdtHeadOfWord, wordBit, getLsbD_append_of_le, getLsbD_append_of_lt,
      BitVec.extractLsb'_append_eq_of_le, BitVec.extractLsb'_append_eq_of_add_le]
    simp
  · simp only [encodeSdt, wordBit]; exact getLsbD_append_of_lt hk
  · simp only [encodeSdt]; exact BitVec.extractLsb'_append_eq_of_add_le hk

/-- The fields of a block data transfer word (rule R88). -/
theorem encodeBlock_fields (l : BitVec 1) (h : BlockHead) :
    wordBit 27 (encodeBlock l h) = true ∧ wordBit 26 (encodeBlock l h) = false ∧
      wordBit 25 (encodeBlock l h) = false ∧ wordBit 20 (encodeBlock l h) = l.getLsbD 0 ∧
      blockHeadOfWord (encodeBlock l h) = h := by
  refine ⟨?_, ?_, ?_, ?_, ?_⟩
  · simp (disch := decide) only [encodeBlock, wordBit, getLsbD_append_of_le, getLsbD_append_of_lt]; simp
  · simp (disch := decide) only [encodeBlock, wordBit, getLsbD_append_of_le, getLsbD_append_of_lt]; simp
  · simp (disch := decide) only [encodeBlock, wordBit, getLsbD_append_of_le, getLsbD_append_of_lt]; simp
  · simp (disch := decide) only [encodeBlock, wordBit, getLsbD_append_of_le, getLsbD_append_of_lt]
  · simp (disch := decide) only [encodeBlock, blockHeadOfWord, wordBit, getLsbD_append_of_le, getLsbD_append_of_lt,
      BitVec.extractLsb'_append_eq_of_le, BitVec.extractLsb'_append_eq_of_add_le]
    simp

/-- An immediate operand read back from its bits (rule R86). -/
theorem immOperandBits_fields (o : ImmOperand) :
    (immOperandBits o).extractLsb' 8 4 = o.rotate ∧ (immOperandBits o).extractLsb' 0 8 = o.imm8 := by
  constructor
  · simp (disch := decide) only [immOperandBits, BitVec.extractLsb'_append_eq_of_le]; simp
  · simp (disch := decide) only [immOperandBits, BitVec.extractLsb'_append_eq_of_add_le]; simp

/-- A register shifted by a constant read back from its bits (rule R85). -/
theorem shiftImmBits_fields (o : ShiftImmOperand) :
    (shiftImmBits o).getLsbD 4 = false ∧ (shiftImmBits o).extractLsb' 7 5 = o.amount ∧
      (shiftImmBits o).extractLsb' 5 2 = shiftTypeBits o.ty ∧ (shiftImmBits o).extractLsb' 0 4 = regBits o.rm := by
  refine ⟨?_, ?_, ?_, ?_⟩
  · simp (disch := decide) only [shiftImmBits, getLsbD_append_of_le, getLsbD_append_of_lt]; simp
  · simp (disch := decide) only [shiftImmBits, BitVec.extractLsb'_append_eq_of_le]; simp
  · simp (disch := decide) only [shiftImmBits, BitVec.extractLsb'_append_eq_of_le,
      BitVec.extractLsb'_append_eq_of_add_le]; simp
  · simp (disch := decide) only [shiftImmBits, BitVec.extractLsb'_append_eq_of_add_le]; simp

/-- A register shifted by a register read back from its bits (rule R85). -/
theorem shiftRegBits_fields (o : ShiftRegOperand) :
    (shiftRegBits o).getLsbD 4 = true ∧ (shiftRegBits o).getLsbD 7 = false ∧
      (shiftRegBits o).extractLsb' 8 4 = regBits o.rs ∧ (shiftRegBits o).extractLsb' 5 2 = shiftTypeBits o.ty ∧
      (shiftRegBits o).extractLsb' 0 4 = regBits o.rm := by
  refine ⟨?_, ?_, ?_, ?_, ?_⟩
  · simp (disch := decide) only [shiftRegBits, getLsbD_append_of_le, getLsbD_append_of_lt]; simp
  · simp (disch := decide) only [shiftRegBits, getLsbD_append_of_le, getLsbD_append_of_lt]; simp
  · simp (disch := decide) only [shiftRegBits, BitVec.extractLsb'_append_eq_of_le]; simp
  · simp (disch := decide) only [shiftRegBits, BitVec.extractLsb'_append_eq_of_le,
      BitVec.extractLsb'_append_eq_of_add_le]; simp
  · simp (disch := decide) only [shiftRegBits, BitVec.extractLsb'_append_eq_of_add_le]; simp

/-- A register shifted by a constant read back from a word whose bits 11:0 are its bits. -/
theorem shiftImmOfWord_eq {w : Word} {o : ShiftImmOperand}
    (hx : ∀ k len, k + len ≤ 12 → w.extractLsb' k len = (shiftImmBits o).extractLsb' k len) : shiftImmOfWord w = o := by
  obtain ⟨-, h1, h2, h3⟩ := shiftImmBits_fields o
  simp only [shiftImmOfWord, hx 7 5 (by decide), hx 5 2 (by decide), hx 0 4 (by decide), h1, h2, h3,
    shiftTypeOfBits_shiftTypeBits, regOfBits_regBits]

end Sys2Proof

namespace Sys2Proof.Machine

/-- An instruction whose condition fails goes on to the next word, or is refused at the top of memory, whatever
it is (rules R28, R30, R81, R92). -/
theorem exec_failed {i : Instr} {s : State} (h : condPassed i.cond s = false) :
    exec i s = proceed (clearHazard s) := by
  cases i with
  | reservedSdt c high low =>
    simp only [exec, execReservedSdt]
    split <;> exact conditional_failed h _ _
  | b | bl | swi | undefined110 | undefined1110 | reservedDp | reservedBlock =>
    simp only [exec, execB, execBl, execSwi, execUndefined110, execUndefined1110, execReservedDp, execReservedBlock]
    exact conditional_failed h _ _
  | _ => exact conditional_failed h _ _

/-- An instruction whose condition fails only advances the PC, where it may (rules R30, R81, R92). -/
theorem exec_skips {i : Instr} {s : State} (h : condPassed i.cond s = false) (hm : mayAdvance s = true) :
    exec i s = .next (advance (clearHazard s)) := by
  rw [exec_failed h]
  exact conclude_of (b := false) fun _ => (mayAdvance_clearHazard s).trans hm

/-- The meaning of an operation with an immediate operand. -/
theorem exec_dpImmInstr (op : DpOp) (h : DpHead) (o : ImmOperand) (s : State) :
    exec (dpImmInstr op h o) s = dataProcessing op h (.imm o) s := by cases op <;> rfl

/-- The meaning of an operation with a register shifted by a constant. -/
theorem exec_dpShiftImmInstr (op : DpOp) (h : DpHead) (o : ShiftImmOperand) (s : State) :
    exec (dpShiftImmInstr op h o) s = dataProcessing op h (.shiftImm o) s := by cases op <;> rfl

/-- The meaning of an operation with a register shifted by a register. -/
theorem exec_dpShiftRegInstr (op : DpOp) (h : DpHead) (o : ShiftRegOperand) (s : State) :
    exec (dpShiftRegInstr op h o) s = dataProcessing op h (.shiftReg o) s := by cases op <;> rfl

end Sys2Proof.Machine
end

