-- ==== Sys2Proof/Laws/PerInstr.lean ====
section
/-! SUPPORT. Laws of each instruction, one lemma a constructor: bits 31:28 of its word are the code of
its condition (spec/30_encoding.md rule R81). -/

namespace Sys2Proof.Laws.EncodesCondition

/-- Bits 31:28 of the word of an instruction are the code of its condition (rule R81). -/
def Statement (i : Instr) : Prop := (encode i).extractLsb' 28 4 = condBits i.cond

theorem encodeDp_cond (i : BitVec 1) (op : DpOp) (h : DpHead) (x : BitVec 12) :
    (encodeDp i op h x).extractLsb' 28 4 = condBits h.cond := by
  simp (disch := decide) only [encodeDp, BitVec.extractLsb'_append_eq_of_le]; simp

theorem encodeSdt_cond (i b l : BitVec 1) (h : SdtHead) (x : BitVec 12) :
    (encodeSdt i b l h x).extractLsb' 28 4 = condBits h.cond := by
  simp (disch := decide) only [encodeSdt, BitVec.extractLsb'_append_eq_of_le]; simp

theorem encodeBlock_cond (l : BitVec 1) (h : BlockHead) :
    (encodeBlock l h).extractLsb' 28 4 = condBits h.cond := by
  simp (disch := decide) only [encodeBlock, BitVec.extractLsb'_append_eq_of_le]; simp

/-- Every instruction carries its condition. -/
theorem encode_cond (i : Instr) : Statement i := by
  cases i with
  | b | bl | swi | undefined110 | undefined1110 | reservedDp | reservedSdt | reservedBlock =>
    simp (disch := decide) only [Statement, encode, Instr.cond, BitVec.extractLsb'_append_eq_of_le]; simp
  | ldm | stm => exact encodeBlock_cond ..
  | ldrImm | ldrReg | ldrbImm | ldrbReg | strImm | strReg | strbImm | strbReg => exact encodeSdt_cond ..
  | _ => exact encodeDp_cond ..

theorem b (cond : Cond) (offset : BitVec 24) : Statement (.b cond offset) := encode_cond _
theorem bl (cond : Cond) (offset : BitVec 24) : Statement (.bl cond offset) := encode_cond _
theorem adcImm (h : DpHead) (o : ImmOperand) : Statement (.adcImm h o) := encode_cond _
theorem adcShiftImm (h : DpHead) (o : ShiftImmOperand) : Statement (.adcShiftImm h o) := encode_cond _
theorem adcShiftReg (h : DpHead) (o : ShiftRegOperand) : Statement (.adcShiftReg h o) := encode_cond _
theorem addImm (h : DpHead) (o : ImmOperand) : Statement (.addImm h o) := encode_cond _
theorem addShiftImm (h : DpHead) (o : ShiftImmOperand) : Statement (.addShiftImm h o) := encode_cond _
theorem addShiftReg (h : DpHead) (o : ShiftRegOperand) : Statement (.addShiftReg h o) := encode_cond _
theorem andImm (h : DpHead) (o : ImmOperand) : Statement (.andImm h o) := encode_cond _
theorem andShiftImm (h : DpHead) (o : ShiftImmOperand) : Statement (.andShiftImm h o) := encode_cond _
theorem andShiftReg (h : DpHead) (o : ShiftRegOperand) : Statement (.andShiftReg h o) := encode_cond _
theorem bicImm (h : DpHead) (o : ImmOperand) : Statement (.bicImm h o) := encode_cond _
theorem bicShiftImm (h : DpHead) (o : ShiftImmOperand) : Statement (.bicShiftImm h o) := encode_cond _
theorem bicShiftReg (h : DpHead) (o : ShiftRegOperand) : Statement (.bicShiftReg h o) := encode_cond _
theorem cmnImm (h : DpHead) (o : ImmOperand) : Statement (.cmnImm h o) := encode_cond _
theorem cmnShiftImm (h : DpHead) (o : ShiftImmOperand) : Statement (.cmnShiftImm h o) := encode_cond _
theorem cmnShiftReg (h : DpHead) (o : ShiftRegOperand) : Statement (.cmnShiftReg h o) := encode_cond _
theorem cmpImm (h : DpHead) (o : ImmOperand) : Statement (.cmpImm h o) := encode_cond _
theorem cmpShiftImm (h : DpHead) (o : ShiftImmOperand) : Statement (.cmpShiftImm h o) := encode_cond _
theorem cmpShiftReg (h : DpHead) (o : ShiftRegOperand) : Statement (.cmpShiftReg h o) := encode_cond _
theorem eorImm (h : DpHead) (o : ImmOperand) : Statement (.eorImm h o) := encode_cond _
theorem eorShiftImm (h : DpHead) (o : ShiftImmOperand) : Statement (.eorShiftImm h o) := encode_cond _
theorem eorShiftReg (h : DpHead) (o : ShiftRegOperand) : Statement (.eorShiftReg h o) := encode_cond _
theorem movImm (h : DpHead) (o : ImmOperand) : Statement (.movImm h o) := encode_cond _
theorem movShiftImm (h : DpHead) (o : ShiftImmOperand) : Statement (.movShiftImm h o) := encode_cond _
theorem movShiftReg (h : DpHead) (o : ShiftRegOperand) : Statement (.movShiftReg h o) := encode_cond _
theorem mvnImm (h : DpHead) (o : ImmOperand) : Statement (.mvnImm h o) := encode_cond _
theorem mvnShiftImm (h : DpHead) (o : ShiftImmOperand) : Statement (.mvnShiftImm h o) := encode_cond _
theorem mvnShiftReg (h : DpHead) (o : ShiftRegOperand) : Statement (.mvnShiftReg h o) := encode_cond _
theorem orrImm (h : DpHead) (o : ImmOperand) : Statement (.orrImm h o) := encode_cond _
theorem orrShiftImm (h : DpHead) (o : ShiftImmOperand) : Statement (.orrShiftImm h o) := encode_cond _
theorem orrShiftReg (h : DpHead) (o : ShiftRegOperand) : Statement (.orrShiftReg h o) := encode_cond _
theorem rsbImm (h : DpHead) (o : ImmOperand) : Statement (.rsbImm h o) := encode_cond _
theorem rsbShiftImm (h : DpHead) (o : ShiftImmOperand) : Statement (.rsbShiftImm h o) := encode_cond _
theorem rsbShiftReg (h : DpHead) (o : ShiftRegOperand) : Statement (.rsbShiftReg h o) := encode_cond _
theorem rscImm (h : DpHead) (o : ImmOperand) : Statement (.rscImm h o) := encode_cond _
theorem rscShiftImm (h : DpHead) (o : ShiftImmOperand) : Statement (.rscShiftImm h o) := encode_cond _
theorem rscShiftReg (h : DpHead) (o : ShiftRegOperand) : Statement (.rscShiftReg h o) := encode_cond _
theorem sbcImm (h : DpHead) (o : ImmOperand) : Statement (.sbcImm h o) := encode_cond _
theorem sbcShiftImm (h : DpHead) (o : ShiftImmOperand) : Statement (.sbcShiftImm h o) := encode_cond _
theorem sbcShiftReg (h : DpHead) (o : ShiftRegOperand) : Statement (.sbcShiftReg h o) := encode_cond _
theorem subImm (h : DpHead) (o : ImmOperand) : Statement (.subImm h o) := encode_cond _
theorem subShiftImm (h : DpHead) (o : ShiftImmOperand) : Statement (.subShiftImm h o) := encode_cond _
theorem subShiftReg (h : DpHead) (o : ShiftRegOperand) : Statement (.subShiftReg h o) := encode_cond _
theorem teqImm (h : DpHead) (o : ImmOperand) : Statement (.teqImm h o) := encode_cond _
theorem teqShiftImm (h : DpHead) (o : ShiftImmOperand) : Statement (.teqShiftImm h o) := encode_cond _
theorem teqShiftReg (h : DpHead) (o : ShiftRegOperand) : Statement (.teqShiftReg h o) := encode_cond _
theorem tstImm (h : DpHead) (o : ImmOperand) : Statement (.tstImm h o) := encode_cond _
theorem tstShiftImm (h : DpHead) (o : ShiftImmOperand) : Statement (.tstShiftImm h o) := encode_cond _
theorem tstShiftReg (h : DpHead) (o : ShiftRegOperand) : Statement (.tstShiftReg h o) := encode_cond _
theorem ldrImm (h : SdtHead) (v : BitVec 12) : Statement (.ldrImm h v) := encode_cond _
theorem ldrReg (h : SdtHead) (o : ShiftImmOperand) : Statement (.ldrReg h o) := encode_cond _
theorem ldrbImm (h : SdtHead) (v : BitVec 12) : Statement (.ldrbImm h v) := encode_cond _
theorem ldrbReg (h : SdtHead) (o : ShiftImmOperand) : Statement (.ldrbReg h o) := encode_cond _
theorem strImm (h : SdtHead) (v : BitVec 12) : Statement (.strImm h v) := encode_cond _
theorem strReg (h : SdtHead) (o : ShiftImmOperand) : Statement (.strReg h o) := encode_cond _
theorem strbImm (h : SdtHead) (v : BitVec 12) : Statement (.strbImm h v) := encode_cond _
theorem strbReg (h : SdtHead) (o : ShiftImmOperand) : Statement (.strbReg h o) := encode_cond _
theorem ldm (h : BlockHead) : Statement (.ldm h) := encode_cond _
theorem stm (h : BlockHead) : Statement (.stm h) := encode_cond _
theorem swi (cond : Cond) (comment : BitVec 24) : Statement (.swi cond comment) := encode_cond _
theorem undefined110 (cond : Cond) (rest : BitVec 25) : Statement (.undefined110 cond rest) := encode_cond _
theorem undefined1110 (cond : Cond) (rest : BitVec 24) : Statement (.undefined1110 cond rest) := encode_cond _
theorem reservedDp (cond : Cond) (high : BitVec 17) (mid : BitVec 2) (low : BitVec 4) : Statement (.reservedDp cond high mid low) := encode_cond _
theorem reservedSdt (cond : Cond) (high : BitVec 20) (low : BitVec 4) : Statement (.reservedSdt cond high low) := encode_cond _
theorem reservedBlock (cond : Cond) (high : BitVec 9) : Statement (.reservedBlock cond high) := encode_cond _

end Sys2Proof.Laws.EncodesCondition
end

