-- ==== Sys2Proof/Laws/Step.lean ====
section
/-! SUPPORT. Laws of a step: all it can do, all that exec answers for each class of instruction, and which
word is a transfer with an offset shifted by a register. -/

namespace Sys2Proof.Machine

/-- The fields of the reserved word of an offset shifted by a register (rules R85, R87). -/
theorem regShift_fields (p u b w l : Bool) (rn rd rs : BitVec 4) (ty : BitVec 2) :
    let high : BitVec 20 := BitVec.ofBool p ++ BitVec.ofBool u ++ BitVec.ofBool b ++ BitVec.ofBool w ++ BitVec.ofBool l
      ++ rn ++ rd ++ rs ++ 0#1 ++ ty
    high.getLsbD 19 = p ∧ high.getLsbD 18 = u ∧ high.getLsbD 17 = b ∧ high.getLsbD 16 = w ∧ high.getLsbD 15 = l ∧
      high.extractLsb' 11 4 = rn ∧ high.extractLsb' 7 4 = rd ∧ high.extractLsb' 3 4 = rs ∧ high.getLsbD 2 = false ∧
      high.extractLsb' 0 2 = ty := by
  intro high
  refine ⟨?_, ?_, ?_, ?_, ?_, ?_, ?_, ?_, ?_, ?_⟩
  · simp only [high, BitVec.getLsbD_append]; simp
  · simp only [high, BitVec.getLsbD_append]; simp
  · simp only [high, BitVec.getLsbD_append]; simp
  · simp only [high, BitVec.getLsbD_append]; simp
  · simp only [high, BitVec.getLsbD_append]; simp
  · simp (disch := decide) only [high, BitVec.extractLsb'_append_eq_of_le, BitVec.extractLsb'_append_eq_of_add_le]; simp
  · simp (disch := decide) only [high, BitVec.extractLsb'_append_eq_of_le, BitVec.extractLsb'_append_eq_of_add_le]; simp
  · simp (disch := decide) only [high, BitVec.extractLsb'_append_eq_of_le, BitVec.extractLsb'_append_eq_of_add_le]; simp
  · simp only [high, BitVec.getLsbD_append]; simp
  · simp (disch := decide) only [high, BitVec.extractLsb'_append_eq_of_add_le]; simp

/-- The reserved word of a transfer with an offset shifted by a register is that transfer, where the
parameter allows it (rules R91, R171, D16). -/
theorem exec_regShiftInstr (op : SdtOp) (h : SdtHead) (o : ShiftRegOperand) {s : State}
    (hp : s.platform.ldrRegShiftByReg = .allow) :
    exec (regShiftInstr op h o) s = singleTransfer op h (.regShift o) s := by
  obtain ⟨h1, h2, h3, h4, h5, h6, h7, h8, h9, h10⟩ := regShift_fields h.p h.u (decide (sdtSize op = .byte)) h.w
    (decide (sdtKind op = .read)) (regBits h.rn) (regBits h.rd) (regBits o.rs) (shiftTypeBits o.ty)
  simp only [regShiftInstr, exec, execReservedSdt, hp, h9, h3, h5, regShiftHead, regShiftOperand, h1, h2, h4, h6, h7, h8,
    h10, regOfBits_regBits, shiftTypeOfBits_shiftTypeBits]
  cases op <;> rfl

/-- The entries the inputs can force (rules R100, R240). -/
theorem pendingEntry_cases {s t : State} (h : pendingEntry s = some t) :
    t = resetEntry s ∨ (t = takeException .fiq s ∧ s.maskF = false) ∨ (t = takeException .irq s ∧ s.maskI = false) := by
  unfold pendingEntry at h
  split at h
  · cases h; exact .inl rfl
  · split at h
    · rename_i hf; cases h; exact .inr (.inl ⟨rfl, by simp at hf; exact hf.1⟩)
    · split at h
      · rename_i hi; cases h; exact .inr (.inr ⟨rfl, by simp at hi; exact hi.1⟩)
      · cases h

/-- A next state of a step: this step's inputs dropped from an entry or from what the instruction gives. -/
theorem step_next {s t : State} (h : step s = .next t) :
    s.haltAddress ≠ some (pcAddr s) ∧ ∃ u, t = dropInput u ∧
      (pendingEntry s = some u ∨ (pendingEntry s = none ∧ runFetched s = .next u)) := by
  unfold step at h
  split at h
  · cases h
  · rename_i hh
    refine ⟨hh, ?_⟩
    cases hp : pendingEntry s with
    | some u => rw [hp] at h; cases h; exact ⟨u, rfl, .inl rfl⟩
    | none =>
      rw [hp] at h
      change endStep (runFetched s) = .next t at h
      cases hr : runFetched s with
      | next u => rw [hr] at h; cases h; exact ⟨u, rfl, .inr ⟨rfl, rfl⟩⟩
      | fault f => rw [hr] at h; cases h
      | refused r => rw [hr] at h; cases h

/-- An instruction that answers a next state: it is executed, or its fetch was aborted. -/
theorem runFetched_next {s t : State} (h : runFetched s = .next t) :
    (∃ w, exec (decode w) s = .next t) ∨ t = advance (clearHazard s) ∨
      t = takeException .prefetchAbort (clearHazard s) := by
  unfold runFetched at h
  split at h
  · cases h
  · rcases conditional_next h with ⟨-, rfl⟩ | ⟨-, -, hb⟩
    · exact .inr (.inl rfl)
    · cases hb; exact .inr (.inr rfl)
  · exact .inl ⟨_, h⟩

/-- What an instruction of each class can leave, from a state s. -/
inductive Executed (s : State) : State → Prop where
  /-- The condition failed. -/
  | skipped : Executed s (advance (clearHazard s))
  | dataProcessing (op : DpOp) (h : DpHead) (out : AluOut) (c : Bool) :
      Executed s (concluded (dpAssignsPc op h) (dpWrite op h out c (clearHazard s)))
  | transfer (op : SdtOp) (h : SdtHead) (x : Word) :
      Executed s (concluded (sdtAssignsPc op h) (sdtTransfer op h x (clearHazard s)))
  /-- SWI, an undefined instruction, an address exception, an aborted single transfer. -/
  | trapped (e : Exception) (r : Reg) (kept written : Word) (he : exceptionMode e = .svc) (hv : (exceptionVector e).toNat ≤ 5) :
      Executed s (takeException e (failedBase r kept written (clearHazard s)))
  | branched (a : Addr) : Executed s (branchTo a (clearHazard s))
  | linked (a : Addr) (v : Word) : Executed s (branchTo a (writeX 14 v (clearHazard s)))
  /-- An address-excepted or aborted LDM. -/
  | loadFailed (e : Exception) (h : BlockHead) (n : Fin 15) (b f : Word) (vs : List Word) (he : exceptionMode e = .svc)
      (hv : (exceptionVector e).toNat ≤ 5) :
      Executed s (failBlock e h n b f
        (failedLoads (bankMode (loadUsesUserBank h) s) (listedRegs h.list) vs (clearHazard s)))
  | loaded (h : BlockHead) (n : Fin 15) (pairs : List (Reg × Word)) (v : Word) :
      Executed s (concluded (inList h.list .r15) (finishLdm h (loadedPc pairs)
        (loadRegs (bankMode (loadUsesUserBank h) s) pairs (blockWriteBack h n v (clearHazard s)))))
  /-- An address-excepted or aborted STM, after the words it has stored. -/
  | storeFailed (e : Exception) (h : BlockHead) (n : Fin 15) (b f : Word) (pairs : List (Word × Word))
      (he : exceptionMode e = .svc) (hv : (exceptionVector e).toNat ≤ 5) :
      Executed s (failBlock e h n b f (storeAll pairs (clearHazard s)))
  | stored (h : BlockHead) (n : Fin 15) (v : Word) (pairs : List (Word × Word)) :
      Executed s (advance (blockWriteBack h n v (storeAll pairs (clearHazard s))))

theorem executed_dataProcessing {op : DpOp} {h : DpHead} {o : Operand2} {s t : State}
    (hn : dataProcessing op h o s = .next t) : Executed s t := by
  rcases dataProcessing_next hn with ⟨-, rfl⟩ | ⟨b, -, rfl⟩
  · exact .skipped
  · exact .dataProcessing ..

theorem executed_singleTransfer {op : SdtOp} {h : SdtHead} {o : Offset} {s t : State}
    (hp : ∀ r, o = .regShift r → s.platform.ldrRegShiftByReg = .allow) (hn : singleTransfer op h o s = .next t) :
    Executed s t := by
  rcases singleTransfer_next hp hn with ⟨-, rfl⟩ | ⟨x, -, rfl | rfl | ⟨-, rfl⟩⟩
  · exact .skipped
  · exact .trapped _ _ _ _ rfl (by decide)
  · exact .trapped _ _ _ _ rfl (by decide)
  · exact .transfer ..

theorem executed_swi {c : Cond} {x : BitVec 24} {s t : State} (hn : execSwi c x s = .next t) : Executed s t := by
  rcases conditional_next hn with ⟨-, rfl⟩ | ⟨-, -, hb⟩
  · exact .skipped
  · cases hb; exact .trapped .softwareInterrupt .r15 0 0 rfl (by decide)

theorem executed_undefined {c : Cond} {w : Word} {s t : State} (hn : conditional c [] (undefinedBody w) s = .next t) :
    Executed s t := by
  rcases conditional_next hn with ⟨-, rfl⟩ | ⟨-, -, hb⟩
  · exact .skipped
  · unfold undefinedBody at hb
    split at hb
    · cases hb; exact .trapped .undefinedInstruction .r15 0 0 rfl (by decide)
    · cases hb

theorem executed_refused {c : Cond} {why : Refusal} {s t : State}
    (hn : conditional c [] (fun _ => .refused why) s = .next t) : Executed s t := by
  rcases conditional_next hn with ⟨-, rfl⟩ | ⟨-, -, hb⟩
  · exact .skipped
  · cases hb

theorem executed_b {c : Cond} {o : BitVec 24} {s t : State} (hn : execB c o s = .next t) : Executed s t := by
  rcases conditional_next hn with ⟨-, rfl⟩ | ⟨-, -, hb⟩
  · exact .skipped
  · cases hb; exact .branched _

theorem executed_bl {c : Cond} {o : BitVec 24} {s t : State} (hn : execBl c o s = .next t) : Executed s t := by
  rcases conditional_next hn with ⟨-, rfl⟩ | ⟨-, -, hb⟩
  · exact .skipped
  · cases hb; exact .linked _ _

theorem executed_ldm {h : BlockHead} {s t : State} (hn : execLdm h s = .next t) : Executed s t := by
  rcases execLdm_next hn with ⟨-, rfl⟩ | ⟨n, -, ⟨e, b, f, vs, he, hv, rfl⟩ | ⟨pairs, v, rfl⟩⟩
  · exact .skipped
  · exact .loadFailed _ _ _ _ _ _ he hv
  · exact .loaded ..

theorem executed_stm {h : BlockHead} {s t : State} (hn : execStm h s = .next t) : Executed s t := by
  rcases execStm_next hn with ⟨-, rfl⟩ | ⟨n, -, pairs, ⟨e, b, f, he, hv, rfl⟩ | ⟨v, rfl⟩⟩
  · exact .skipped
  · exact .storeFailed _ _ _ _ _ _ he hv
  · exact .stored ..

theorem executed_reservedSdt {c : Cond} {high : BitVec 20} {low : BitVec 4} {s t : State}
    (hn : execReservedSdt c high low s = .next t) : Executed s t := by
  unfold execReservedSdt at hn
  split at hn
  · rename_i hp _; exact executed_singleTransfer (fun _ _ => hp) hn
  · exact executed_refused hn

/-- All that an instruction answering a next state can have done, by its class. -/
theorem executed_exec {i : Instr} {s t : State} (hn : exec i s = .next t) : Executed s t := by
  cases i with
  | b | bl => first | exact executed_b hn | exact executed_bl hn
  | swi _ n => exact executed_swi (x := n) hn
  | undefined110 | undefined1110 => exact executed_undefined hn
  | reservedDp | reservedBlock => exact executed_refused hn
  | reservedSdt => exact executed_reservedSdt hn
  | ldm h => exact executed_ldm hn
  | stm h => exact executed_stm hn
  | ldrImm | ldrReg | ldrbImm | ldrbReg | strImm | strReg | strbImm | strbReg =>
    exact executed_singleTransfer (fun _ h => by cases h) hn
  | _ => exact executed_dataProcessing hn

end Sys2Proof.Machine
end

