-- ==== Sys2Proof/Tests/Slice0.lean ====
section
/-! SUPPORT. Tests on single words and single steps. Words are written out from the encodings of
spec/30_encoding.md; expected results are those of spec/95_test_vectors.md (L1 and L2 vectors, named in
each test) or computed by hand from the rules. Then one witness for each obligation with hypotheses. -/

namespace Sys2Proof.Tests

open Sys2Proof.Machine

/-- What a next state holds; nothing where the answer is a fault or a refusal. -/
def after {α : Type} (r : Result) (get : State → α) : Option α :=
  match r with
  | .next t => some (get t)
  | .fault _ => none
  | .refused _ => none

/-- The name of a refusal. -/
def refusal (r : Result) : Option Refusal :=
  match r with
  | .refused why => some why
  | .next _ => none
  | .fault _ => none

/-- The state the vectors start from: PC 0x8000, user mode, masks and flags 0. -/
def start : State := { State.reset with pc := 0x2000, mode := .usr, maskI := false, maskF := false }

/-- The flags of a state, N Z C V. -/
def nzcv (s : State) : BitVec 4 :=
  BitVec.ofBool s.flagN ++ BitVec.ofBool s.flagZ ++ BitVec.ofBool s.flagC ++ BitVec.ofBool s.flagV

/-- A state with these flags. -/
def withNzcv (f : BitVec 4) (s : State) : State :=
  { s with flagN := f.getLsbD 3, flagZ := f.getLsbD 2, flagC := f.getLsbD 1, flagV := f.getLsbD 0 }

/-- A state with a word in memory. -/
def withWord (a : Nat) (v : Word) (s : State) : State := { s with mem := s.mem.writeWord .little a v }

/-- A state in this mode with these masks. -/
def inMode (m : Mode) (i f : Bool) (s : State) : State := { s with mode := m, maskI := i, maskF := f }

/-- The state with every parameter at the spec's own default: those four are refusals. -/
def strict (s : State) : State :=
  { s with platform := { s.platform with
      misalignedWord := .refuse, ldrRegShiftByReg := .refuse, transBit := .refuse, ldmUserBank := .refuse } }

/-- The state with `shift_ge32` and `pc_wrap` set to refuse. -/
def stricter (s : State) : State :=
  { s with platform := { s.platform with shiftGe32 := .refuse, pcWrap := .refuse } }

/-- The state with `ldr_reg_shift_by_reg` set to allow. -/
def allowing (s : State) : State := { s with platform := { s.platform with ldrRegShiftByReg := .allow } }

/-- The state on a platform with these `abort_side_effects`. -/
def leaving (b : FailedBase) (l : FailedLoads) (s : State) : State :=
  { s with platform := { s.platform with abortSideEffects := { base := b, loads := l } } }

/-- The state on a platform with ROM, a device and a hole at 0x9000, 0xA000 and 0xB000, 4096 bytes each. -/
def mapped (s : State) : State :=
  { s with platform := { s.platform with
      memMap := [⟨0x9000, 0x1000, .rom⟩, ⟨0xA000, 0x1000, .device⟩, ⟨0xB000, 0x1000, .absent⟩] } }

/-! ## Well-formedness -/

/-- A load of no register is ill-formed (R201). -/
theorem test_wellFormed_ldm : (Instr.ldm ⟨.al, false, true, false, false, .gpr 0, 0⟩).wellFormed = false := by decide

/-- A store of no register is ill-formed (R201). -/
theorem test_wellFormed_stm : (Instr.stm ⟨.al, false, true, false, false, .gpr 0, 0⟩).wellFormed = false := by decide

/-- A list of R15 alone is well-formed (R191). -/
theorem test_wellFormed_list : (Instr.ldm ⟨.al, false, true, false, false, .gpr 0, 0x8000⟩).wellFormed = true := by decide

/-! ## Decoding: words written out from rules R81 to R91 -/

/-- The three forms of ADC (rules R84 to R86, R120). -/
theorem test_decode_adc :
    decodeTableWord 32 0x02A1F181 = some (.adcImm ⟨.eq, false, .gpr 1, .r15⟩ ⟨1, 129⟩) ∧
    decodeTableWord 32 0xF0BF1103 = some (.adcShiftImm ⟨.nv, true, .r15, .gpr 1⟩ ⟨2, .lsl, .gpr 3⟩) ∧
    decodeTableWord 32 0xE0A3145F = some (.adcShiftReg ⟨.al, false, .gpr 3, .gpr 1⟩ ⟨.gpr 4, .asr, .r15⟩) := by decide

/-- The three forms of ADD (rules R84 to R86, R120). -/
theorem test_decode_add :
    decodeTableWord 32 0x1292E486 = some (.addImm ⟨.ne, true, .gpr 2, .gpr 14⟩ ⟨4, 134⟩) ∧
    decodeTableWord 32 0xE08E24A8 = some (.addShiftImm ⟨.al, false, .gpr 14, .gpr 2⟩ ⟨9, .lsr, .gpr 8⟩) ∧
    decodeTableWord 32 0xE0982F7E = some (.addShiftReg ⟨.al, true, .gpr 8, .gpr 2⟩ ⟨.r15, .ror, .gpr 14⟩) := by decide

/-- The three forms of AND (rules R84 to R86, R120). -/
theorem test_decode_and :
    decodeTableWord 32 0x2203D78B = some (.andImm ⟨.cs, false, .gpr 3, .gpr 13⟩ ⟨7, 139⟩) ∧
    decodeTableWord 32 0xD01D384D = some (.andShiftImm ⟨.le, true, .gpr 13, .gpr 3⟩ ⟨16, .asr, .gpr 13⟩) ∧
    decodeTableWord 32 0xE00D3A1D = some (.andShiftReg ⟨.al, false, .gpr 13, .gpr 3⟩ ⟨.gpr 10, .lsl, .gpr 13⟩) := by decide

/-- The three forms of BIC (rules R84 to R86, R120). -/
theorem test_decode_bic :
    decodeTableWord 32 0x33D4CA90 = some (.bicImm ⟨.cc, true, .gpr 4, .gpr 12⟩ ⟨10, 144⟩) ∧
    decodeTableWord 32 0xC1CC4BE2 = some (.bicShiftImm ⟨.gt, false, .gpr 12, .gpr 4⟩ ⟨23, .ror, .gpr 2⟩) ∧
    decodeTableWord 32 0xE1D2453C = some (.bicShiftReg ⟨.al, true, .gpr 2, .gpr 4⟩ ⟨.gpr 5, .lsr, .gpr 12⟩) := by decide

/-- The three forms of CMN (rules R84 to R86, R120). -/
theorem test_decode_cmn :
    decodeTableWord 32 0x4365BD95 = some (.cmnImm ⟨.mi, false, .gpr 5, .gpr 11⟩ ⟨13, 149⟩) ∧
    decodeTableWord 32 0xB17B5F07 = some (.cmnShiftImm ⟨.lt, true, .gpr 11, .gpr 5⟩ ⟨30, .lsl, .gpr 7⟩) ∧
    decodeTableWord 32 0xE167505B = some (.cmnShiftReg ⟨.al, false, .gpr 7, .gpr 5⟩ ⟨.gpr 0, .asr, .gpr 11⟩) := by decide

/-- The three forms of CMP (rules R84 to R86, R120). -/
theorem test_decode_cmp :
    decodeTableWord 32 0x5356A09A = some (.cmpImm ⟨.pl, true, .gpr 6, .gpr 10⟩ ⟨0, 154⟩) ∧
    decodeTableWord 32 0xA14A62AC = some (.cmpShiftImm ⟨.ge, false, .gpr 10, .gpr 6⟩ ⟨5, .lsr, .gpr 12⟩) ∧
    decodeTableWord 32 0xE15C6B7A = some (.cmpShiftReg ⟨.al, true, .gpr 12, .gpr 6⟩ ⟨.gpr 11, .ror, .gpr 10⟩) := by decide

/-- The three forms of EOR (rules R84 to R86, R120). -/
theorem test_decode_eor :
    decodeTableWord 32 0x6227939F = some (.eorImm ⟨.vs, false, .gpr 7, .gpr 9⟩ ⟨3, 159⟩) ∧
    decodeTableWord 32 0x90397641 = some (.eorShiftImm ⟨.ls, true, .gpr 9, .gpr 7⟩ ⟨12, .asr, .gpr 1⟩) ∧
    decodeTableWord 32 0xE0217619 = some (.eorShiftReg ⟨.al, false, .gpr 1, .gpr 7⟩ ⟨.gpr 6, .lsl, .gpr 9⟩) := by decide

/-- The three forms of MOV (rules R84 to R86, R120). -/
theorem test_decode_mov :
    decodeTableWord 32 0x73B886A4 = some (.movImm ⟨.vc, true, .gpr 8, .gpr 8⟩ ⟨6, 164⟩) ∧
    decodeTableWord 32 0x81A889E6 = some (.movShiftImm ⟨.hi, false, .gpr 8, .gpr 8⟩ ⟨19, .ror, .gpr 6⟩) ∧
    decodeTableWord 32 0xE1B68138 = some (.movShiftReg ⟨.al, true, .gpr 6, .gpr 8⟩ ⟨.gpr 1, .lsr, .gpr 8⟩) := by decide

/-- The three forms of MVN (rules R84 to R86, R120). -/
theorem test_decode_mvn :
    decodeTableWord 32 0x83E979A9 = some (.mvnImm ⟨.hi, false, .gpr 9, .gpr 7⟩ ⟨9, 169⟩) ∧
    decodeTableWord 32 0x71F79D0B = some (.mvnShiftImm ⟨.vc, true, .gpr 7, .gpr 9⟩ ⟨26, .lsl, .gpr 11⟩) ∧
    decodeTableWord 32 0xE1EB9C57 = some (.mvnShiftReg ⟨.al, false, .gpr 11, .gpr 9⟩ ⟨.gpr 12, .asr, .gpr 7⟩) := by decide

/-- The three forms of ORR (rules R84 to R86, R120). -/
theorem test_decode_orr :
    decodeTableWord 32 0x939A6CAE = some (.orrImm ⟨.ls, true, .gpr 10, .gpr 6⟩ ⟨12, 174⟩) ∧
    decodeTableWord 32 0x6186A0A0 = some (.orrShiftImm ⟨.vs, false, .gpr 6, .gpr 10⟩ ⟨1, .lsr, .gpr 0⟩) ∧
    decodeTableWord 32 0xE190A776 = some (.orrShiftReg ⟨.al, true, .gpr 0, .gpr 10⟩ ⟨.gpr 7, .ror, .gpr 6⟩) := by decide

/-- The three forms of RSB (rules R84 to R86, R120). -/
theorem test_decode_rsb :
    decodeTableWord 32 0xA26B5FB3 = some (.rsbImm ⟨.ge, false, .gpr 11, .gpr 5⟩ ⟨15, 179⟩) ∧
    decodeTableWord 32 0x5075B445 = some (.rsbShiftImm ⟨.pl, true, .gpr 5, .gpr 11⟩ ⟨8, .asr, .gpr 5⟩) ∧
    decodeTableWord 32 0xE065B215 = some (.rsbShiftReg ⟨.al, false, .gpr 5, .gpr 11⟩ ⟨.gpr 2, .lsl, .gpr 5⟩) := by decide

/-- The three forms of RSC (rules R84 to R86, R120). -/
theorem test_decode_rsc :
    decodeTableWord 32 0xB2FC42B8 = some (.rscImm ⟨.lt, true, .gpr 12, .gpr 4⟩ ⟨2, 184⟩) ∧
    decodeTableWord 32 0x40E4C7EA = some (.rscShiftImm ⟨.mi, false, .gpr 4, .gpr 12⟩ ⟨15, .ror, .gpr 10⟩) ∧
    decodeTableWord 32 0xE0FACD34 = some (.rscShiftReg ⟨.al, true, .gpr 10, .gpr 12⟩ ⟨.gpr 13, .lsr, .gpr 4⟩) := by decide

/-- The three forms of SBC (rules R84 to R86, R120). -/
theorem test_decode_sbc :
    decodeTableWord 32 0xC2CD35BD = some (.sbcImm ⟨.gt, false, .gpr 13, .gpr 3⟩ ⟨5, 189⟩) ∧
    decodeTableWord 32 0x30D3DB0F = some (.sbcShiftImm ⟨.cc, true, .gpr 3, .gpr 13⟩ ⟨22, .lsl, .r15⟩) ∧
    decodeTableWord 32 0xE0CFD853 = some (.sbcShiftReg ⟨.al, false, .r15, .gpr 13⟩ ⟨.gpr 8, .asr, .gpr 3⟩) := by decide

/-- The three forms of SUB (rules R84 to R86, R120). -/
theorem test_decode_sub :
    decodeTableWord 32 0xD25E28C2 = some (.subImm ⟨.le, true, .gpr 14, .gpr 2⟩ ⟨8, 194⟩) ∧
    decodeTableWord 32 0x2042EEA4 = some (.subShiftImm ⟨.cs, false, .gpr 2, .gpr 14⟩ ⟨29, .lsr, .gpr 4⟩) ∧
    decodeTableWord 32 0xE054E372 = some (.subShiftReg ⟨.al, true, .gpr 4, .gpr 14⟩ ⟨.gpr 3, .ror, .gpr 2⟩) := by decide

/-- The three forms of TEQ (rules R84 to R86, R120). -/
theorem test_decode_teq :
    decodeTableWord 32 0xE32F1BC7 = some (.teqImm ⟨.al, false, .r15, .gpr 1⟩ ⟨11, 199⟩) ∧
    decodeTableWord 32 0x1131F249 = some (.teqShiftImm ⟨.ne, true, .gpr 1, .r15⟩ ⟨4, .asr, .gpr 9⟩) ∧
    decodeTableWord 32 0xE129FE11 = some (.teqShiftReg ⟨.al, false, .gpr 9, .r15⟩ ⟨.gpr 14, .lsl, .gpr 1⟩) := by decide

/-- The three forms of TST (rules R84 to R86, R120). -/
theorem test_decode_tst :
    decodeTableWord 32 0xF3100ECC = some (.tstImm ⟨.nv, true, .gpr 0, .gpr 0⟩ ⟨14, 204⟩) ∧
    decodeTableWord 32 0x010005EE = some (.tstShiftImm ⟨.eq, false, .gpr 0, .gpr 0⟩ ⟨11, .ror, .gpr 14⟩) ∧
    decodeTableWord 32 0xE11E0930 = some (.tstShiftReg ⟨.al, true, .gpr 14, .gpr 0⟩ ⟨.gpr 9, .lsr, .gpr 0⟩) := by decide

/-- The two forms of LDR (rule R87). -/
theorem test_decode_ldr :
    decodeTableWord 32 0x0433C9A5 = some (.ldrImm ⟨.eq, false, false, true, .gpr 3, .gpr 12⟩ 2469) ∧
    decodeTableWord 32 0xD79CF9E3 = some (.ldrReg ⟨.le, true, true, false, .gpr 12, .r15⟩ ⟨19, .ror, .gpr 3⟩) := by
  decide

/-- The two forms of LDRB (rule R87). -/
theorem test_decode_ldrb :
    decodeTableWord 32 0x14F4B9A6 = some (.ldrbImm ⟨.ne, false, true, true, .gpr 4, .gpr 11⟩ 2470) ∧
    decodeTableWord 32 0xC75BFA44 = some (.ldrbReg ⟨.gt, true, false, false, .gpr 11, .r15⟩ ⟨20, .asr, .gpr 4⟩) := by
  decide

/-- The two forms of STR (rule R87). -/
theorem test_decode_str :
    decodeTableWord 32 0x2525A9A7 = some (.strImm ⟨.cs, true, false, true, .gpr 5, .gpr 10⟩ 2471) ∧
    decodeTableWord 32 0xB68AFAA5 = some (.strReg ⟨.lt, false, true, false, .gpr 10, .r15⟩ ⟨21, .lsr, .gpr 5⟩) := by
  decide

/-- The two forms of STRB (rule R87). -/
theorem test_decode_strb :
    decodeTableWord 32 0x35C699A8 = some (.strbImm ⟨.cc, true, true, false, .gpr 6, .gpr 9⟩ 2472) ∧
    decodeTableWord 32 0xA669FB06 = some (.strbReg ⟨.ge, false, false, true, .gpr 9, .r15⟩ ⟨22, .lsl, .gpr 6⟩) := by
  decide

/-- LDM (rule R88). -/
theorem test_decode_ldm :
    decodeTableWord 32 0xE95D9001 = some (.ldm ⟨.al, true, false, true, false, .gpr 13, 0x9001⟩) := by decide

/-- STM (rule R88). -/
theorem test_decode_stm :
    decodeTableWord 32 0xE8AD9001 = some (.stm ⟨.al, false, true, false, true, .gpr 13, 0x9001⟩) := by decide

/-- B and BL, the words of vectors L2-B5 and L2-B6 (rule R83). -/
theorem test_decode_branches :
    decodeTableWord 32 0x1AFFFFFC = some (.b .ne 0xFFFFFC) ∧ decodeTableWord 32 0xEB000010 = some (.bl .al 0x10) := by
  decide

/-- SWI and the two undefined patterns, vectors L2-T2, L2-T4, L2-T5 (rules R89, R90). -/
theorem test_decode_traps :
    decodeTableWord 32 0xEF123456 = some (.swi .al 0x123456) ∧
    decodeTableWord 32 0xEE800001 = some (.undefined1110 .al 0x800001) ∧
    decodeTableWord 32 0xED000002 = some (.undefined110 .al 0x1000002) := by decide

/-- The three reserved patterns, those of vectors L2-M20 and L2-M40 among them (rule R91). -/
theorem test_decode_reserved :
    decodeTableWord 32 0xE0000291 = some (.reservedDp .al 2 0 1) ∧
    decodeTableWord 32 0xE7910012 = some (.reservedSdt .al 0xC8800 2) ∧
    decodeTableWord 32 0xE8900000 = some (.reservedBlock .al 0x090) := by decide

/-- The decoder takes 32-bit words of four bytes only. -/
theorem test_decode_short :
    (match decodeBytes [0x01, 0x00, 0xA0] with | .ok _ => false | .error why => decide (why = .truncated)) = true := by
  decide

/-! ## One step -/

/-- Vector L2-A1. -/
theorem test_exec_adds_carry_overflow :
    after (exec (decode 0xE0910002) (writeX 2 0x80000000 (writeX 1 0x80000000 start)))
      (fun t => (readX 0 t, nzcv t)) = some (0, 0b0111) := by decide

/-- Vector L2-A3. -/
theorem test_exec_adds_overflow :
    after (exec (decode 0xE2910001) (writeX 1 0x7FFFFFFF start))
      (fun t => (readX 0 t, nzcv t)) = some (0x80000000, 0b1001) := by decide

/-- Vector L2-A4. -/
theorem test_exec_subs_overflow :
    after (exec (decode 0xE0510002) (writeX 2 1 (writeX 1 0x80000000 start)))
      (fun t => (readX 0 t, nzcv t)) = some (0x7FFFFFFF, 0b0011) := by decide

/-- Vector L2-A6. -/
theorem test_exec_subs_borrow :
    after (exec (decode 0xE0510002) (writeX 2 0x80000000 (writeX 1 0 start)))
      (fun t => (readX 0 t, nzcv t)) = some (0x80000000, 0b1001) := by decide

/-- Vector L2-A8. -/
theorem test_exec_adcs_carry_in :
    after (exec (decode 0xE0B10002) (withNzcv 0b0010 (writeX 2 0 (writeX 1 0x7FFFFFFF start))))
      (fun t => (readX 0 t, nzcv t)) = some (0x80000000, 0b1001) := by decide

/-- Vector L2-A9. -/
theorem test_exec_sbcs_borrow_in :
    after (exec (decode 0xE0D10002) (writeX 2 5 (writeX 1 5 start)))
      (fun t => (readX 0 t, nzcv t)) = some (0xFFFFFFFF, 0b1000) := by decide

/-- Vector L2-A11. -/
theorem test_exec_sbcs_wrap :
    after (exec (decode 0xE0D10002) (writeX 2 0xFFFFFFFF (writeX 1 0 start)))
      (fun t => (readX 0 t, nzcv t)) = some (0, 0b0100) := by decide

/-- Vector L2-A12. -/
theorem test_exec_rsbs :
    after (exec (decode 0xE0710002) (writeX 2 0 (writeX 1 1 start)))
      (fun t => (readX 0 t, nzcv t)) = some (0xFFFFFFFF, 0b1000) := by decide

/-- Vector L2-A14. -/
theorem test_exec_rscs :
    after (exec (decode 0xE0F10002) (writeX 2 10 (writeX 1 3 start)))
      (fun t => (readX 0 t, nzcv t)) = some (6, 0b0010) := by decide

/-- Vector L2-A16. -/
theorem test_exec_rsc_keeps_flags :
    after (exec (decode 0xE2E10000) (writeX 1 0 start))
      (fun t => (readX 0 t, nzcv t)) = some (0xFFFFFFFF, 0b0000) := by decide

/-- Vector L2-A17. -/
theorem test_exec_cmp :
    after (exec (decode 0xE1510002) (writeX 2 0xFFFFFFFF (writeX 1 0x7FFFFFFF start)))
      (fun t => (readX 0 t, nzcv t)) = some (0, 0b1001) := by decide

/-- Vector L2-A20. -/
theorem test_exec_cmn :
    after (exec (decode 0xE3710001) (writeX 1 0xFFFFFFFF start))
      (fun t => (readX 0 t, nzcv t)) = some (0, 0b0110) := by decide

/-- Vector L2-A21. -/
theorem test_exec_add_same_register :
    after (exec (decode 0xE0800000) (writeX 0 0x40000000 start))
      (fun t => (readX 0 t, nzcv t)) = some (0x80000000, 0b0000) := by decide

/-- Vector L2-A31. -/
theorem test_exec_ands_shifted :
    after (exec (decode 0xE0110082) (withNzcv 0b0001 (writeX 2 0x80000001 (writeX 1 0xFFFFFFFF start))))
      (fun t => (readX 0 t, nzcv t)) = some (2, 0b0011) := by decide

/-- Vector L2-A32. -/
theorem test_exec_bic :
    after (exec (decode 0xE3C100FF) (writeX 1 0x12345678 start))
      (fun t => (readX 0 t, nzcv t)) = some (0x12345600, 0b0000) := by decide

/-- Vector L2-A33. -/
theorem test_exec_bics :
    after (exec (decode 0xE1D10002) (withNzcv 0b0010 (writeX 2 0xFFFFFFFF (writeX 1 0xFFFFFFFF start))))
      (fun t => (readX 0 t, nzcv t)) = some (0, 0b0110) := by decide

/-- Vector L2-A34. -/
theorem test_exec_eors :
    after (exec (decode 0xE0310002) (writeX 2 0x0000FFFF (writeX 1 0xFFFF0000 start)))
      (fun t => (readX 0 t, nzcv t)) = some (0xFFFFFFFF, 0b1000) := by decide

/-- Vector L2-A36. -/
theorem test_exec_orrs_rotated :
    after (exec (decode 0xE3910102) (writeX 1 1 start))
      (fun t => (readX 0 t, nzcv t)) = some (0x80000001, 0b1010) := by decide

/-- Vector L2-A43. -/
theorem test_exec_movs_asr_32 :
    after (exec (decode 0xE1B00041) (writeX 1 0x80000000 start))
      (fun t => (readX 0 t, nzcv t)) = some (0xFFFFFFFF, 0b1010) := by decide

/-- Vector L2-A63. -/
theorem test_exec_movs_lsl_33 :
    after (exec (decode 0xE1B00211) (withNzcv 0b0010 (writeX 2 33 (writeX 1 0x80000001 start))))
      (fun t => (readX 0 t, nzcv t)) = some (0, 0b0100) := by decide

/-- Vector L2-A39. -/
theorem test_exec_mvns :
    after (exec (decode 0xE3F00000) start)
      (fun t => (readX 0 t, nzcv t)) = some (0xFFFFFFFF, 0b1000) := by decide

/-- Vector L2-A48. -/
theorem test_exec_teq :
    after (exec (decode 0xE1310002) (withNzcv 0b0011 (writeX 2 0x1234 (writeX 1 0x1234 start))))
      (fun t => (readX 0 t, nzcv t)) = some (0, 0b0111) := by decide

/-- Vector L2-A49. -/
theorem test_exec_tst :
    after (exec (decode 0xE3110001) (writeX 1 2 start))
      (fun t => (readX 0 t, nzcv t)) = some (0, 0b0100) := by decide

/-- Vector L2-A70. -/
theorem test_exec_teqp :
    after (exec (decode 0xE33FF000) (withNzcv 0b1111 (inMode .svc true true start)))
      (fun t => (t.mode, t.maskI, t.maskF, nzcv t, t.pc)) = some (.usr, false, false, 0b0000, 0x2001) := by decide

/-- Vector L2-A45. -/
theorem test_exec_rrx :
    after (exec (decode 0xE1B00061) (withNzcv 0b0010 (writeX 1 3 start)))
      (fun t => (readX 0 t, nzcv t)) = some (0x80000001, 0b1010) := by decide

/-- Vector L2-A68. -/
theorem test_exec_ror_36 :
    after (exec (decode 0xE1B00271) (writeX 2 36 (writeX 1 15 start)))
      (fun t => (readX 0 t, nzcv t)) = some (0xF0000000, 0b1010) := by decide

/-- Vector L2-A58. -/
theorem test_exec_mov_pc_with_psr :
    after (exec (decode 0xE1A0000F) (withNzcv 0b0101 (inMode .svc true true start)))
      (fun t => (readX 0 t, nzcv t)) = some (0x5C00800B, 0b0101) := by decide

/-- Vector L2-A59. -/
theorem test_exec_add_pc_twelve :
    after (exec (decode 0xE08F0211) (writeX 2 4 (writeX 1 1 start)))
      (fun t => (readX 0 t, nzcv t)) = some (0x801C, 0b0000) := by decide

/-- Vector L2-A51. -/
theorem test_exec_movs_pc_user :
    after (exec (decode 0xE1B0F00E) (writeX 14 0x6C008007 start))
      (fun t => (t.pc, nzcv t, t.mode, t.maskI, t.maskF)) = some (0x2001, 0b0110, .usr, false, false) := by decide

/-- Vector L2-A53. -/
theorem test_exec_movs_pc_svc :
    after (exec (decode 0xE1B0F001) (writeX 1 0xFC00A002 (inMode .svc true true start)))
      (fun t => (t.pc, nzcv t, t.mode, t.maskI, t.maskF)) = some (0x2800, 0b1111, .irq, true, true) := by decide

/-- Vector L2-B4. -/
theorem test_exec_b_wraps_under :
    after (exec (decode 0xEAFFFFFD) { start with pc := 0 })
      (fun t => t.pc) = some 0xFFFFFF := by decide

/-- Vector L2-B1. -/
theorem test_exec_b_forward :
    after (exec (decode 0xEA7FFFFF) { start with pc := 0x400 })
      (fun t => t.pc) = some 0x800401 := by decide

/-- Vector L2-B6. -/
theorem test_exec_bl :
    after (exec (decode 0xEB000010) (withNzcv 0b0110 ({ start with pc := 0x40 })))
      (fun t => (readX 14 t, t.pc, nzcv t)) = some (0x60000104, 0x52, 0b0110) := by decide

/-- Vector L2-B7. -/
theorem test_exec_bl_svc_wraps :
    after (exec (decode 0xEB000000) (withNzcv 0b1001 ({ inMode .svc true true start with pc := 0xFFFFFF })))
      (fun t => (readPhys (.svc 1) t, readPhys (.usr 14) t, t.pc)) = some (0x9C000003, 0, 1) := by decide

/-- Vector L2-M4. -/
theorem test_exec_ldr_post_shifted :
    after (exec (decode 0xE6910102) (withWord 0x2010 0xA0 (writeX 1 0x2010 (writeX 2 8 start))))
      (fun t => (readX 0 t, readX 1 t)) = some (0xA0, 0x2030) := by decide

/-- Vector L2-M8. -/
theorem test_exec_ldr_pc :
    after (exec (decode 0xE591F000) (withNzcv 0b0100 (withWord 0x9000 0xF000A003 (writeX 1 0x9000 start))))
      (fun t => (t.pc, nzcv t, t.mode)) = some (0x2800, 0b0100, .usr) := by decide

/-- Vector L2-M9. -/
theorem test_exec_ldrb_pre :
    after (exec (decode 0xE5712001) { writeX 1 0x2001 start with mem := Memory.write [] 0x2000 0x80 })
      (fun t => (readX 2 t, readX 1 t)) = some (0x80, 0x2000) := by decide

/-- Vector L2-M18, rotate. -/
theorem test_exec_ldr_rotates :
    after (exec (decode 0xE5910001) (withWord 0x9000 0x11223344 (writeX 1 0x9000 start)))
      (fun t => readX 0 t) = some 0x44112233 := by decide

/-- Vector L2-M10, L2-M11. -/
theorem test_exec_str_post :
    after (exec (decode 0xE4810004) (writeX 1 0x2000 (writeX 0 0x11223344 start)))
      (fun t => (t.mem, readX 1 t)) = some ([(0x2000, 0x44), (0x2001, 0x33), (0x2002, 0x22), (0x2003, 0x11)], 0x2004) := by decide

/-- Vector L2-M12. -/
theorem test_exec_str_pc :
    after (exec (decode 0xE581F000) (withNzcv 0b1001 (writeX 1 0x9000 (inMode .svc true false start))))
      (fun t => t.mem.readWord .little 0x9000) = some 0x9800800F := by decide

/-- Vector L2-M14. -/
theorem test_exec_strb :
    after (exec (decode 0xE5C10000) (withWord 0x9000 0x11223344 (writeX 0 0x1FF (writeX 1 0x9001 start))))
      (fun t => t.mem.readWord .little 0x9000) = some 0x1122FF44 := by decide

/-- Vector L2-M13. -/
theorem test_exec_strb_reg :
    after (exec (decode 0xE7C10002) (writeX 2 3 (writeX 1 0x3000 (writeX 0 0x123456AB start))))
      (fun t => t.mem) = some [(0x3003, 0xAB)] := by decide

/-- Vector L2-M16. -/
theorem test_exec_ldr_address_exception :
    after (exec (decode 0xE5910004) (withNzcv 0b0010 (writeX 1 0x3FFFFFC start)))
      (fun t => (readX 14 t, t.mode, t.maskI, t.pc, readX 0 t)) = some (0x20008008, .svc, true, 5, 0) := by decide

/-- Vector L2-M35. -/
theorem test_exec_ldm_increment_before :
    after (exec (decode 0xE990000E) (withWord 0x9014 0xB4 (withWord 0x9018 0xB8 (withWord 0x901C 0xBC (writeX 0 0x9010 start)))))
      (fun t => (readX 1 t, readX 2 t, readX 3 t, readX 0 t)) = some (0xB4, 0xB8, 0xBC, 0x9010) := by decide

/-- Vector L2-M26. -/
theorem test_exec_ldm_pc_with_psr :
    after (exec (decode 0xE8FD8000) (withWord 0x9000 0x60000104 (writeX 13 0x9000 (inMode .svc true true start))))
      (fun t => (t.pc, nzcv t, t.mode, t.maskI, readPhys (.svc 0) t)) = some (0x41, 0b0110, .usr, false, 0x9004) := by decide

/-- Vector L2-M32. -/
theorem test_exec_stm_decrement_after :
    after (exec (decode 0xE820000E) (writeX 3 0x33 (writeX 2 0x22 (writeX 1 0x11 (writeX 0 0x9010 start)))))
      (fun t => (t.mem, readX 0 t)) = some ([(0x9008, 0x11), (0x900C, 0x22), (0x9010, 0x33)], 0x9004) := by decide

/-- Vector L2-M23, at a PC that has not prefetched 0x8004. -/
theorem test_exec_stm_decrement_before :
    after (exec (decode 0xE92D4001) { writeX 14 0x60000104 (writeX 0 7 (writeX 13 0x8008 start)) with pc := 0x400 })
      (fun t => (t.mem, readX 13 t)) = some ([(0x8000, 7), (0x8004, 4), (0x8005, 1), (0x8007, 0x60)], 0x8000) := by decide

/-- Vector L2-M20 where allowed, with R3 as Rs (the word at R1 + (R2 << R3)). -/
theorem test_exec_ldr_shift_by_register :
    after (exec (decode 0xE7910312) (allowing (withWord 0x9400 0xAB (writeX 3 8 (writeX 2 4 (writeX 1 0x9000 start))))))
      (fun t => (readX 0 t, readX 1 t, t.pc)) = some (0xAB, 0x9000, 0x2001) := by decide

/-- Vector L2-T2. -/
theorem test_exec_swi :
    after (exec (decode 0xEF123456) (withNzcv 0b0001 (writeX 14 0x99 (inMode .svc false true start))))
      (fun t => (readX 14 t, t.mode, t.maskI, t.maskF, t.pc)) = some (0x14008007, .svc, true, true, 2) := by decide

/-- Vector L2-T4. -/
theorem test_exec_undefined :
    after (exec (decode 0xEE000000) (withNzcv 0b0010 ({ start with pc := 0x40 })))
      (fun t => (readX 14 t, t.mode, t.maskI, t.pc)) = some (0x20000104, .svc, true, 1) := by decide

/-- Vector L2-T5. -/
theorem test_exec_undefined_110 :
    after (exec (decode 0xEC000000) (withNzcv 0b1000 (start)))
      (fun t => (readX 14 t, t.mode, t.pc)) = some (0x80008004, .svc, 1) := by decide

/-- Vector L2-T3. -/
theorem test_exec_condition_fails :
    after (exec (decode 0x0F000000) start)
      (fun t => (t.mode, t.pc)) = some (.usr, 0x2001) := by decide

/-- Refused: L2-A69. -/
theorem test_refused_r15_shift_amount :
    refusal (exec (decode 0xE1B00F11) start) = some .r15AsShiftAmount := by decide

/-- Refused: L2-M21. -/
theorem test_refused_written_back_base :
    refusal (exec (decode 0xE5B11004) start) = some .loadOfWrittenBackBase := by decide

/-- Refused: rule R91. -/
theorem test_refused_reserved_dp :
    refusal (exec (decode 0xE0000291) start) = some .reservedDataProcessing := by decide

/-- Refused: L2-M20. -/
theorem test_refused_reserved_sdt :
    refusal (exec (decode 0xE7910012) start) = some .reservedOffset := by decide

/-- Refused: L2-M40. -/
theorem test_refused_reserved_block :
    refusal (exec (decode 0xE8900000) start) = some .emptyRegisterList := by decide

/-- Refused: L2-M42. -/
theorem test_refused_block_base :
    refusal (exec (decode 0xE89F0001) start) = some .r15BlockBase := by decide

/-- Refused: L2-M45. -/
theorem test_refused_crosses_top :
    refusal (exec (decode 0xE8900006) (writeX 0 0x3FFFFFC start)) = some .blockCrossesTop := by decide

/-- Refused: L2-M18 at the default. -/
theorem test_refused_misaligned :
    refusal (exec (decode 0xE5910001) (strict (writeX 1 0x9000 start))) = some .misalignedWordAccess := by decide

/-- Refused: L2-M19 at the default. -/
theorem test_refused_translated :
    refusal (exec (decode 0xE4B10004) (strict start)) = some .translatedTransfer := by decide

/-- Refused: L2-M43 at the default. -/
theorem test_refused_misaligned_block :
    refusal (exec (decode 0xE8900002) (strict (writeX 0 0x9002 start))) = some .misalignedWordAccess := by decide

/-- Refused: L2-M44 at the default. -/
theorem test_refused_user_bank :
    refusal (exec (decode 0xE8D00002) (strict start)) = some .userBankTransfer := by decide

/-- Refused: L2-A62 where shift_ge32 is refuse. -/
theorem test_refused_shift_by_32 :
    refusal (exec (decode 0xE1B00211) (stricter (writeX 2 32 start))) = some .shiftByThirtyTwoOrMore := by decide

/-- Refused: rule R28 where pc_wrap is refuse. -/
theorem test_refused_top_of_memory :
    refusal (exec (decode 0xE3A00001) { stricter start with pc := 0xFFFFFF }) = some .pcRunsOverTop := by decide

/-- Refused: decision D11 with an empty undef_set. -/
theorem test_refused_outside_undef_set :
    refusal (exec (decode 0xEE000000) { start with platform := { start.platform with undefSet := [] } }) = some .outsideUndefSet := by decide

/-- Refused: L2-M23 at its own PC, rule R66. -/
theorem test_refused_store_into_prefetched :
    refusal (exec (decode 0xE92D4001) (writeX 13 0x8008 start)) = some .storeIntoPrefetched := by decide

/-- Refused: rule R66, the last byte at pc + 8. -/
theorem test_refused_byte_into_prefetched :
    refusal (exec (decode 0xE5C10000) (writeX 1 0x800B start)) = some .storeIntoPrefetched := by decide

/-- Refused: decision D3. -/
theorem test_refused_store_to_rom :
    refusal (exec (decode 0xE5810000) (mapped (writeX 1 0x9000 start))) = some .writeToRom := by decide

/-- Refused: decision D3. -/
theorem test_refused_load_from_device :
    refusal (exec (decode 0xE5D10000) (mapped (writeX 1 0xAFFF start))) = some .deviceAccess := by decide

/-- Refused: rule R53. -/
theorem test_refused_load_of_nothing :
    refusal (exec (decode 0xE5D12000) (mapped (writeX 1 0xB000 start))) = some .unpopulatedAddress := by decide

/-- Refused: rule R266. -/
theorem test_refused_hazard :
    refusal (exec (decode 0xE1A0000D) { inMode .svc true true start with hazard := some (.modeChange .usr) }) = some .bankedRegisterHazard := by decide

/-- A whole step from reset runs the word placed where it fetches: MOVS R0,#0xFF000000 (L2-A37). -/
theorem test_step_from_reset :
    after (step (State.reset.withFetchWord 32 0xE3B004FF)) (fun t => (readX 0 t, nzcv t, t.pc))
      = some (0xFF000000, 0b1010, 1) := by decide

/-- Vector L2-T8: FIQ before IRQ. -/
theorem test_step_fiq_first :
    after (step { withNzcv 0b1000 start with inputs := [⟨false, true, true, []⟩] })
      (fun t => (readX 14 t, t.mode, t.maskI, t.maskF, t.pc)) = some (0x80008004, .fiq, true, true, 7) := by decide

/-- Vector L2-T7: IRQ in user mode. -/
theorem test_step_irq :
    after (step { withNzcv 0b0110 start with inputs := [⟨false, true, false, []⟩] })
      (fun t => (readX 14 t, t.mode, t.maskI, t.maskF, t.pc)) = some (0x60008004, .irq, true, false, 6) := by decide

/-- Vector L2-T11: reset. -/
theorem test_step_reset :
    after (step { start with inputs := [⟨true, true, true, []⟩] }) (fun t => (t.mode, t.maskI, t.maskF, t.pc))
      = some (.svc, true, true, 0) := by decide

/-- A fetch from a word that does not exist (rule R55). -/
theorem test_step_fetch_of_nothing :
    refusal (step { mapped start with pc := 0x2C00 }) = some .unpopulatedAddress := by decide

/-- Vector L2-M29, on a platform whose failed loads change no listed register (rule R199). -/
theorem test_exec_ldm_address_exception :
    after (exec (decode 0xE8900006) (leaving .kept (.loaded 0) (writeX 1 7 (writeX 0 0x4000000 start))))
      (fun t => (readPhys (.svc 1) t, t.mode, t.maskI, t.pc, readPhys (.usr 1) t, readPhys (.usr 0) t))
      = some (0x00008008, .svc, true, 5, 7, 0x4000000) := by decide

/-- LDMIA R0!,{R1,R2,PC} aborted at its second word, on a platform that keeps the words read and writes the base
back (rule R200, D20). -/
theorem test_exec_ldm_aborted :
    after (exec (decode 0xE8B08006) { leaving .writtenBack (.loaded 0xFFFF) (withWord 0x9000 0x11 (writeX 2 7
        (writeX 0 0x9000 start))) with inputs := [⟨false, false, false, [⟨0x9004, 0x9004, .word, .read, .usr, false⟩]⟩] })
      (fun t => (readPhys (.usr 0) t, readPhys (.usr 1) t, readPhys (.usr 2) t, t.pc)) = some (0x900C, 0x11, 7, 4) := by
  decide

/-- LDR R0,[R1,#4]! to 0x4000000: the base kept, and written back (rule R178, D20). -/
theorem test_exec_ldr_failed_base :
    after (exec (decode 0xE5B10004) (leaving .kept .any (writeX 1 0x3FFFFFC start))) (readPhys (.usr 1)) = some 0x3FFFFFC ∧
      after (exec (decode 0xE5B10004) (leaving .writtenBack .any (writeX 1 0x3FFFFFC start))) (readPhys (.usr 1))
        = some 0x4000000 := by decide

/-- LDR R0,[R14] in SVC mode from an illegal address: R14_SVC holds the saved word (rule R224, log 46). -/
theorem test_exec_ldr_saved_word :
    after (exec (decode 0xE59E0000) (writeX 14 0x4000000 (inMode .svc false false start))) (readPhys (.svc 1))
      = some 0x0000800B := by decide

/-! ## Witnesses: for each obligation with hypotheses, a state and operands that meet them -/

/-- Heads of a data-processing word: Rd at 0, at 14 and R15, S clear and set. -/
def dpHeads : List DpHead :=
  [⟨.al, false, .gpr 1, .gpr 0⟩, ⟨.al, true, .gpr 14, .gpr 14⟩, ⟨.al, true, .r15, .r15⟩, ⟨.al, false, .gpr 0, .r15⟩]

/-- All three forms of an operation run, for each of those heads. -/
def DpMet (op : DpOp) : Prop := ∀ h ∈ dpHeads,
  DpRuns op h (.imm ⟨1, 3⟩) ⟨0xC0000000, true⟩ start ∧ DpRuns op h (.shiftImm ⟨0, .lsr, .gpr 14⟩) ⟨0, false⟩ start ∧
    DpRuns op h (.shiftReg ⟨.gpr 0, .ror, .r15⟩) ⟨0x800C, false⟩ start

/-- Every operation runs in all its forms. -/
theorem dpMet (op : DpOp) : DpMet op := by
  unfold DpMet DpRuns
  cases op <;> decide

theorem witness_AddWritesTheSum : DpMet .add := dpMet _
theorem witness_AdcWritesTheSumWithCarry : DpMet .adc := dpMet _
theorem witness_SubWritesTheDifference : DpMet .sub := dpMet _
theorem witness_SbcWritesTheDifferenceWithBorrow : DpMet .sbc := dpMet _
theorem witness_RsbWritesTheReverseDifference : DpMet .rsb := dpMet _
theorem witness_RscWritesTheReverseDifferenceWithBorrow : DpMet .rsc := dpMet _
theorem witness_AndWritesTheConjunction : DpMet .and := dpMet _
theorem witness_EorWritesTheExclusiveOr : DpMet .eor := dpMet _
theorem witness_OrrWritesTheDisjunction : DpMet .orr := dpMet _
theorem witness_BicClearsTheBitsOfOperandTwo : DpMet .bic := dpMet _
theorem witness_MovWritesOperandTwo : DpMet .mov := dpMet _
theorem witness_MvnWritesTheInverseOfOperandTwo : DpMet .mvn := dpMet _
theorem witness_TstSetsTheFlagsOfTheConjunction : DpMet .tst := dpMet _
theorem witness_TeqSetsTheFlagsOfTheExclusiveOr : DpMet .teq := dpMet _
theorem witness_CmpSetsTheFlagsOfTheDifference : DpMet .cmp := dpMet _
theorem witness_CmnSetsTheFlagsOfTheSum : DpMet .cmn := dpMet _

/-- Amounts 0 (low byte 0), 31, 32, 33 and 255 in R14 where shift_ge32 is family; 31 where it is refuse. -/
theorem witness_ShiftByRegister :
    (⟨.gpr 14, .ror, .gpr 0⟩ : ShiftRegOperand).rs = .gpr 14 ∧ (readX 14 (writeX 14 0x100 start)).toNat % 256 = 0 ∧
      start.platform.shiftGe32 = .family ∧ (stricter start).platform.shiftGe32 = .refuse ∧
      (readX 14 (writeX 14 31 (stricter start))).toNat % 256 < 32 ∧
      ∀ a ∈ [31, 32, 33, 255], (readX 14 (writeX 14 (BitVec.ofNat 32 a) start)).toNat % 256 = a := by decide

/-- A shift by the amount in R15. -/
theorem witness_R15AsSourceOperand :
    (⟨.r15, .lsl, .gpr 1⟩ : ShiftRegOperand).rs = .r15 ∧ condPassed .al start = true ∧
      hazardHit (dpRegisters .mov ⟨.al, true, .gpr 0, .gpr 0⟩ (.shiftReg ⟨.r15, .lsl, .gpr 1⟩)) start = false := by decide

/-- EQ fails with Z clear, at the top of memory with both values of pc_wrap; NV. -/
theorem witness_FailedConditionOnlyAdvances :
    condPassed (condOfBits (BitVec.extractLsb' 28 4 (0x0A000000 : Word))) { start with pc := 0xFFFFFF } = false ∧
      start.platform.pcWrap = .wrap ∧ (stricter start).platform.pcWrap = .refuse ∧ (stricter start).pc ≠ 0xFFFFFF ∧
      ({ stricter start with pc := 0xFFFFFF } : State).platform.pcWrap = .refuse ∧
      condPassed (condOfBits (BitVec.extractLsb' 28 4 (0x0A000000 : Word)))
        { stricter start with pc := 0xFFFFFF } = false ∧
      BitVec.extractLsb' 28 4 (0xF0000000 : Word) = 15 := by decide

/-- The PC may go on twice: it wraps, or it stands two words below the top. -/
theorem witness_SixtyFourBitArithmetic :
    start.platform.pcWrap = .wrap ∧ (stricter start).platform.pcWrap = .refuse ∧
      ({ stricter start with pc := 0xFFFFFD } : State).pc.toNat + 2 < 2 ^ 24 := by decide

/-- CMP of equal words, S set, Rd R0, in its three forms. -/
theorem witness_ConditionsAfterCmpReadAsNamed :
    DpRuns .cmp ⟨.al, true, .gpr 1, .gpr 0⟩ (.imm ⟨0, 0⟩) ⟨0, false⟩ start ∧
      DpRuns .cmp ⟨.al, true, .gpr 1, .gpr 0⟩ (.shiftImm ⟨0, .lsl, .gpr 2⟩) ⟨0, false⟩ start ∧
      DpRuns .cmp ⟨.al, true, .gpr 1, .gpr 0⟩ (.shiftReg ⟨.gpr 3, .lsl, .gpr 2⟩) ⟨0, false⟩ start := by
  unfold DpRuns; decide

/-- TEQP in user mode and outside it. -/
theorem witness_TeqpChangesModeMasksAndFlags :
    condPassed .al start = true ∧ mayAdvance start = true ∧ start.mode = .usr ∧
      condPassed .al State.reset = true ∧ mayAdvance State.reset = true ∧ State.reset.mode ≠ .usr := by decide

/-- The empty memory and one with a cell at the top; words at both ends. -/
theorem witness_MixedWidthAccessesAgree :
    Memory.wf [] = true ∧ Memory.wf [(0x3FFFFFF, 1)] = true ∧ 0x3FFFFFB < 4 * (0xFFFFFF : PcWord).toNat ∧
      4 * (0 : PcWord).toNat + 4 ≤ 4 := by decide

/-- Every combination of P and U. -/
theorem witness_TransferAddresses :
    ∀ p ∈ [true, false], ∀ u ∈ [true, false],
      (⟨.al, p, u, false, .gpr 1, .gpr 0⟩ : SdtHead).p = p ∧ (⟨.al, p, u, false, .gpr 1, .gpr 0⟩ : SdtHead).u = u ∧
      (⟨.al, p, u, false, false, .gpr 1, 1⟩ : BlockHead).p = p ∧ (⟨.al, p, u, false, false, .gpr 1, 1⟩ : BlockHead).u = u := by
  decide

/-- Whether the parameters admit the form of an offset. -/
def admitted (o : Offset) (s : State) : Bool :=
  match o with
  | .imm _ | .reg _ => true
  | .regShift _ => decide (s.platform.ldrRegShiftByReg = .allow)

theorem sdtAttempts {op : SdtOp} {h : SdtHead} {o : Offset} {offset : Word} {s : State}
    (met : condPassed h.cond s = true ∧ hazardHit (sdtRegisters h o) s = false ∧ offsetValue o s = .ok offset ∧
      sdtForbidden op h s = none ∧ admitted o s = true) : SdtAttempts op h o offset s := by
  obtain ⟨h1, h2, h3, h4, h5⟩ := met
  refine ⟨h1, h2, h3, h4, ?_⟩
  rintro r rfl
  exact of_decide_eq_true h5

/-- A single transfer is attempted and granted at the address in R1. -/
def SdtMet (op : SdtOp) (h : SdtHead) (o : Offset) (a : Word) : Prop :=
  SdtAttempts op h o 0 (writeX 1 a (allowing start)) ∧ SdtGranted op h 0 (writeX 1 a (allowing start))

theorem sdtMet {op : SdtOp} {h : SdtHead} {o : Offset} {a : Word}
    (met : let s := writeX 1 a (allowing start)
      (condPassed h.cond s = true ∧ hazardHit (sdtRegisters h o) s = false ∧ offsetValue o s = .ok 0 ∧
        sdtForbidden op h s = none ∧ admitted o s = true) ∧
      (transferAddress h 0 s).toNat < 0x4000000 ∧ misalignedRefused (transferAddress h 0 s) (sdtSize op) s = false ∧
      sdtAnswer op h 0 s = .granted ∧ mayAdvance s = true) : SdtMet op h o a :=
  ⟨sdtAttempts met.1, met.2.1, met.2.2.1, met.2.2.2.1, fun _ => met.2.2.2.2⟩

/-- Pre-indexed, with write-back, post-indexed, translated, shifted by a register; at both ends of memory and
misaligned. -/
theorem witness_LdrLoadsAWord :
    SdtMet .ldr ⟨.al, true, true, false, .gpr 1, .gpr 0⟩ (.imm 0) 0x3FFFFFF ∧
    SdtMet .ldr ⟨.al, true, false, true, .gpr 1, .gpr 14⟩ (.imm 0) 0 ∧
    SdtMet .ldr ⟨.al, false, true, false, .gpr 1, .r15⟩ (.reg ⟨0, .lsl, .gpr 2⟩) 0x9002 ∧
    SdtMet .ldr ⟨.al, false, false, true, .gpr 1, .gpr 3⟩ (.reg ⟨3, .asr, .gpr 14⟩) 0x3FFFFFC ∧
    SdtMet .ldr ⟨.al, true, true, false, .gpr 1, .gpr 0⟩ (.regShift ⟨.gpr 2, .lsr, .gpr 3⟩) 0x9000 :=
  ⟨sdtMet (by decide), sdtMet (by decide), sdtMet (by decide), sdtMet (by decide), sdtMet (by decide)⟩

/-- Pre-indexed, with write-back, post-indexed, translated, shifted by a register; at both ends of memory and
misaligned. -/
theorem witness_LdrbLoadsAByte :
    SdtMet .ldrb ⟨.al, true, true, false, .gpr 1, .gpr 0⟩ (.imm 0) 0x3FFFFFF ∧
    SdtMet .ldrb ⟨.al, true, false, true, .gpr 1, .gpr 1⟩ (.imm 0) 0 ∧
    SdtMet .ldrb ⟨.al, false, true, false, .gpr 1, .gpr 14⟩ (.reg ⟨0, .lsl, .gpr 2⟩) 0x9002 ∧
    SdtMet .ldrb ⟨.al, false, false, true, .gpr 1, .gpr 3⟩ (.reg ⟨3, .asr, .gpr 14⟩) 0x3FFFFFC ∧
    SdtMet .ldrb ⟨.al, true, true, false, .gpr 1, .gpr 0⟩ (.regShift ⟨.gpr 2, .lsr, .gpr 3⟩) 0x9000 :=
  ⟨sdtMet (by decide), sdtMet (by decide), sdtMet (by decide), sdtMet (by decide), sdtMet (by decide)⟩

/-- Pre-indexed, with write-back, post-indexed, translated, shifted by a register; at both ends of memory and
misaligned. -/
theorem witness_StrStoresAWord :
    start.mem.wf = true ∧
    SdtMet .str ⟨.al, true, true, false, .gpr 1, .gpr 0⟩ (.imm 0) 0x3FFFFFF ∧
    SdtMet .str ⟨.al, true, false, true, .gpr 1, .gpr 14⟩ (.imm 0) 0 ∧
    SdtMet .str ⟨.al, false, true, false, .gpr 1, .r15⟩ (.reg ⟨0, .lsl, .gpr 2⟩) 0x9002 ∧
    SdtMet .str ⟨.al, false, false, true, .gpr 1, .gpr 3⟩ (.reg ⟨3, .asr, .gpr 14⟩) 0x3FFFFFC ∧
    SdtMet .str ⟨.al, true, true, false, .gpr 1, .gpr 0⟩ (.regShift ⟨.gpr 2, .lsr, .gpr 3⟩) 0x9000 :=
  ⟨rfl, sdtMet (by decide), sdtMet (by decide), sdtMet (by decide), sdtMet (by decide), sdtMet (by decide)⟩

/-- Pre-indexed, with write-back, post-indexed, translated, shifted by a register; at both ends of memory and
misaligned. -/
theorem witness_StrbStoresAByte :
    start.mem.wf = true ∧
    SdtMet .strb ⟨.al, true, true, false, .gpr 1, .gpr 0⟩ (.imm 0) 0x3FFFFFF ∧
    SdtMet .strb ⟨.al, true, false, true, .gpr 1, .gpr 1⟩ (.imm 0) 0 ∧
    SdtMet .strb ⟨.al, false, true, false, .gpr 1, .gpr 14⟩ (.reg ⟨0, .lsl, .gpr 2⟩) 0x9002 ∧
    SdtMet .strb ⟨.al, false, false, true, .gpr 1, .gpr 3⟩ (.reg ⟨3, .asr, .gpr 14⟩) 0x3FFFFFC ∧
    SdtMet .strb ⟨.al, true, true, false, .gpr 1, .gpr 0⟩ (.regShift ⟨.gpr 2, .lsr, .gpr 3⟩) 0x9000 :=
  ⟨rfl, sdtMet (by decide), sdtMet (by decide), sdtMet (by decide), sdtMet (by decide), sdtMet (by decide)⟩

/-- The memory manager refuses every read and write of user mode, and every fetch. -/
def refusing (s : State) : State :=
  { s with inputs := [⟨false, false, false,
      [⟨0, 0x3FFFFFF, .word, .read, .usr, false⟩, ⟨0, 0x3FFFFFF, .word, .write, .usr, false⟩,
       ⟨0, 0x3FFFFFF, .byte, .read, .usr, false⟩, ⟨0, 0x3FFFFFF, .byte, .write, .usr, false⟩,
       ⟨0, 0x3FFFFFF, .word, .fetch, .usr, false⟩]⟩] }

/-- A transfer pre-indexed from R1 without write-back. -/
def plainHead : SdtHead := ⟨.al, true, true, false, .gpr 1, .gpr 0⟩

/-- All four operations at the first illegal address, and aborted at the last legal one. -/
theorem witness_SingleTransferTraps (op : SdtOp) :
    (SdtAttempts op plainHead (.imm 0) 0 (writeX 1 0x4000000 start) ∧
      transferAddress plainHead 0 (writeX 1 0x4000000 start) = 0x4000000) ∧
    SdtAttempts op plainHead (.regShift ⟨.gpr 2, .lsl, .gpr 3⟩) 0 (refusing (writeX 1 0x3FFFFFF (allowing start))) ∧
      transferAddress plainHead 0 (refusing (writeX 1 0x3FFFFFF (allowing start))) = 0x3FFFFFF ∧
      misalignedRefused 0x3FFFFFF (sdtSize op) (refusing (writeX 1 0x3FFFFFF (allowing start))) = false ∧
      sdtAnswer op plainHead 0 (refusing (writeX 1 0x3FFFFFF (allowing start))) = .dataAbort := by
  cases op <;> exact ⟨⟨sdtAttempts (by decide), by decide⟩, sdtAttempts (by decide), by decide, by decide, by decide⟩

/-- The base register is not R14_SVC and the platform says what it holds after the trap, with write-back and
without. -/
theorem witness_SingleTransferTraps_base :
    let s : State := writeX 1 0x4000000 start
    phys s.mode 1 ≠ phys .svc 14 ∧ (leaving .kept .any s).platform.abortSideEffects.base = .kept ∧
      (leaving .writtenBack .any s).platform.abortSideEffects.base = .writtenBack ∧
      writesBase plainHead = false ∧ writesBase { plainHead with w := true } = true ∧
      SdtAttempts .ldr plainHead (.imm 0) 0 (leaving .kept .any s) ∧
      SdtAttempts .str { plainHead with w := true } (.imm 0) 0 (leaving .writtenBack .any s) :=
  ⟨by decide, rfl, rfl, by decide, by decide, sdtAttempts (by decide), sdtAttempts (by decide)⟩

/-- Each refused form, its condition passing and nothing hazardous. -/
theorem witness_RefusedTransferForms :
    condPassed .al start = true ∧
    hazardHit (sdtRegisters ⟨.al, true, true, false, .gpr 1, .gpr 0⟩ (.reg ⟨0, .lsl, .r15⟩)) start = false ∧
    hazardHit (sdtRegisters ⟨.al, true, true, false, .gpr 1, .gpr 0⟩ (.regShift ⟨.r15, .lsl, .r15⟩)) start = false ∧
    hazardHit (sdtRegisters ⟨.al, false, true, false, .r15, .gpr 0⟩ (.imm 0)) start = false ∧
    hazardHit (sdtRegisters ⟨.al, true, true, false, .gpr 1, .r15⟩ (.imm 0)) start = false ∧
    hazardHit (sdtRegisters ⟨.al, true, true, true, .gpr 1, .gpr 1⟩ (.imm 0)) start = false ∧
    hazardHit (blockRegisters ⟨.al, false, true, false, false, .r15, 1⟩) start = false ∧
    hazardHit (blockRegisters ⟨.al, false, true, true, true, .gpr 1, 1⟩) start = false ∧
    misalignedRefused (readRn 8 (.gpr 1) start) .word start = false ∧ start.platform.ldmUserBank = .family := by decide

/-- A block transfer is attempted and granted from this base, and the PC may go on. -/
def BlockMet (h : BlockHead) (n : Fin 15) (k : AccessKind) (userBank : Bool) (base : Word) (s : State) : Prop :=
  BlockAttempts h n userBank (writeX n base s) ∧ BlockLegal h (readX n (writeX n base s)) ∧
    BlockGranted h (readX n (writeX n base s)) k (writeX n base s) ∧ mayAdvance (writeX n base s) = true

/-- A block that ends in the last word, with write-back and R15; the base in the list; the user bank from
SVC mode. -/
theorem witness_LdmLoadsTheListedRegisters :
    BlockMet ⟨.al, false, true, true, true, .gpr 13, 0x8001⟩ 13 .read false 0x3FFFFF8 start ∧
    BlockMet ⟨.al, true, false, false, true, .gpr 0, 0x7FFF⟩ 0 .read false 0x3C start ∧
    BlockMet ⟨.al, false, true, true, false, .gpr 0, 0x6000⟩ 0 .read true 0x9002 State.reset := by
  unfold BlockMet BlockAttempts BlockLegal BlockGranted
  exact ⟨by decide, by decide, by decide⟩

theorem witness_StmStoresTheListedRegisters :
    start.mem.wf = true ∧
    BlockMet ⟨.al, false, true, false, true, .gpr 13, 0x8001⟩ 13 .write false 0x3FFFFF8 start ∧
    BlockMet ⟨.al, true, false, false, true, .gpr 1, 0x7FFF⟩ 1 .write false 0x3C start ∧
    BlockMet ⟨.al, false, true, true, false, .gpr 0, 0x6000⟩ 0 .write true 0x9002 State.reset := by
  unfold BlockMet BlockAttempts BlockLegal BlockGranted
  exact ⟨rfl, by decide, by decide, by decide⟩

/-- The first address is 0x4000000; the first is 0x3FFFFFC and the second is not legal. -/
theorem witness_BlockAddressException :
    BlockAttempts ⟨.al, false, true, false, false, .gpr 0, 6⟩ 0 false (writeX 0 0x4000000 start) ∧
      (blockStart ⟨.al, false, true, false, false, .gpr 0, 6⟩ 0x4000000 2).toNat = 0x4000000 ∧
      BlockAttempts ⟨.al, false, true, false, false, .gpr 0, 6⟩ 0 false (writeX 0 0x3FFFFFC start) ∧
      (blockStart ⟨.al, false, true, false, false, .gpr 0, 6⟩ 0x3FFFFFC 2).toNat = 0x3FFFFFC ∧
      ¬ BlockLegal ⟨.al, false, true, false, false, .gpr 0, 6⟩ 0x3FFFFFC := by
  unfold BlockAttempts BlockLegal; decide

/-- The platform says what the base and the listed registers hold after the trap, and they are not R14_SVC: a
register below the failing one that is named, one below that is not, and the failing one. -/
theorem witness_BlockTraps_registers :
    let h : BlockHead := ⟨.al, false, true, false, true, .gpr 0, 0x800E⟩
    let s : State := leaving .writtenBack (.loaded 0x0002) (writeX 0 0x4000000 start)
    let bank := bankMode (loadUsesUserBank h) s
    BlockAttempts h 0 false s ∧ s.platform.abortSideEffects.base = .writtenBack ∧
      (leaving .kept .any s).platform.abortSideEffects.base = .kept ∧
      s.platform.abortSideEffects.loads = .loaded 0x0002 ∧ phys s.mode 0 ≠ phys .svc 14 ∧
      ∀ k ∈ [(1 : Fin 15), 2, 3], h.list.getLsbD k.val = true ∧ phys bank k ≠ phys s.mode 0 ∧ phys bank k ≠ phys .svc 14 ∧
        (k.val < 3 ∧ (0x0002 : BitVec 16).getLsbD k.val = true ↔ k = 1) := by
  unfold BlockAttempts; decide

/-- The memory manager refuses the word at 0x9004 alone: the second register of the block. -/
theorem witness_BlockDataAbort :
    let h : BlockHead := ⟨.al, false, true, false, true, .gpr 0, 0x8006⟩
    let s : State := { writeX 0 0x9000 start with inputs := [⟨false, false, false,
      [⟨0x9004, 0x9004, .word, .read, .usr, false⟩, ⟨0x9004, 0x9004, .word, .write, .usr, false⟩]⟩] }
    BlockLegal h 0x9000 ∧ BlockAttempts h 0 false s ∧ s.mem.wf = true ∧ ∀ k ∈ [AccessKind.read, .write],
      checkBus (busAddress (blockAddressOf h 0x9000 2) .word) .word k false s = .dataAbort ∧
      ∀ j < 2, h.list.getLsbD j = true →
        checkBus (busAddress (blockAddressOf h 0x9000 j) .word) .word k false s = .granted := by
  unfold BlockAttempts BlockLegal; decide

/-- A condition that passes and one that fails. -/
theorem witness_BranchGoesToItsTarget :
    condPassed .ne start = true ∧ condPassed .eq start = false ∧ mayAdvance start = true := by decide

theorem witness_BranchWithLinkSavesTheReturn :
    condPassed .vc start = true ∧ condPassed .vs start = false ∧ mayAdvance start = true := by decide

/-- The state right after a BL, in user mode and in SVC mode. -/
theorem witness_SubroutineReturnsToItsCaller :
    (∃ s', condPassed .al start = true ∧ exec (.bl .al 4) start = .next s' ∧ s'.hazard = none) ∧
      (∃ s', condPassed .al State.reset = true ∧ exec (.bl .al 4) State.reset = .next s' ∧ s'.hazard = none) :=
  ⟨⟨_, by decide, rfl, rfl⟩, ⟨_, by decide, rfl, rfl⟩⟩

theorem witness_SwiEntersSupervisorMode : condPassed .al start = true := by decide

/-- The word 0xEE000000 with the undef_set of the spec, which has it, and with one of the other pattern alone. -/
theorem witness_UndefinedInstructionsTrap :
    condPassed (Instr.undefined1110 .al 0).cond start = true ∧ start.platform.undefSet = standardUndefSet ∧
      (∃ p ∈ start.platform.undefSet, encode (.undefined1110 .al 0) &&& p.mask = p.pattern) ∧
      ∀ p ∈ ({ start with platform := { start.platform with undefSet := [⟨0x0E000000, 0x0C000000⟩] } } :
        State).platform.undefSet, encode (.undefined1110 .al 0) &&& p.mask ≠ p.pattern := by decide

/-- One word of each reserved pattern. -/
theorem witness_ReservedWordsAreRefused :
    (BitVec.extractLsb' 25 3 (0xE0000090 : Word) = 0 ∧ (0xE0000090 : Word).getLsbD 7 = true ∧
      (0xE0000090 : Word).getLsbD 4 = true) ∧
    (BitVec.extractLsb' 25 3 (0xE7910012 : Word) = 3 ∧ (0xE7910012 : Word).getLsbD 4 = true ∧
      start.platform.ldrRegShiftByReg = .refuse) ∧
    (BitVec.extractLsb' 25 3 (0xE7910092 : Word) = 3 ∧ (0xE7910092 : Word).getLsbD 4 = true ∧
      (0xE7910092 : Word).getLsbD 7 = true) ∧
    (BitVec.extractLsb' 25 3 (0xE8900000 : Word) = 4 ∧ BitVec.extractLsb' 0 16 (0xE8900000 : Word) = 0) ∧
    condPassed (condOfBits (BitVec.extractLsb' 28 4 (0xE0000090 : Word))) start = true := by decide

/-- The last addresses whose saved words do not wrap: one word ahead and two words ahead. -/
theorem witness_ExceptionReturns :
    ({ start with pc := 0xFFFFFE } : State).pc.toNat + 1 < 2 ^ 24 ∧
      ({ start with pc := 0xFFFFFD } : State).pc.toNat + 2 < 2 ^ 24 := by decide

/-- Reset, also with values for the registers; FIQ with F clear; IRQ with FIQ masked; IRQ without FIQ. -/
theorem witness_InterruptsAndResetAreTaken :
    start.haltAddress ≠ some (pcAddr start) ∧
    ({ start with platform := { start.platform with resetRegs := some ResetRegs.zero },
                  inputs := [⟨true, true, true, []⟩] } : State).platform.resetRegs = some ResetRegs.zero ∧
    (currentInput { start with inputs := [⟨true, true, true, []⟩] }).reset = true ∧
    (currentInput { start with inputs := [⟨false, true, true, []⟩] }).fiq = true ∧ start.maskF = false ∧
    (currentInput { start with maskF := true, inputs := [⟨false, true, true, []⟩] }).irq = true ∧
    (currentInput { start with inputs := [⟨false, true, false, []⟩] }).fiq = false ∧ start.maskI = false := by decide

/-- The next step's fetch is refused, with nothing else in its way. -/
def FetchRefused (s : State) : Prop :=
  s.haltAddress ≠ some (pcAddr s) ∧ pendingEntry s = none ∧ mayAdvance s = true ∧
    cellStop (pcAddr s) .word .fetch s = none ∧ abortOracle (pcAddr s) .word .fetch false s = true

/-- A refused fetch of a word whose condition passes (empty memory, with Z set) and of one whose fails. -/
theorem witness_PrefetchAbortEntry :
    (FetchRefused (refusing start) ∧ condPassed .eq (refusing start) = false) ∧
      FetchRefused (refusing (withNzcv 0b0100 start)) ∧ condPassed .eq (refusing (withNzcv 0b0100 start)) = true ∧
      condOfBits (((refusing start).mem.readWord .little (4 * start.pc.toNat)).extractLsb' 28 4) = .eq := by
  unfold FetchRefused
  exact ⟨⟨⟨by decide, rfl, by decide, by decide, by decide⟩, rfl⟩, ⟨by decide, rfl, by decide, by decide, by decide⟩,
    rfl, by decide⟩

/-- MOV R0,R0 at the PC, in user mode with both interrupts requested and masked. -/
theorem witness_StepRunsTheDecodedInstruction :
    let s : State := { withWord 0x8000 0xE1A00000 start with
      maskI := true, maskF := true, inputs := [⟨false, true, true, []⟩] }
    s.haltAddress ≠ some (pcAddr s) ∧ (currentInput s).reset = false ∧ s.maskF = true ∧ s.maskI = true ∧
      cellStop (pcAddr s) .word .fetch s = none ∧ abortOracle (pcAddr s) .word .fetch false s = false ∧
      decodeBytes [s.mem.read (4 * s.pc.toNat), s.mem.read (4 * s.pc.toNat + 1), s.mem.read (4 * s.pc.toNat + 2),
        s.mem.read (4 * s.pc.toNat + 3)] = .ok (.movShiftImm ⟨.al, false, .gpr 0, .gpr 0⟩ ⟨0, .lsl, .gpr 0⟩, []) :=
  ⟨by decide, by decide, rfl, rfl, by decide, by decide, rfl⟩

/-- At the halt address; elsewhere on a word that does not exist, and on a device's. -/
theorem witness_StepStopsWhereTheSpecEndsTheRun :
    ({ start with haltAddress := some 0x8000 } : State).haltAddress = some (pcAddr start) ∧
    (let s : State := { mapped start with pc := 0x2C00 };
      s.haltAddress ≠ some (pcAddr s) ∧ pendingEntry s = none ∧
        ∃ k < 4, cellKind s.platform.memMap (4 * s.pc.toNat + k) = .absent) ∧
    (let s : State := { mapped start with pc := 0x2BFF };
      s.haltAddress ≠ some (pcAddr s) ∧ pendingEntry s = none ∧
        (∀ k < 4, cellKind s.platform.memMap (4 * s.pc.toNat + k) ≠ .absent) ∧
        ∃ k < 4, cellKind s.platform.memMap (4 * s.pc.toNat + k) = .device) :=
  ⟨by decide, ⟨by decide, rfl, by decide⟩, ⟨by decide, rfl, by decide, by decide⟩⟩

/-- R13 right after a change from user to SVC mode; R10 and R14 right after a user-bank LDM. -/
theorem witness_HazardousRegistersAreRefused :
    condPassed .al State.reset = true ∧ phys .usr 13 ≠ phys State.reset.mode 13 ∧
      (.gpr 13 : Reg) ∈ dpRegisters .mov ⟨.al, false, .gpr 0, .gpr 13⟩ (.imm ⟨0, 0⟩) ∧
      (.gpr 13 : Reg) ∈ dpRegisters .mov ⟨.al, false, .gpr 0, .gpr 0⟩ (.shiftImm ⟨0, .lsl, .gpr 13⟩) ∧
      (.gpr 13 : Reg) ∈ dpRegisters .mov ⟨.al, false, .gpr 0, .gpr 0⟩ (.shiftReg ⟨.gpr 13, .lsl, .gpr 0⟩) ∧
      (.gpr 10 : Reg) ∈ sdtRegisters ⟨.al, true, true, false, .gpr 10, .gpr 0⟩ (.imm 0) ∧
      (.gpr 14 : Reg) ∈ sdtRegisters ⟨.al, true, true, false, .gpr 0, .gpr 0⟩ (.reg ⟨0, .lsl, .gpr 14⟩) ∧
      (.gpr 13 : Reg) ∈ blockRegisters ⟨.al, true, false, false, true, .gpr 13, 1⟩ := by decide

/-- A user-mode step that stays in user mode (ANDEQ, its condition failing), and one that leaves it (SWI). -/
theorem witness_UserModeIsLeftOnlyByAnException :
    start.mode = .usr ∧ (∃ t, step start = .next t ∧ t.mode = .usr) ∧
      ∃ t, step (withWord 0x8000 0xEF000000 start) = .next t ∧ t.mode = .svc :=
  ⟨rfl, ⟨_, rfl, rfl⟩, ⟨_, rfl, rfl⟩⟩

/-- Two different states in user mode that differ in private registers alone. -/
theorem witness_PrivateRegistersAreInvisibleToUserMode :
    let t : State := { start with fiq := Vector.replicate 5 1, irq := Vector.replicate 2 2, svc := Vector.replicate 2 3 }
    start.mode = .usr ∧ start ≠ t ∧ { t with fiq := start.fiq, irq := start.irq, svc := start.svc } = start := by
  decide

/-- A state with a change of mode behind it, which steps on. -/
theorem witness_StepKeepsTheInvariant :
    let s : State := { State.reset with hazard := some (.modeChange .fiq) }
    Inv s ∧ ∃ t, step s = .next t := by
  refine ⟨⟨rfl, ?_, by decide⟩, ⟨_, rfl⟩⟩
  intro old h
  cases h
  decide

/-- A platform that gives the registers values at reset. -/
theorem witness_ResetState :
    ({ Platform.standard with resetRegs := some ResetRegs.zero } : Platform).resetRegs = some ResetRegs.zero := rfl

/-- An instruction with a one-register list is well-formed. -/
theorem witness_DecodeAndEncodeAgree :
    (Instr.stm ⟨.al, false, true, false, false, .gpr 0, 0x8000⟩).wellFormed = true := by decide

/-- An access that is not aborted at the last byte before a hole, in it, at a device, into ROM, into the words
at pc + 4 and pc + 8, and beside them; a single transfer of each stop. -/
theorem witness_StoppedAccessesAreRefused :
    let s : State := mapped start
    let at' : Word → State := fun a => writeX 1 a s
    (abortOracle 0xAFFF .byte .read false s = false ∧ checkBus 0xAFFF .byte .read false s = .stop .deviceAccess ∧
      checkBus 0xB000 .byte .read false s = .stop .unpopulatedAddress ∧
      checkBus 0x9FFC .word .write false s = .stop .writeToRom ∧ checkBus 0x9FFC .word .read false s = .granted ∧
      checkBus 0x8003 .byte .write false s = .granted ∧ checkBus 0x8004 .byte .write false s = .stop .storeIntoPrefetched ∧
      checkBus 0x8008 .word .write false s = .stop .storeIntoPrefetched ∧ checkBus 0x800C .word .write false s = .granted) ∧
    (SdtAttempts .str plainHead (.imm 0) 0 (at' 0x9FFC) ∧ sdtAnswer .str plainHead 0 (at' 0x9FFC) = .stop .writeToRom) ∧
    (SdtAttempts .ldrb plainHead (.imm 0) 0 (at' 0xAFFF) ∧ sdtAnswer .ldrb plainHead 0 (at' 0xAFFF) = .stop .deviceAccess) ∧
    (SdtAttempts .ldr plainHead (.imm 0) 0 (at' 0xB000) ∧ sdtAnswer .ldr plainHead 0 (at' 0xB000) = .stop .unpopulatedAddress) ∧
    (SdtAttempts .strb plainHead (.imm 0) 0 (at' 0x800B) ∧ sdtAnswer .strb plainHead 0 (at' 0x800B) = .stop .storeIntoPrefetched) ∧
    (transferAddress plainHead 0 (at' 0x9FFC) = 0x9FFC ∧ misalignedRefused 0x9FFC .word (at' 0x9FFC) = false) :=
  ⟨by decide, ⟨sdtAttempts (by decide), by decide⟩, ⟨sdtAttempts (by decide), by decide⟩,
    ⟨sdtAttempts (by decide), by decide⟩, ⟨sdtAttempts (by decide), by decide⟩, by decide⟩

/-- A block from the last word before a region: its second register is the first whose access is stopped. -/
theorem witness_StoppedAccessesAreRefused_block :
    let h : BlockHead := ⟨.al, false, true, false, true, .gpr 0, 0x8006⟩
    let s : State := mapped (writeX 0 0x9FFC start)
    let t : State := mapped (writeX 0 0x8000 start)
    BlockAttempts h 0 false s ∧ BlockLegal h (readX 0 s) ∧
      checkBus (busAddress (blockAddressOf h (readX 0 s) 2) .word) .word .read false s = .stop .deviceAccess ∧
      (∀ j < 2, h.list.getLsbD j = true →
        checkBus (busAddress (blockAddressOf h (readX 0 s) j) .word) .word .read false s = .granted) ∧
    BlockAttempts h 0 false t ∧ BlockLegal h (readX 0 t) ∧
      checkBus (busAddress (blockAddressOf h (readX 0 t) 2) .word) .word .write false t = .stop .storeIntoPrefetched ∧
      (∀ j < 2, h.list.getLsbD j = true →
        checkBus (busAddress (blockAddressOf h (readX 0 t) j) .word) .word .write false t = .granted) := by
  unfold BlockAttempts BlockLegal
  exact ⟨by decide, by decide, by decide, by decide, by decide, by decide, by decide, by decide⟩

/-- Each parameter set to refuse, with a form it refuses. -/
theorem witness_ParametersSetToRefuse :
    (let s : State := strict start;
      (SdtAttempts .ldr plainHead (.imm 0) 0 (writeX 1 0x3FFFFFF s) ∧
        (transferAddress plainHead 0 (writeX 1 0x3FFFFFF s)).toNat = 0x3FFFFFF ∧ s.platform.misalignedWord = .refuse) ∧
      (offsetValue (.imm 0) s = .ok 0 ∧ hazardHit (sdtRegisters ⟨.al, false, true, true, .gpr 1, .gpr 0⟩ (.imm 0)) s = false ∧
        s.platform.transBit = .refuse) ∧
      (hazardHit (blockRegisters ⟨.al, false, true, true, false, .gpr 0, 2⟩) (writeX 0 0x9002 s) = false ∧
        (readX 0 (writeX 0 0x9002 s)).toNat % 4 ≠ 0 ∧ (readX 0 s).toNat % 4 = 0 ∧ s.platform.ldmUserBank = .refuse)) ∧
    (let s : State := stricter start;
      (hazardHit (dpRegisters .mov ⟨.al, true, .gpr 0, .gpr 0⟩ (.shiftReg ⟨.gpr 2, .lsl, .gpr 1⟩)) (writeX 2 32 s) = false ∧
        32 ≤ (readX 2 (writeX 2 32 s)).toNat % 256 ∧ s.platform.shiftGe32 = .refuse) ∧
      (hazardHit (sdtRegisters plainHead (.regShift ⟨.gpr 2, .lsl, .gpr 1⟩)) (writeX 2 32 (allowing s)) = false ∧
        32 ≤ (readX 2 (writeX 2 32 (allowing s))).toNat % 256 ∧ (allowing s).platform.shiftGe32 = .refuse ∧
        (allowing s).platform.ldrRegShiftByReg = .allow)) := by
  exact ⟨⟨⟨sdtAttempts (by decide), by decide, rfl⟩, by decide, by decide⟩, by decide, by decide⟩

/-- At the last word of memory with pc_wrap = refuse: data processing in its three forms, a single transfer, an
LDM without R15 and an STM, none of which assigns the PC. -/
theorem witness_ParametersSetToRefuse_top :
    let s : State := { writeX 0 0x9000 (writeX 1 0x9000 (stricter start)) with pc := 0xFFFFFF }
    let h : BlockHead := ⟨.al, false, true, false, false, .gpr 0, 2⟩
    (s.platform.pcWrap = .refuse ∧ s.pc = 0xFFFFFF ∧ writesRd .cmp = false) ∧
    (∀ o ∈ [Operand2.imm ⟨0, 0⟩, .shiftImm ⟨0, .lsl, .gpr 2⟩, .shiftReg ⟨.gpr 3, .lsl, .gpr 2⟩],
      hazardHit (dpRegisters .cmp ⟨.al, true, .gpr 0, .r15⟩ o) s = false ∧ operand2 o s = .ok ⟨0, false⟩) ∧
    (SdtAttempts .str plainHead (.imm 0) 0 s ∧ (transferAddress plainHead 0 s).toNat = 0x9000 ∧
      misalignedRefused 0x9000 .word s = false ∧ sdtAnswer .str plainHead 0 s = .granted ∧
      sdtAssignsPc .str plainHead = false) ∧
    BlockAttempts h 0 false s ∧ BlockLegal h (readX 0 s) ∧ BlockGranted h (readX 0 s) .read s ∧
      BlockGranted h (readX 0 s) .write s := by
  unfold BlockAttempts BlockLegal BlockGranted
  exact ⟨by decide, by decide, ⟨sdtAttempts (by decide), by decide, by decide, by decide, by decide⟩, by decide,
    by decide, by decide, by decide⟩

end Sys2Proof.Tests
end

/-! SUPPORT. What the operations shared by several proofs leave in one field, and which claims about a single
data transfer follow from one about `singleTransfer`. -/

namespace Sys2Proof.Machine

/-- A reset event keeps memory (rule R260). -/
@[simp] theorem resetEntry_mem (s : State) : (resetEntry s).mem = s.mem := by
  have hs : (spoilAll allPhysRegs s).mem = s.mem := (leftOpen_spoilAll allPhysRegs s).2
  simp only [resetEntry, resetValues]
  cases s.platform.resetRegs with
  | none => exact hs
  | some r => rfl

/-- A failed LDM or STM leaves memory as the accesses before the failure left it (rules R199, R200). -/
@[simp] theorem failBlock_mem (e : Exception) (h : BlockHead) (n : Fin 15) (b f : Word) (s : State) :
    (failBlock e h n b f s).mem = s.mem :=
  (takeException_mem e _).trans (leftOpen_failedBase ..).2

/-- A load writes a register or the PC: memory and the hazard are as before (rules R172, R173). -/
theorem loadReg_frame (r : Reg) (v : Word) (s : State) :
    (loadReg r v s).mem = s.mem ∧ (loadReg r v s).hazard = s.hazard := by
  cases r <;> simp [loadReg]

/-- A single transfer leaves no hazard of its own and keeps memory canonical (rules R34, R53). -/
theorem sdtTransfer_keeps (op : SdtOp) (h : SdtHead) (x : Word) {s : State} (hm : s.mem.wf = true) :
    (sdtTransfer op h x s).mem.wf = true ∧ (sdtTransfer op h x s).hazard = s.hazard := by
  have written (y : Word) (t : State) :
      (writeBack h y t).mem = t.mem ∧ (writeBack h y t).hazard = t.hazard := by
    obtain ⟨-, -, -, -, -, -, -, -, hmem, hhz, -⟩ := writeBack_frame h y t
    exact ⟨hmem, hhz⟩
  cases op <;> simp only [sdtTransfer, written]
  case ldr => rw [(loadReg_frame ..).1, (loadReg_frame ..).2]; exact ⟨hm, rfl⟩
  case ldrb => rw [(loadReg_frame ..).1, (loadReg_frame ..).2]; exact ⟨hm, rfl⟩
  case str => exact ⟨storeWord_wf hm _ _, rfl⟩
  case strb => exact ⟨storeByte_wf hm _ _, rfl⟩

end Sys2Proof.Machine

/-! SUPPORT. The invariant of a run is kept: what can break it is a store or a recorded hazard. -/

namespace Sys2Proof.Machine

/-- With no hazard recorded the invariant is about memory alone. -/
theorem inv_of_noHazard {s : State} (hm : s.mem.wf = true) (hz : s.hazard = none) : Inv s := by
  simp [Inv, hm, hz]

/-- The invariant looks at memory, the hazard and the mode alone. -/
theorem Inv.congr {s t : State} (hs : Inv s) (hm : t.mem = s.mem) (hz : t.hazard = s.hazard) (hd : t.mode = s.mode) :
    Inv t := by
  rw [Inv, hm, hz, hd]; exact hs

/-- TSTP, TEQP, CMPP and CMNP record a change of mode only where they make one, which user mode cannot
(rules R25, R266). -/
theorem inv_writePsrOnly (v : Word) {s : State} (hm : s.mem.wf = true) : Inv (writePsrOnly v s) := by
  have hmem : (writePsrOnly v s).mem.wf = true := by rw [writePsrOnly, setPSR_mem]; exact hm
  by_cases hu : s.mode = .usr
  · exact inv_of_noHazard hmem (writePsrOnly_hazard_user hu v)
  by_cases hc : (setPSR v s).mode = s.mode
  · exact inv_of_noHazard hmem ((writePsrOnly_hazard v s).trans (if_pos hc))
  have hz : (writePsrOnly v s).hazard = some (.modeChange s.mode) := (writePsrOnly_hazard v s).trans (if_neg hc)
  refine ⟨hmem, fun old ho => ?_, fun ho => ?_⟩
  · cases hz.symm.trans ho
    exact ⟨hu, Ne.symm hc⟩
  · cases hz.symm.trans ho

/-- What a data-processing instruction writes meets the invariant. -/
theorem inv_dpWrite (op : DpOp) (h : DpHead) (out : AluOut) (c : Bool) {s : State} (hm : s.mem.wf = true)
    (hz : s.hazard = none) : Inv (dpWrite op h out c s) := by
  have hmem : (dpWrite op h out c s).mem.wf = true := by rw [(dpWrite_frame op h out c s).1]; exact hm
  unfold dpWrite at hmem ⊢
  split
  case h_7 => exact inv_writePsrOnly _ hm
  all_goals exact inv_of_noHazard (by simpa using hm) (by simpa using hz)

/-- The end of an LDM records a hazard for a user-bank load from a privileged mode alone (rule R267). -/
theorem inv_finishLdm (h : BlockHead) (w : Option Word) {s : State} (hm : s.mem.wf = true) (hz : s.hazard = none) :
    Inv (finishLdm h w s) := by
  cases w with
  | some v =>
    simp only [finishLdm]
    split <;> exact inv_of_noHazard (by simpa using hm) (by simpa using hz)
  | none =>
    by_cases hb : (loadUsesUserBank h && decide (s.mode ≠ .usr)) = true
    · have hp : s.mode ≠ .usr := by simpa using (Bool.and_eq_true_iff.mp hb).2
      exact ⟨hm, by simp [finishLdm], fun _ => hp⟩
    · exact inv_of_noHazard hm (if_neg hb)

/-- Whatever an instruction of a class leaves meets the invariant. -/
theorem Executed.inv {s t : State} (he : Executed s t) (hm : s.mem.wf = true) : Inv t := by
  have hc : (clearHazard s).mem.wf = true := hm
  cases he with
  | skipped => exact inv_of_noHazard hm rfl
  | dataProcessing op h out c =>
    exact (inv_dpWrite op h out c hc rfl).congr (concluded_mem ..) (concluded_hazard ..) (concluded_mode ..)
  | transfer op h x =>
    obtain ⟨hw, hz⟩ := sdtTransfer_keeps op h x hc
    exact inv_of_noHazard (by rwa [concluded_mem]) (by rw [concluded_hazard, hz]; rfl)
  | trapped e r kept written =>
    exact inv_of_noHazard (by rw [takeException_mem, (leftOpen_failedBase ..).2]; exact hm) rfl
  | branched a => exact inv_of_noHazard hm rfl
  | linked a v => exact inv_of_noHazard (by simpa using hm) (by simp)
  | loadFailed e h n b f vs =>
    exact inv_of_noHazard (by rw [failBlock_mem, (leftOpen_failedLoads ..).2]; exact hm) rfl
  | loaded h n pairs v =>
    obtain ⟨-, -, wmem, whz, -⟩ := blockWriteBack_frame h n v (clearHazard s)
    obtain ⟨-, -, lmem, lhz, -⟩ := loadRegs_frame (bankMode (loadUsesUserBank h) s) pairs
      (blockWriteBack h n v (clearHazard s))
    exact (inv_finishLdm h (loadedPc pairs) (by rw [lmem, wmem]; exact hm) (lhz.trans whz)).congr
      (concluded_mem ..) (concluded_hazard ..) (concluded_mode ..)
  | storeFailed e h n b f pairs => exact inv_of_noHazard (by rw [failBlock_mem]; exact storeAll_wf hc pairs) rfl
  | stored h n v pairs =>
    obtain ⟨-, -, wmem, whz, -⟩ := blockWriteBack_frame h n v (storeAll pairs (clearHazard s))
    obtain ⟨-, -, -, shz, -⟩ := storesOnly_storeAll pairs (clearHazard s)
    exact inv_of_noHazard (by rw [advance_mem, wmem]; exact storeAll_wf hc pairs)
      (by rw [advance_hazard, whz, shz]; rfl)

/-- Whatever the instruction at the PC leaves, or the abort of its fetch, meets the invariant. -/
theorem inv_runFetched {s t : State} (hm : s.mem.wf = true) (hr : runFetched s = .next t) : Inv t := by
  rcases runFetched_next hr with ⟨w, hx⟩ | rfl | rfl
  · exact (executed_exec hx).inv hm
  · exact inv_of_noHazard hm rfl
  · exact inv_of_noHazard (by simpa using hm) rfl

/-- An entry the inputs force meets the invariant. -/
theorem inv_pendingEntry {s t : State} (hm : s.mem.wf = true) (hp : pendingEntry s = some t) : Inv t := by
  rcases pendingEntry_cases hp with rfl | ⟨rfl, -⟩ | ⟨rfl, -⟩
  · exact inv_of_noHazard (by rwa [resetEntry_mem]) rfl
  · exact inv_of_noHazard (by rwa [takeException_mem]) rfl
  · exact inv_of_noHazard (by rwa [takeException_mem]) rfl

/-- Settles O54: every instruction clears the hazard before it acts, so of the invariant before only the canonical
form of memory is needed. -/
theorem stepKeepsTheInvariant : Obligations.StepKeepsTheInvariant := by
  rintro s t ⟨hm, -⟩ hs
  obtain ⟨-, u, rfl, hp | ⟨-, hr⟩⟩ := step_next hs
  · exact (inv_pendingEntry hm hp).congr rfl rfl rfl
  · exact (inv_runFetched hm hr).congr rfl rfl rfl

end Sys2Proof.Machine

/-! SUPPORT. User mode is left by an exception alone: every other operation keeps the mode, both masks and the
registers the privileged modes have of their own. -/

namespace Sys2Proof.Machine

/-- I, F, the mode and the registers FIQ, IRQ and SVC mode have of their own are as before. -/
def KeepsPrivileged (s t : State) : Prop := SameControl s t ∧ t.fiq = s.fiq ∧ t.irq = s.irq ∧ t.svc = s.svc

theorem KeepsPrivileged.refl (s : State) : KeepsPrivileged s s := ⟨⟨rfl, rfl, rfl⟩, rfl, rfl, rfl⟩

theorem KeepsPrivileged.trans {s t u : State} (h : KeepsPrivileged s t) (k : KeepsPrivileged t u) :
    KeepsPrivileged s u := by
  obtain ⟨⟨hi, hf, hm⟩, h1, h2, h3⟩ := h
  obtain ⟨⟨ki, kf, km⟩, k1, k2, k3⟩ := k
  exact ⟨⟨ki.trans hi, kf.trans hf, km.trans hm⟩, k1.trans h1, k2.trans h2, k3.trans h3⟩

/-- The mode after an operation that keeps it. -/
theorem KeepsPrivileged.user {s t : State} (h : KeepsPrivileged s t) (hu : s.mode = .usr) : t.mode = .usr :=
  h.1.2.2.trans hu

/-- A register of the user bank is none of the privileged modes' own. -/
theorem keepsPrivileged_writePhys (i : Fin 15) (v : Word) (s : State) :
    KeepsPrivileged s (writePhys (phys .usr i) v s) := ⟨⟨rfl, rfl, rfl⟩, rfl, rfl, rfl⟩

/-- In user mode a register number names a register of the user bank (rule R22). -/
theorem keepsPrivileged_writeX {s : State} (hu : s.mode = .usr) (i : Fin 15) (v : Word) :
    KeepsPrivileged s (writeX i v s) := by
  rw [writeX, hu]; exact keepsPrivileged_writePhys i v s

theorem keepsPrivileged_setFlags (out : AluOut) (c : Bool) (s : State) : KeepsPrivileged s (setFlags out c s) :=
  ⟨⟨setFlags_maskI .., setFlags_maskF .., setFlags_mode ..⟩, setFlags_fiq .., setFlags_irq .., setFlags_svc ..⟩

/-- In user mode a write of the PSR reaches the flags alone (rule R25). -/
theorem keepsPrivileged_setPSR {s : State} (hu : s.mode = .usr) (v : Word) : KeepsPrivileged s (setPSR v s) := by
  obtain ⟨hi, hf, hm⟩ := setPSR_user hu v
  exact ⟨⟨hi, hf, hm.trans hu.symm⟩, setPSR_fiq v s, setPSR_irq v s, setPSR_svc v s⟩

theorem keepsPrivileged_concluded (b : Bool) (s : State) : KeepsPrivileged s (concluded b s) :=
  ⟨⟨concluded_maskI .., concluded_maskF .., concluded_mode ..⟩, concluded_fiq .., concluded_irq .., concluded_svc ..⟩

theorem keepsPrivileged_dpWrite {s : State} (hu : s.mode = .usr) (op : DpOp) (h : DpHead) (out : AluOut) (c : Bool) :
    KeepsPrivileged s (dpWrite op h out c s) := by
  have hflags : KeepsPrivileged s (setFlags out c s) := keepsPrivileged_setFlags out c s
  unfold dpWrite
  split
  · exact hflags.trans (keepsPrivileged_writeX (hflags.user hu) ..)
  · exact keepsPrivileged_writeX hu ..
  · exact .refl s
  · exact keepsPrivileged_setPSR (s := setPC (aluValue out) s) hu _
  · exact .refl s
  · exact hflags
  · exact keepsPrivileged_setPSR hu (aluValue out)

theorem keepsPrivileged_writeBack {s : State} (hu : s.mode = .usr) (h : SdtHead) (x : Word) :
    KeepsPrivileged s (writeBack h x s) := by
  unfold writeBack
  split
  · exact keepsPrivileged_writeX hu ..
  · exact .refl s

theorem keepsPrivileged_loadReg {s : State} (hu : s.mode = .usr) (r : Reg) (v : Word) :
    KeepsPrivileged s (loadReg r v s) := by
  cases r with
  | gpr i => exact keepsPrivileged_writeX hu i v
  | r15 => exact .refl s

theorem keepsPrivileged_sdtTransfer {s : State} (hu : s.mode = .usr) (op : SdtOp) (h : SdtHead) (x : Word) :
    KeepsPrivileged s (sdtTransfer op h x s) := by
  have loaded (v y : Word) : KeepsPrivileged s (writeBack h y (loadReg h.rd v s)) :=
    have hl := keepsPrivileged_loadReg hu h.rd v
    hl.trans (keepsPrivileged_writeBack (hl.user hu) h y)
  have stored {t : State} (y : Word) (ht : KeepsPrivileged s t) : KeepsPrivileged s (writeBack h y t) :=
    ht.trans (keepsPrivileged_writeBack (ht.user hu) h y)
  cases op with
  | ldr | ldrb => exact loaded ..
  | str | strb => exact stored _ ⟨⟨rfl, rfl, rfl⟩, rfl, rfl, rfl⟩

theorem keepsPrivileged_blockWriteBack {s : State} (hu : s.mode = .usr) (h : BlockHead) (n : Fin 15) (v : Word) :
    KeepsPrivileged s (blockWriteBack h n v s) := by
  unfold blockWriteBack
  split
  · exact keepsPrivileged_writeX hu n v
  · exact .refl s

theorem keepsPrivileged_loadRegs (pairs : List (Reg × Word)) (s : State) :
    KeepsPrivileged s (loadRegs .usr pairs s) := by
  induction pairs generalizing s with
  | nil => exact .refl s
  | cons p rest ih =>
    obtain ⟨i | _, v⟩ := p
    · exact (keepsPrivileged_writePhys i v s).trans (ih _)
    · exact ih s

theorem keepsPrivileged_finishLdm {s : State} (hu : s.mode = .usr) (h : BlockHead) (w : Option Word) :
    KeepsPrivileged s (finishLdm h w s) := by
  unfold finishLdm
  split
  · split
    · exact keepsPrivileged_setPSR (s := setPC _ s) hu _
    · exact .refl s
  · exact .refl s

theorem keepsPrivileged_storeAll (pairs : List (Word × Word)) (s : State) : KeepsPrivileged s (storeAll pairs s) := by
  obtain ⟨hregs, -, ⟨-, hc⟩, -⟩ := storesOnly_storeAll pairs s
  exact ⟨hc, (banks_ext hregs).2⟩

/-- In user mode the bank of a block transfer is the user bank (rule R197). -/
theorem bankMode_user {s : State} (hu : s.mode = .usr) (b : Bool) : bankMode b s = .usr := by
  cases b
  · exact hu
  · rfl

/-- The entries that leave SVC mode at one of the vectors 0x00 to 0x14 (rules R222, R223). -/
theorem enteredFromUser_takeException {e : Exception} (he : exceptionMode e = .svc)
    (hv : (exceptionVector e).toNat ≤ 5) (s : State) : EnteredFromUser (takeException e s) :=
  ⟨rfl, .inl ⟨(takeException_mode e s).trans he, hv⟩⟩

/-- In user mode an instruction keeps what is privileged, or it takes an exception into SVC mode. -/
theorem Executed.user {s t : State} (he : Executed s t) (hu : s.mode = .usr) :
    KeepsPrivileged s t ∨ EnteredFromUser t := by
  have hc : KeepsPrivileged s (clearHazard s) := .refl s
  cases he with
  | skipped => exact .inl hc
  | dataProcessing op h out c =>
    exact .inl ((keepsPrivileged_dpWrite (hc.user hu) op h out c).trans (keepsPrivileged_concluded ..))
  | transfer op h x =>
    exact .inl ((keepsPrivileged_sdtTransfer (hc.user hu) op h x).trans (keepsPrivileged_concluded ..))
  | trapped e r kept written hm hv => exact .inr (enteredFromUser_takeException hm hv _)
  | branched a => exact .inl hc
  | linked a v => exact .inl (keepsPrivileged_writeX (hc.user hu) 14 v)
  | loadFailed e h n b f vs hm hv => exact .inr (enteredFromUser_takeException hm hv _)
  | loaded h n pairs v =>
    rw [bankMode_user hu]
    have hw : KeepsPrivileged s _ := keepsPrivileged_blockWriteBack (hc.user hu) h n v
    have hl := hw.trans (keepsPrivileged_loadRegs pairs _)
    exact .inl ((hl.trans (keepsPrivileged_finishLdm (hl.user hu) ..)).trans (keepsPrivileged_concluded ..))
  | storeFailed e h n b f pairs hm hv => exact .inr (enteredFromUser_takeException hm hv _)
  | stored h n v pairs =>
    have hs : KeepsPrivileged s _ := keepsPrivileged_storeAll pairs (clearHazard s)
    exact .inl (hs.trans (keepsPrivileged_blockWriteBack (hs.user hu) h n v))

/-- In user mode the instruction at the PC keeps what is privileged, or an exception is taken. -/
theorem runFetched_user {s t : State} (hu : s.mode = .usr) (hr : runFetched s = .next t) :
    KeepsPrivileged s t ∨ EnteredFromUser t := by
  rcases runFetched_next hr with ⟨w, hx⟩ | rfl | rfl
  · exact (executed_exec hx).user hu
  · exact .inl (.refl s)
  · exact .inr (enteredFromUser_takeException rfl (by decide) _)

/-- The three entries the inputs force: reset, FIQ and IRQ (rules R223, R230). -/
theorem enteredFromUser_pendingEntry {s t : State} (hp : pendingEntry s = some t) : EnteredFromUser t := by
  rcases pendingEntry_cases hp with rfl | ⟨rfl, -⟩ | ⟨rfl, -⟩
  · exact ⟨rfl, .inl ⟨rfl, (by decide : (0 : PcWord).toNat ≤ 5)⟩⟩
  · exact ⟨rfl, .inr (.inr ⟨takeException_mode .fiq s, rfl, Bool.or_true _⟩)⟩
  · exact ⟨rfl, .inr (.inl ⟨takeException_mode .irq s, rfl⟩)⟩

/-- Settles O52, by the classes of what a step can leave (`Executed`). -/
theorem userModeIsLeftOnlyByAnException : Obligations.UserModeIsLeftOnlyByAnException := by
  intro s t hu hs
  obtain ⟨-, u, rfl, hp | ⟨-, hr⟩⟩ := step_next hs
  · have he : EnteredFromUser u := enteredFromUser_pendingEntry hp
    exact .inr he
  · have hk : KeepsPrivileged s u ∨ EnteredFromUser u := runFetched_user hu hr
    exact hk

end Sys2Proof.Machine

/-! SUPPORT. What user mode sees of a state, and what reads and updates make of it: in user mode every read is the
same on the view, and every update commutes with it. -/

namespace Sys2Proof.Machine

/-- What user mode sees of a state: all of it but the registers FIQ, IRQ and SVC mode have of their own. -/
def userView (s : State) : State :=
  { s with fiq := Vector.replicate 5 0, irq := Vector.replicate 2 0, svc := Vector.replicate 2 0 }

/-- Two states differ in registers of the privileged modes alone exactly when user mode sees the same of them. -/
theorem sameForUser_iff (s t : State) : SameForUser s t ↔ userView s = userView t := by
  cases s; cases t
  simp [SameForUser, userView, eq_comm]

/-- What user mode sees of an answer. -/
def answerView : Result → Result
  | .next s => .next (userView s)
  | .fault f => .fault f
  | .refused w => .refused w

theorem sameAnswerForUser_iff (a b : Result) : SameAnswerForUser a b ↔ answerView a = answerView b := by
  cases a <;> cases b <;> simp [SameAnswerForUser, answerView, sameForUser_iff]

@[simp] theorem userView_userView (s : State) : userView (userView s) = userView s := rfl
@[simp] theorem userView_flagC (s : State) : (userView s).flagC = s.flagC := rfl
@[simp] theorem userView_mode (s : State) : (userView s).mode = s.mode := rfl
@[simp] theorem userView_mem (s : State) : (userView s).mem = s.mem := rfl
@[simp] theorem userView_platform (s : State) : (userView s).platform = s.platform := rfl

/-! ### Reads -/

@[simp] theorem condPassed_userView (c : Cond) (s : State) : condPassed c (userView s) = condPassed c s := by
  cases c <;> rfl
@[simp] theorem hazardHit_userView (rs : List Reg) (s : State) : hazardHit rs (userView s) = hazardHit rs s := rfl
@[simp] theorem mayAdvance_userView (s : State) : mayAdvance (userView s) = mayAdvance s := rfl
@[simp] theorem r15full_userView (k : Addr) (s : State) : r15full k (userView s) = r15full k s := rfl
@[simp] theorem r15pc_userView (k : Addr) (s : State) : r15pc k (userView s) = r15pc k s := rfl
@[simp] theorem loadWord_userView (a : Addr) (s : State) : loadWord a (userView s) = loadWord a s := rfl
@[simp] theorem bankMode_userView (b : Bool) (s : State) : bankMode b (userView s) = bankMode b s := rfl
@[simp] theorem checkBus_userView (a : Addr) (n : AccessSize) (k : AccessKind) (tr : Bool) (s : State) :
    checkBus a n k tr (userView s) = checkBus a n k tr s := rfl
@[simp] theorem misalignedRefused_userView (a : Word) (n : AccessSize) (s : State) :
    misalignedRefused a n (userView s) = misalignedRefused a n s := rfl
@[simp] theorem sdtForbidden_userView (op : SdtOp) (h : SdtHead) (s : State) :
    sdtForbidden op h (userView s) = sdtForbidden op h s := rfl
@[simp] theorem inUndefSet_userView (w : Word) (s : State) : inUndefSet w (userView s) = inUndefSet w s := rfl
@[simp] theorem branchTarget_userView (o : BitVec 24) (s : State) :
    branchTarget o (userView s) = branchTarget o s := rfl

/-- The user bank is seen whole. -/
@[simp] theorem readPhys_userView (i : Fin 15) (s : State) :
    readPhys (phys .usr i) (userView s) = readPhys (phys .usr i) s := rfl

section
variable {s : State} (hu : s.mode = .usr)
include hu

@[simp] theorem readX_userView (i : Fin 15) : readX i (userView s) = readX i s := by
  simp [readX, hu]

@[simp] theorem readRn_userView (k : Addr) (r : Reg) : readRn k r (userView s) = readRn k r s := by
  cases r <;> simp [readRn, hu]

@[simp] theorem readRm_userView (k : Addr) (r : Reg) : readRm k r (userView s) = readRm k r s := by
  cases r <;> simp [readRm, hu]

@[simp] theorem readStored_userView (r : Reg) : readStored r (userView s) = readStored r s := by
  cases r <;> simp [readStored, hu]

@[simp] theorem shiftByRegister_userView (ty : ShiftType) (rs : Reg) (v : Word) :
    shiftByRegister ty rs v (userView s) = shiftByRegister ty rs v s := by
  cases rs <;> simp [shiftByRegister, hu]

@[simp] theorem operand2_userView (o : Operand2) : operand2 o (userView s) = operand2 o s := by
  cases o <;> simp [operand2, hu]

@[simp] theorem offsetValue_userView (o : Offset) : offsetValue o (userView s) = offsetValue o s := by
  unfold offsetValue
  simp only [userView_flagC, readX_userView hu, shiftByRegister_userView hu]

@[simp] theorem indexedAddress_userView (h : SdtHead) (x : Word) :
    indexedAddress h x (userView s) = indexedAddress h x s := by
  simp [indexedAddress, hu]

@[simp] theorem transferAddress_userView (h : SdtHead) (x : Word) :
    transferAddress h x (userView s) = transferAddress h x s := by
  simp [transferAddress, hu]

@[simp] theorem baseIfWritten_userView (h : SdtHead) (x : Word) :
    baseIfWritten h x (userView s) = baseIfWritten h x s := by
  simp [baseIfWritten, hu]

@[simp] theorem blockForbidden_userView (h : BlockHead) (b : Bool) :
    blockForbidden h b (userView s) = blockForbidden h b s := by
  rw [blockForbidden, readRn_userView hu]; rfl

end

@[simp] theorem readBlock_userView (s : State) (addrs : List Word) :
    readBlock (userView s) addrs = readBlock s addrs :=
  readBlock_congr (s := s) (t := userView s) rfl rfl (fun a k => checkBus_userView a .word k false s) addrs

@[simp] theorem storedWord_userView (h : BlockHead) (n : Fin 15) (final : Word) (first : Bool) (r : Reg) (s : State) :
    storedWord h .usr n final first r (userView s) = storedWord h .usr n final first r s := by
  cases r <;> simp [storedWord]

@[simp] theorem storedWords_userView (h : BlockHead) (n : Fin 15) (final : Word) (s : State) (rs : List Reg) :
    storedWords h .usr n final (userView s) rs = storedWords h .usr n final s rs := by
  cases rs <;> simp [storedWords]

/-! ### Updates -/

@[simp] theorem clearHazard_userView (s : State) : clearHazard (userView s) = userView (clearHazard s) := rfl
@[simp] theorem dropInput_userView (s : State) : dropInput (userView s) = userView (dropInput s) := rfl
@[simp] theorem advance_userView (s : State) : advance (userView s) = userView (advance s) := rfl
@[simp] theorem setPC_userView (v : Word) (s : State) : setPC v (userView s) = userView (setPC v s) := rfl
@[simp] theorem branchTo_userView (a : Addr) (s : State) : branchTo a (userView s) = userView (branchTo a s) := rfl
@[simp] theorem storeWord_userView (a : Addr) (v : Word) (s : State) :
    storeWord a v (userView s) = userView (storeWord a v s) := rfl
@[simp] theorem storeByte_userView (a : Addr) (v : Byte) (s : State) :
    storeByte a v (userView s) = userView (storeByte a v s) := rfl
@[simp] theorem setFlags_userView (out : AluOut) (c : Bool) (s : State) :
    setFlags out c (userView s) = userView (setFlags out c s) := by cases out <;> rfl
@[simp] theorem setPSR_userView (v : Word) (s : State) : setPSR v (userView s) = userView (setPSR v s) := by
  unfold setPSR; cases h : s.mode <;> simp [h] <;> rfl
@[simp] theorem restoreR15_userView (v : Word) (s : State) : restoreR15 v (userView s) = userView (restoreR15 v s) :=
  setPSR_userView v (setPC v s)
@[simp] theorem writePsrOnly_userView (v : Word) (s : State) :
    writePsrOnly v (userView s) = userView (writePsrOnly v s) := by
  simp only [writePsrOnly, setPSR_userView]; rfl
@[simp] theorem writePhys_userView (i : Fin 15) (v : Word) (s : State) :
    writePhys (phys .usr i) v (userView s) = userView (writePhys (phys .usr i) v s) := rfl
@[simp] theorem spoil_userView (i : Fin 15) (s : State) :
    spoil (phys .usr i) (userView s) = userView (spoil (phys .usr i) s) := rfl

@[simp] theorem loadRegs_userView (pairs : List (Reg × Word)) (s : State) :
    loadRegs .usr pairs (userView s) = userView (loadRegs .usr pairs s) := by
  induction pairs generalizing s with
  | nil => rfl
  | cons p rest ih =>
    obtain ⟨i | _, v⟩ := p
    · simp [loadRegs, ih]
    · exact ih s

@[simp] theorem spoilAll_loadedPhys_userView (rs : List Reg) (s : State) :
    spoilAll (loadedPhys .usr rs) (userView s) = userView (spoilAll (loadedPhys .usr rs) s) := by
  induction rs generalizing s with
  | nil => rfl
  | cons r rest ih =>
    cases r with
    | gpr i => simp [loadedPhys, spoilAll, ih]
    | r15 => exact ih s

@[simp] theorem failedLoads_userView (rs : List Reg) (vs : List Word) (s : State) :
    failedLoads .usr rs vs (userView s) = userView (failedLoads .usr rs vs s) := by
  cases hl : s.platform.abortSideEffects.loads <;> simp [failedLoads, hl]

@[simp] theorem finishLdm_userView (h : BlockHead) (w : Option Word) (s : State) :
    finishLdm h w (userView s) = userView (finishLdm h w s) := by
  cases w with
  | some v => cases hs : h.s <;> simp [finishLdm, hs]
  | none => rfl

/-- What user mode sees of the writes of a block. -/
def writeView : BlockWrite → BlockWrite
  | .done s => .done (userView s)
  | .dataAbort s => .dataAbort (userView s)
  | .stop w => .stop w

theorem writeBlock_userView (pairs : List (Word × Word)) (s : State) :
    writeBlock pairs (userView s) = writeView (writeBlock pairs s) := by
  induction pairs generalizing s with
  | nil => rfl
  | cons p rest ih =>
    simp only [writeBlock, checkBus_userView, storeWord_userView, ih]
    split <;> rfl

section
variable {s : State} (hu : s.mode = .usr)
include hu

@[simp] theorem writeX_userView (i : Fin 15) (v : Word) : writeX i v (userView s) = userView (writeX i v s) := by
  simp [writeX, hu]

@[simp] theorem failedBase_userView (r : Reg) (kept written : Word) :
    failedBase r kept written (userView s) = userView (failedBase r kept written s) := by
  cases r with
  | gpr i => cases hb : s.platform.abortSideEffects.base <;> simp [failedBase, hb, hu]
  | r15 => rfl

@[simp] theorem dpWrite_userView (op : DpOp) (h : DpHead) (out : AluOut) (c : Bool) :
    dpWrite op h out c (userView s) = userView (dpWrite op h out c s) := by
  unfold dpWrite
  split <;> simp [hu]

@[simp] theorem loadReg_userView (r : Reg) (v : Word) : loadReg r v (userView s) = userView (loadReg r v s) := by
  cases r <;> simp [loadReg, hu]

@[simp] theorem writeBack_userView (h : SdtHead) (x : Word) :
    writeBack h x (userView s) = userView (writeBack h x s) := by
  unfold writeBack
  split <;> simp [hu]

@[simp] theorem sdtTransfer_userView (op : SdtOp) (h : SdtHead) (x : Word) :
    sdtTransfer op h x (userView s) = userView (sdtTransfer op h x s) := by
  have hl (v : Word) : (loadReg h.rd v s).mode = .usr := (keepsPrivileged_loadReg hu h.rd v).user hu
  cases op <;> simp [sdtTransfer, hu, hl]

@[simp] theorem blockWriteBack_userView (h : BlockHead) (n : Fin 15) (v : Word) :
    blockWriteBack h n v (userView s) = userView (blockWriteBack h n v s) := by
  unfold blockWriteBack
  split <;> simp [hu]

end

/-! ### Entries -/

/-- The saved word is the same, and it stands in a register user mode does not see (rule R223). -/
@[simp] theorem userView_takeException (e : Exception) (s : State) :
    userView (takeException e (userView s)) = userView (takeException e s) := by
  cases e <;> rfl

/-- The free values a list of registers takes do not depend on what stood in them. -/
theorem userView_spoilAll (ps : List PhysReg) {s t : State} (h : userView s = userView t) :
    userView (spoilAll ps s) = userView (spoilAll ps t) := by
  have spoilView (p : PhysReg) (s : State) : userView (spoil p (userView s)) = userView (spoil p s) := by
    cases p <;> rfl
  induction ps generalizing s t with
  | nil => exact h
  | cons p rest ih => exact ih (by rw [← spoilView p s, h, spoilView])

/-- Every register and flag takes a value at reset that does not depend on what stood in it (rules R230, R260). -/
theorem userView_resetValues (s : State) : userView (resetValues (userView s)) = userView (resetValues s) := by
  cases hr : s.platform.resetRegs with
  | some r => simp only [resetValues, userView_platform, hr]; rfl
  | none =>
    have spoilFlagsView (t : State) : userView (spoilFlags t) = spoilFlags (userView t) := rfl
    have spoiltView := userView_spoilAll allPhysRegs (userView_userView s)
    simp only [resetValues, userView_platform, hr, spoilFlagsView, spoiltView]

@[simp] theorem userView_resetEntry (s : State) : userView (resetEntry (userView s)) = userView (resetEntry s) := by
  have hv := userView_resetValues s
  simp only [userView, State.mk.injEq] at hv
  simp only [resetEntry, userView, hv]

end Sys2Proof.Machine

/-! SUPPORT. No instruction and no entry makes user mode see more of a state than it saw before. -/

namespace Sys2Proof.Machine

/-- In user mode f answers the same, as far as user mode sees, whatever the privileged modes' own
registers hold. -/
def Unseeing (f : State → Result) : Prop :=
  ∀ s : State, s.mode = .usr → answerView (f (userView s)) = answerView (f s)

@[simp] theorem answerView_next (s : State) : answerView (.next s) = .next (userView s) := rfl

@[simp] theorem answerView_refused (w : Refusal) : answerView (.refused w) = .refused w := rfl

@[simp] theorem answerView_proceed (s : State) : answerView (proceed (userView s)) = answerView (proceed s) := by
  cases hm : mayAdvance s <;> simp [proceed, hm]

@[simp] theorem answerView_conclude (b : Bool) (s : State) :
    answerView (conclude b (userView s)) = answerView (conclude b s) := by
  cases b
  · exact answerView_proceed s
  · rfl

theorem unseeing_next {f : State → State}
    (h : ∀ s : State, s.mode = .usr → userView (f (userView s)) = userView (f s)) :
    Unseeing fun s => .next (f s) := fun s hu => congrArg Host.Outcome.next (h s hu)

theorem unseeing_refused (w : Refusal) : Unseeing fun _ => .refused w := fun _ _ => rfl

/-- The frame of an instruction looks at the flags and the hazard, which user mode sees. -/
theorem unseeing_conditional {body : State → Result} (h : Unseeing body) (c : Cond) (named : List Reg) :
    Unseeing (conditional c named body) := by
  intro s hu
  simp only [conditional, condPassed_userView, hazardHit_userView, clearHazard_userView]
  split
  · exact answerView_proceed _
  · split
    · rfl
    · exact h (clearHazard s) hu

theorem unseeing_dataProcessing (op : DpOp) (h : DpHead) (o : Operand2) : Unseeing (dataProcessing op h o) := by
  refine unseeing_conditional (fun s hu => ?_) _ _
  simp only [dpBody, operand2_userView hu, readRn_userView hu, userView_flagC, dpWrite_userView hu]
  split
  · rfl
  · exact answerView_conclude ..

theorem unseeing_singleTransfer (op : SdtOp) (h : SdtHead) (o : Offset) : Unseeing (singleTransfer op h o) := by
  refine unseeing_conditional (fun s hu => ?_) _ _
  have failed (e : Exception) (x : Word) : userView (failSdt e h x (userView s)) = userView (failSdt e h x s) := by
    simp [failSdt, hu]
  simp only [sdtBody, offsetValue_userView hu, sdtForbidden_userView, transferAddress_userView hu,
    misalignedRefused_userView, checkBus_userView, sdtTransfer_userView hu]
  split
  · rfl
  · rfl
  · split
    · exact congrArg Host.Outcome.next (failed ..)
    · split
      · rfl
      · split
        · exact congrArg Host.Outcome.next (failed ..)
        · rfl
        · exact answerView_conclude ..

/-- The trap of a failed block transfer. -/
theorem userView_failBlock {s : State} (hu : s.mode = .usr) (e : Exception) (h : BlockHead) (n : Fin 15)
    (b f : Word) :
    userView (failBlock e h n b f (userView s)) = userView (failBlock e h n b f s) := by
  simp [failBlock, hu]

theorem failedLoads_user {s : State} (hu : s.mode = .usr) (list : BitVec 16) (vs : List Word) :
    (failedLoads .usr (listedRegs list) vs s).mode = .usr :=
  (leftOpen_failedLoads .usr list vs s).1.1.2.1.2.2.2.trans hu

theorem unseeing_ldmFrom (h : BlockHead) (n : Fin 15) : Unseeing (ldmFrom h n) := by
  intro s hu
  simp only [ldmFrom, readX_userView hu, readBlock_userView, bankMode_userView, bankMode_user hu,
    failedLoads_userView, blockWriteBack_userView hu, loadRegs_userView, finishLdm_userView]
  split
  · exact congrArg Host.Outcome.next (userView_failBlock (failedLoads_user hu ..) ..)
  · split
    · rfl
    · split
      · exact congrArg Host.Outcome.next (userView_failBlock (failedLoads_user hu ..) ..)
      · rfl
      · exact answerView_conclude ..

theorem unseeing_stmTo (h : BlockHead) (n : Fin 15) : Unseeing (stmTo h n) := by
  intro s hu
  simp only [stmTo, readX_userView hu, bankMode_userView, bankMode_user hu, storedWords_userView, writeBlock_userView]
  split
  · exact congrArg Host.Outcome.next (userView_failBlock hu ..)
  · split
    · rfl
    · generalize List.zip _ _ = pairs
      have stored (p : List (Word × Word)) : (storeAll p s).mode = .usr := (keepsPrivileged_storeAll p s).user hu
      rcases writeBlock_cases pairs s with hw | ⟨pre, -, hw⟩ | ⟨why, hw⟩ <;> rw [hw]
      · simp only [writeView, blockWriteBack_userView (stored pairs)]
        exact answerView_proceed _
      · exact congrArg Host.Outcome.next (userView_failBlock (stored pre) ..)
      · rfl

theorem unseeing_execLdm (h : BlockHead) : Unseeing (execLdm h) := by
  refine unseeing_conditional (fun s hu => ?_) _ _
  simp only [ldmBody, blockForbidden_userView hu]
  split
  · rfl
  · exact unseeing_ldmFrom h _ s hu
  · rfl

theorem unseeing_execStm (h : BlockHead) : Unseeing (execStm h) := by
  refine unseeing_conditional (fun s hu => ?_) _ _
  simp only [stmBody, blockForbidden_userView hu]
  split
  · rfl
  · exact unseeing_stmTo h _ s hu
  · rfl

/-- A branch reads the PC, and its link the PSR with it. -/
theorem unseeing_branches (c : Cond) (o : BitVec 24) : Unseeing (execB c o) ∧ Unseeing (execBl c o) :=
  ⟨unseeing_conditional (unseeing_next fun _ _ => rfl) c [],
    unseeing_conditional (unseeing_next fun s hu => by simp [hu]) c []⟩

theorem unseeing_execSwi (c : Cond) (n : BitVec 24) : Unseeing (execSwi c n) :=
  unseeing_conditional (unseeing_next fun s _ => userView_takeException _ s) c []

theorem unseeing_undefined (c : Cond) (w : Word) : Unseeing (conditional c [] (undefinedBody w)) := by
  refine unseeing_conditional (fun s _ => ?_) c []
  cases hw : inUndefSet w s <;> simp [undefinedBody, hw]

theorem unseeing_execReservedSdt (c : Cond) (high : BitVec 20) (low : BitVec 4) :
    Unseeing (execReservedSdt c high low) := by
  intro s hu
  simp only [execReservedSdt, userView_platform]
  split
  · exact unseeing_singleTransfer _ _ _ s hu
  · exact unseeing_conditional (unseeing_refused _) c [] s hu

/-- No instruction of user mode depends on the privileged modes' own registers. -/
theorem unseeing_exec (i : Instr) : Unseeing (exec i) := by
  cases i with
  | b c o => exact (unseeing_branches c o).1
  | bl c o => exact (unseeing_branches c o).2
  | swi c n => exact unseeing_execSwi c n
  | undefined110 | undefined1110 => exact unseeing_undefined _ _
  | reservedDp | reservedBlock => exact unseeing_conditional (unseeing_refused _) _ _
  | reservedSdt c high low => exact unseeing_execReservedSdt c high low
  | ldm h => exact unseeing_execLdm h
  | stm h => exact unseeing_execStm h
  | ldrImm | ldrReg | ldrbImm | ldrbReg | strImm | strReg | strbImm | strbReg => exact unseeing_singleTransfer _ _ _
  | _ => exact unseeing_dataProcessing _ _ _

theorem fetch_userView (s : State) : fetch (userView s) = fetch s := rfl

theorem unseeing_runFetched : Unseeing runFetched := by
  intro s hu
  simp only [runFetched, fetch_userView]
  split
  · rfl
  · exact unseeing_conditional (unseeing_next fun s _ => userView_takeException _ s) _ [] s hu
  · exact unseeing_exec _ s hu

/-- The inputs force the same entry, and user mode sees the same of it. -/
theorem pendingEntry_userView (s : State) :
    (pendingEntry (userView s)).map userView = (pendingEntry s).map userView := by
  have inputs : currentInput (userView s) = currentInput s := rfl
  have maskI : (userView s).maskI = s.maskI := rfl
  have maskF : (userView s).maskF = s.maskF := rfl
  simp only [pendingEntry, inputs, maskI, maskF]
  split_ifs <;> simp

theorem answerView_endStep (r : Result) : answerView (endStep r) = endStep (answerView r) := by
  cases r <;> rfl

/-- No step of user mode depends on the privileged modes' own registers. -/
theorem unseeing_step : Unseeing step := by
  intro s hu
  have hh : (userView s).haltAddress = some (pcAddr (userView s)) ↔ s.haltAddress = some (pcAddr s) := Iff.rfl
  by_cases hs : s.haltAddress = some (pcAddr s)
  · rw [step, step, if_pos hs, if_pos (hh.mpr hs)]
  rw [step, step, if_neg hs, if_neg (mt hh.mp hs)]
  have hp := pendingEntry_userView s
  cases hw : pendingEntry s with
  | none =>
    have hv : pendingEntry (userView s) = none := by simpa [hw] using hp
    rw [hv, answerView_endStep, answerView_endStep, unseeing_runFetched s hu]
  | some v =>
    obtain ⟨u, hv, huv⟩ : ∃ u, pendingEntry (userView s) = some u ∧ userView u = userView v := by
      simpa [hw] using hp
    rw [hv, answerView_endStep, answerView_endStep, answerView_next, answerView_next, huv]

/-- Settles O53: of two such states user mode sees the same, and a step depends on what it sees alone. -/
theorem privateRegistersAreInvisibleToUserMode : Obligations.PrivateRegistersAreInvisibleToUserMode := by
  intro s t hu hst
  rw [sameForUser_iff] at hst
  have ht : t.mode = .usr := (congrArg State.mode hst).symm.trans hu
  rw [sameAnswerForUser_iff]
  calc answerView (step s) = answerView (step (userView s)) := (unseeing_step s hu).symm
    _ = answerView (step (userView t)) := by rw [hst]
    _ = answerView (step t) := unseeing_step t ht

end Sys2Proof.Machine

/-! SUPPORT. The banking map and the condition table (rules R22, R30). -/

namespace Sys2Proof.Machine

/-- Two register numbers name one physical register in two modes exactly where the table of rule R22 lets the
modes share it. -/
theorem phys_eq_phys_iff (m m' : Mode) (i j : Fin 15) :
    phys m' j = phys m i ↔ i = j ∧ (i.val < 10 ∨ m = m' ∨ (i.val < 13 ∧ m ≠ .fiq ∧ m' ≠ .fiq)) := by
  cases m <;> cases m' <;> revert i j <;> decide

/-- The mode selects among the physical registers, and changes none of them. -/
theorem readPhys_withMode (p : PhysReg) (m : Mode) (s : State) : readPhys p { s with mode := m } = readPhys p s := by
  cases p <;> rfl

/-- Settles O26: a write reaches the other mode's register exactly where the two numbers name one physical
register. -/
theorem bankingMap : Obligations.BankingMap := by
  intro s m i j v
  calc readX j { writeX i v s with mode := m }
      = readPhys (phys m j) (writePhys (phys s.mode i) v s) := readPhys_withMode ..
    _ = if phys m j = phys s.mode i then v else readPhys (phys m j) s := readPhys_writePhys ..
    _ = _ := by simp only [phys_eq_phys_iff, readX, readPhys_withMode]

/-- Settles O22: the codes that test one flag read or negate it, the others are Boolean expressions in two or
three. -/
theorem conditionTable : Obligations.ConditionTable := by
  intro s
  have clear (b : Bool) : (!b) = true ↔ b = false := by simp
  refine ⟨.rfl, clear s.flagZ, .rfl, clear s.flagC, .rfl, clear s.flagN, .rfl, clear s.flagV, ?hi, ?ls, ?ge, ?lt,
    ?gt, ?le, rfl, rfl⟩
  case hi => change (s.flagC && !s.flagZ) = true ↔ _; simp
  case ls => change (!s.flagC || s.flagZ) = true ↔ _; simp
  case ge => change (s.flagN == s.flagV) = true ↔ _; simp
  case lt => change (s.flagN != s.flagV) = true ↔ _; simp
  case gt => change (!s.flagZ && (s.flagN == s.flagV)) = true ↔ _; simp
  case le => change (s.flagZ || (s.flagN != s.flagV)) = true ↔ _; simp

end Sys2Proof.Machine

/-! SUPPORT. Where a parameter says refuse: the refusals of data processing, of single and of block transfers, each
said once (logs 2, 3, 8, 17, 18, 19). -/

namespace Sys2Proof.Machine

/-- A claim about every single data transfer follows from one about the instructions whose meaning is
`singleTransfer`, the reserved row's where the parameter allows it. -/
theorem everySdt_of {claim : Instr → SdtOp → SdtHead → Offset → Prop}
    (hc : ∀ i op h o, (∀ s, (∀ r, o = .regShift r → s.platform.ldrRegShiftByReg = .allow) →
      exec i s = singleTransfer op h o s) → claim i op h o) : EverySdt claim :=
  ⟨fun _ _ => hc _ _ _ _ fun _ _ => rfl, fun _ _ => hc _ _ _ _ fun _ _ => rfl, fun _ _ => hc _ _ _ _ fun _ _ => rfl,
    fun _ _ => hc _ _ _ _ fun _ _ => rfl, fun _ _ => hc _ _ _ _ fun _ _ => rfl, fun _ _ => hc _ _ _ _ fun _ _ => rfl,
    fun _ _ => hc _ _ _ _ fun _ _ => rfl, fun _ _ => hc _ _ _ _ fun _ _ => rfl,
    fun op h o => hc _ _ _ _ fun _ ha => exec_regShiftInstr op h o (ha o rfl)⟩

theorem SdtAttempts.allow {op : SdtOp} {h : SdtHead} {o : Offset} {x : Word} {s : State}
    (ha : SdtAttempts op h o x s) :
    ∀ r, o = .regShift r → s.platform.ldrRegShiftByReg = .allow := by
  obtain ⟨-, -, -, -, hallow⟩ := ha
  exact hallow

/-! ### misaligned_word = refuse -/

theorem misalignedRefused_word_iff (a : Word) (s : State) :
    misalignedRefused a .word s = true ↔ a.toNat % 4 ≠ 0 ∧ s.platform.misalignedWord = .refuse := by
  have low : a.extractLsb' 0 2 = 0#2 ↔ a.toNat % 4 = 0 := by
    rw [← BitVec.toNat_inj, BitVec.extractLsb'_toNat]; rfl
  simp [misalignedRefused, low, and_comm]

theorem misalignedRefused_word_eq_false {a : Word} {s : State}
    (h : a.toNat % 4 = 0 ∨ s.platform.misalignedWord = .rotate) : misalignedRefused a .word s = false := by
  rw [← Bool.not_eq_true, misalignedRefused_word_iff]
  rintro ⟨ha, hr⟩
  rcases h with h | h
  · exact ha h
  · cases hr.symm.trans h

/-- An attempted word transfer at a legal misaligned address (rule R54, D2). -/
theorem singleTransfer_misaligned {op : SdtOp} {h : SdtHead} {o : Offset} {x : Word} {s : State}
    (ha : SdtAttempts op h o x s) (hw : sdtSize op = .word) (hl : (transferAddress h x s).toNat < 0x4000000)
    (hm : (transferAddress h x s).toNat % 4 ≠ 0) (hr : s.platform.misalignedWord = .refuse) :
    singleTransfer op h o s = .refused .misalignedWordAccess := by
  rw [singleTransfer_attempts ha, (addressIllegal_false_iff _).mpr hl, hw,
    (misalignedRefused_word_iff _ s).mpr ⟨hm, hr⟩]
  rfl

/-! ### trans_bit = refuse -/

/-- The translate form (rule R177, D17). -/
theorem singleTransfer_translated {op : SdtOp} {h : SdtHead} {o : Offset} {x : Word} {s : State}
    (hc : condPassed h.cond s = true) (hz : hazardHit (sdtRegisters h o) s = false) (ho : offsetValue o s = .ok x)
    (hp : h.p = false) (hw : h.w = true) (hr : s.platform.transBit = .refuse) :
    singleTransfer op h o s = .refused .translatedTransfer := by
  have hf : sdtForbidden op h s = some .translatedTransfer := by simp [sdtForbidden, isTranslated, hp, hw, hr]
  rw [singleTransfer, conditional_passed hc hz, sdtBody, offsetValue_clearHazard, sdtForbidden_clearHazard, ho, hf]

/-! ### Block transfers the spec or a parameter forbids -/

/-- A forbidden block transfer is refused under its name (rules R192, R197, R201). -/
theorem execBlock_forbidden {h : BlockHead} {s : State} {why : Refusal} (hc : condPassed h.cond s = true)
    (hz : hazardHit (blockRegisters h) s = false) :
    (blockForbidden h (loadUsesUserBank h) s = some why → execLdm h s = .refused why) ∧
      (blockForbidden h h.s s = some why → execStm h s = .refused why) := by
  refine ⟨fun hf => ?_, fun hf => ?_⟩
  · rw [execLdm, conditional_passed hc hz, ldmBody, blockForbidden_clearHazard, hf]
  · rw [execStm, conditional_passed hc hz, stmBody, blockForbidden_clearHazard, hf]

/-- A misaligned base (rule R201, D2). -/
theorem blockForbidden_misaligned {h : BlockHead} {n : Fin 15} {s : State} (hn : h.rn = .gpr n)
    (hm : (readX n s).toNat % 4 ≠ 0) (hr : s.platform.misalignedWord = .refuse) (b : Bool) :
    blockForbidden h b s = some .misalignedWordAccess := by
  have hb := (misalignedRefused_word_iff (readX n s) s).mpr ⟨hm, hr⟩
  simp [blockForbidden, hn, readRn, hb]

/-- A transfer of the user bank (rule R197, D18). -/
theorem blockForbidden_userBank {h : BlockHead} {n : Fin 15} {s : State} (hn : h.rn = .gpr n)
    (hm : (readX n s).toNat % 4 = 0 ∨ s.platform.misalignedWord = .rotate) (hr : s.platform.ldmUserBank = .refuse) :
    blockForbidden h true s = some .userBankTransfer := by
  simp [blockForbidden, hn, readRn, misalignedRefused_word_eq_false hm, hr]

/-! ### shift_ge32 = refuse -/

/-- A shift by a register whose low byte is 32 or more (rule R132, D14). -/
theorem shiftByRegister_refused {j : Fin 15} {s : State} (hj : 32 ≤ (readX j s).toNat % 256)
    (hr : s.platform.shiftGe32 = .refuse) (ty : ShiftType) (v : Word) :
    shiftByRegister ty (.gpr j) v s = .error .shiftByThirtyTwoOrMore := by
  have low : ((readX j s).extractLsb' 0 8).toNat = (readX j s).toNat % 256 := BitVec.extractLsb'_toNat ..
  simp [shiftByRegister, low, hj, hr]

/-- The offset shifted by such an amount (log 45). -/
theorem offsetValue_refused {o : ShiftRegOperand} {j : Fin 15} {s : State} (hm : o.rm ≠ .r15) (hs : o.rs = .gpr j)
    (hj : 32 ≤ (readX j s).toNat % 256) (hr : s.platform.shiftGe32 = .refuse) :
    offsetValue (.regShift o) s = .error .shiftByThirtyTwoOrMore := by
  cases hrm : o.rm with
  | gpr i => simp only [offsetValue, hrm, hs, shiftByRegister_refused hj hr]
  | r15 => exact absurd hrm hm

/-- An offset that is refused is refused under its name (rule R171). -/
theorem singleTransfer_refused {op : SdtOp} {h : SdtHead} {o : Offset} {s : State} {why : Refusal}
    (hc : condPassed h.cond s = true) (hz : hazardHit (sdtRegisters h o) s = false)
    (ho : offsetValue o s = .error why) :
    singleTransfer op h o s = .refused why := by
  rw [singleTransfer, conditional_passed hc hz, sdtBody, offsetValue_clearHazard, ho]

/-! ### pc_wrap = refuse, at the last word of memory (rule R28, D6) -/

theorem mayAdvance_top {s : State} (hr : s.platform.pcWrap = .refuse) (hp : s.pc = 0xFFFFFF) :
    mayAdvance s = false := by
  simp [mayAdvance, hr, hp]

theorem conclude_top {s : State} (hm : mayAdvance s = false) : conclude false s = .refused .pcRunsOverTop := by
  simp [conclude, proceed, hm]

theorem dataProcessing_top {op : DpOp} {h : DpHead} {o : Operand2} {b : Shifted} {s : State}
    (hm : mayAdvance s = false) (hc : condPassed h.cond s = true) (hz : hazardHit (dpRegisters op h o) s = false)
    (ho : operand2 o s = .ok b) (ha : dpAssignsPc op h = false) :
    dataProcessing op h o s = .refused .pcRunsOverTop := by
  rw [dataProcessing, conditional_passed hc hz, dpBody, operand2_clearHazard, ho, ha]
  exact conclude_top (by rw [mayAdvance_dpWrite ha, mayAdvance_clearHazard, hm])

theorem singleTransfer_top {op : SdtOp} {h : SdtHead} {o : Offset} {x : Word} {s : State} (hm : mayAdvance s = false)
    (ha : SdtAttempts op h o x s) (hl : (transferAddress h x s).toNat < 0x4000000)
    (hw : misalignedRefused (transferAddress h x s) (sdtSize op) s = false) (hg : sdtAnswer op h x s = .granted)
    (hp : sdtAssignsPc op h = false) : singleTransfer op h o s = .refused .pcRunsOverTop := by
  rw [singleTransfer_attempts ha, (addressIllegal_false_iff _).mpr hl, hw, hg, hp]
  exact conclude_top (by rw [mayAdvance_sdtTransfer hp, mayAdvance_clearHazard, hm])

/-- A granted LDM without R15 ends by going on to the next word. -/
theorem execLdm_top {h : BlockHead} {n : Fin 15} {s : State} (hm : mayAdvance s = false)
    (ha : BlockAttempts h n (loadUsesUserBank h) s) (hl : BlockLegal h (readX n s))
    (hg : BlockGranted h (readX n s) .read s) (hb : h.list.getLsbD 15 = false) :
    execLdm h s = .refused .pcRunsOverTop := by
  have hr : inList h.list .r15 = false := hb
  rw [execLdm_legal ha hl, readBlock_granted]
  · simp only [listedRegs_eq, List.map_map, List.zip_map', hr]
    exact conclude_top ((mayAdvance_ldm h (loadedPc_ldmPairs hb n s) ..).trans hm)
  · intro a hmem
    obtain ⟨i, hi, rfl⟩ := List.mem_map.mp hmem
    obtain ⟨hlt, hbit⟩ := mem_listedBelow.mp hi
    exact hg i hlt hbit

/-- A granted STM ends by going on to the next word. -/
theorem execStm_top {h : BlockHead} {n : Fin 15} {s : State} (hm : mayAdvance s = false)
    (ha : BlockAttempts h n h.s s) (hl : BlockLegal h (readX n s)) (hg : BlockGranted h (readX n s) .write s) :
    execStm h s = .refused .pcRunsOverTop := by
  rw [execStm_legal ha hl, writeBlock_granted]
  · obtain ⟨wpc, -, -, -, ⟨⟨wplatform, -⟩, -⟩, -⟩ := blockWriteBack_frame h n
      (blockFinal h (readX n s) (listCount h.list)) (storeAll (stmPairs h n 16 s) (clearHazard s))
    obtain ⟨-, spc, -, -, ⟨⟨splatform, -⟩, -⟩⟩ := storesOnly_storeAll (stmPairs h n 16 s) (clearHazard s)
    exact conclude_top ((mayAdvance_congr (wpc.trans spc) (wplatform.trans splatform)).trans hm)
  · intro p hp
    obtain ⟨i, hi, rfl⟩ := List.mem_map.mp hp
    obtain ⟨hlt, hbit⟩ := mem_listedBelow.mp hi
    exact hg i hlt hbit

/-- Settles O60, parameter by parameter. -/
theorem parametersSetToRefuse : Obligations.ParametersSetToRefuse := by
  refine ⟨everySdt_of fun i op h o he s x => ⟨?misaligned, ?translated⟩,
    fun h n s hc hz hn => ⟨?misalignedBase, ?userBank⟩, ?dpShift, ?sdtShift,
    fun s hr hp => ⟨fun op h hc hd => ⟨?dpImm, ?dpShiftImm, ?dpShiftReg⟩, everySdt_of ?sdt,
      fun h n hl => ⟨?ldm, ?stm⟩⟩⟩
  case misaligned =>
    intro ha hw hl hm hr
    rw [he s ha.allow, singleTransfer_misaligned ha hw hl hm hr]
  case translated =>
    intro hc hz ho hallow hp hw hr
    rw [he s hallow, singleTransfer_translated hc hz ho hp hw hr]
  case misalignedBase =>
    intro hm hr
    obtain ⟨ldm, stm⟩ := execBlock_forbidden (why := .misalignedWordAccess) hc hz
    exact ⟨ldm (blockForbidden_misaligned hn hm hr _), stm (blockForbidden_misaligned hn hm hr _)⟩
  case userBank =>
    intro hm hr hs
    obtain ⟨ldm, stm⟩ := execBlock_forbidden (why := .userBankTransfer) hc hz
    have hu : blockForbidden h true s = some .userBankTransfer := blockForbidden_userBank hn hm hr
    refine ⟨fun hb => ldm ?_, stm (by rw [hs]; exact hu)⟩
    have hbank : loadUsesUserBank h = true := by
      have hr15 : inList h.list .r15 = false := hb
      simp [loadUsesUserBank, hs, hr15]
    rw [hbank]; exact hu
  case dpShift =>
    intro op h o j s hc hz hs hj hr
    rw [exec_dpShiftRegInstr]
    exact dataProcessing_refused (by rw [operand2, hs, shiftByRegister_refused hj hr]) hc hz
  case sdtShift =>
    intro op h o j s hc hz hallow hm hs hj hr
    rw [exec_regShiftInstr op h o hallow, singleTransfer_refused hc hz (offsetValue_refused hm hs hj hr)]
  case dpImm | dpShiftImm | dpShiftReg =>
    intro o b hz ho
    have ha : dpAssignsPc op h = false := by rcases hd with hd | hd <;> simp [dpAssignsPc, hd]
    simp only [exec_dpImmInstr, exec_dpShiftImmInstr, exec_dpShiftRegInstr]
    exact dataProcessing_top (mayAdvance_top hr hp) hc hz ho ha
  case sdt =>
    intro i op h o he x ha hl hw hg hpc
    rw [he s ha.allow, singleTransfer_top (mayAdvance_top hr hp) ha hl hw hg hpc]
  case ldm => exact fun ha hg hb => execLdm_top (mayAdvance_top hr hp) ha hl hg hb
  case stm => exact fun ha hg => execStm_top (mayAdvance_top hr hp) ha hl hg

end Sys2Proof.Machine

/-! SUPPORT. Bytes and words of memory (rules R52, R67). -/

namespace Sys2Proof.Machine

/-- The bytes of a word made of four bytes are those four, the first the lowest (rule R52, log 1). -/
theorem byteOfWord_wordOfBytes (b0 b1 b2 b3 : Byte) :
    byteOfWord 0 (wordOfBytes b0 b1 b2 b3) = b0 ∧ byteOfWord 1 (wordOfBytes b0 b1 b2 b3) = b1 ∧
      byteOfWord 2 (wordOfBytes b0 b1 b2 b3) = b2 ∧ byteOfWord 3 (wordOfBytes b0 b1 b2 b3) = b3 := by
  simp (disch := decide) only [byteOfWord, wordOfBytes, BitVec.extractLsb'_append_eq_of_le,
    BitVec.extractLsb'_append_eq_of_add_le]
  simp

/-- Four bytes written one after another are the word made of them (rules R52, R53). -/
theorem Memory.writeWord_wordOfBytes (m : Memory) (a : Nat) (b0 b1 b2 b3 : Byte) :
    m.writeWord .little a (wordOfBytes b0 b1 b2 b3) =
      (((m.write a b0).write (a + 1) b1).write (a + 2) b2).write (a + 3) b3 := by
  obtain ⟨h0, h1, h2, h3⟩ := byteOfWord_wordOfBytes b0 b1 b2 b3
  rw [Memory.writeWord, h0, h1, h2, h3]

/-- Each byte of a word that was written is read at its own address (rules R52, R67). -/
theorem Memory.read_writeWord_byte {m : Memory} (hm : m.wf = true) (order : ByteOrder) {a : Nat}
    (ha : a + 3 < 0x4000000) (v : Word) {k : Nat} (hk : k < 4) :
    (m.writeWord order a v).read (a + k) = byteOfWord k v := by
  rw [Memory.read_writeWord hm order ha]
  interval_cases k <;> simp

/-- A byte outside a word that was written is as before (rule R53). -/
theorem Memory.read_writeWord_outside {m : Memory} (hm : m.wf = true) (order : ByteOrder) {a : Nat}
    (ha : a + 3 < 0x4000000) (v : Word) {b : Nat} (hb : b < a ∨ a + 4 ≤ b) :
    (m.writeWord order a v).read b = m.read b := by
  rw [Memory.read_writeWord hm order ha, if_neg (by omega), if_neg (by omega), if_neg (by omega), if_neg (by omega)]

/-- Settles O27: four byte writes are the write of the word made of them, so both halves are about a word that was
written. -/
theorem mixedWidthAccessesAgree : Obligations.MixedWidthAccessesAgree := by
  intro m order w hm
  have ha : 4 * w.toNat + 3 < 0x4000000 := by have := w.isLt; omega
  refine ⟨fun v => ⟨Memory.wf_writeWord hm order ha v, fun k hk => Memory.read_writeWord_byte hm order ha v hk,
    fun a => Memory.read_writeWord_outside hm order ha v⟩, fun b => ?bytes⟩
  case bytes =>
    cases order
    rw [← Memory.writeWord_wordOfBytes]
    refine ⟨Memory.wf_writeWord hm .little ha _, fun k => ?_⟩
    rw [Memory.readWord_writeWord hm .little ha]
    obtain ⟨h0, h1, h2, h3⟩ := byteOfWord_wordOfBytes (b 0) (b 1) (b 2) (b 3)
    exact match k with
      | 0 => h0
      | 1 => h1
      | 2 => h2
      | 3 => h3

end Sys2Proof.Machine

/-! SUPPORT. The traps and the stops of a single transfer (rules R53, R57, R178, R235, R237). -/

namespace Sys2Proof.Machine

section
variable {op : SdtOp} {h : SdtHead} {o : Offset} {x : Word} {s : State}

/-- An attempted transfer at an illegal address takes the address exception (rules R57, R237). -/
theorem singleTransfer_addressException (ha : SdtAttempts op h o x s)
    (hx : 0x4000000 ≤ (transferAddress h x s).toNat) :
    singleTransfer op h o s = .next (failSdt .addressException h x (clearHazard s)) := by
  rw [singleTransfer_attempts ha, (addressIllegal_iff _).mpr hx]
  rfl

/-- At a legal address of allowed alignment the bus decides (rule R53). -/
theorem singleTransfer_answered (ha : SdtAttempts op h o x s) (hl : (transferAddress h x s).toNat < 0x4000000)
    (hm : misalignedRefused (transferAddress h x s) (sdtSize op) s = false) :
    (sdtAnswer op h x s = .dataAbort →
      singleTransfer op h o s = .next (failSdt .dataAbort h x (clearHazard s))) ∧
    (∀ why, sdtAnswer op h x s = .stop why → singleTransfer op h o s = .refused why) := by
  rw [singleTransfer_attempts ha, (addressIllegal_false_iff _).mpr hl, hm]
  exact ⟨fun hd => by rw [hd]; rfl, fun why hs => by rw [hs]; rfl⟩

end

/-- The trap of a failed single transfer: the entry with the address plus 8, memory as before, and the base register
as `abort_side_effects` says (rules R178, R223, D20). -/
theorem failSdt_traps {e : Exception} {v : PcWord} (hm : exceptionMode e = .svc) (hv : exceptionVector e = v)
    (hk : exceptionLink e = 8) (hf : exceptionMasksFiq e = false) (h : SdtHead) (x : Word) (s : State) :
    Entered .svc v 2 false (baseReg h.rn s) s (failSdt e h x (clearHazard s)) ∧
      SameMemory s (failSdt e h x (clearHazard s)) ∧
      ∀ n, h.rn = .gpr n →
        BaseAfterFailure n (if writesBase h then indexedAddress h x s else readX n s) s
          (failSdt e h x (clearHazard s)) := by
  obtain ⟨hopen, hmem⟩ := leftOpen_failedBase h.rn (readRn 8 h.rn (clearHazard s)) (baseIfWritten h x (clearHazard s))
    (clearHazard s)
  refine ⟨entered_takeException hm hv hf (by rw [hk]; exact isR15Word_eight s)
    ((leftOpen_clearHazard s).trans hopen), fun a => ?memory, fun n hn => ?base⟩
  case memory => rw [failSdt, takeException_mem, hmem, clearHazard_mem]
  case base =>
    have hw : baseIfWritten h x (clearHazard s) = if writesBase h then indexedAddress h x s else readX n s := by
      rw [baseIfWritten, indexedAddress_clearHazard, readRn_clearHazard, hn]; rfl
    rw [failSdt, hw, readRn_clearHazard, hn]
    exact baseAfterFailure_takeException hm n _ rfl rfl

/-- Settles O33: either cause answers `failSdt`, whose trap is that of its exception. -/
theorem singleTransferTraps : Obligations.SingleTransferTraps := by
  refine everySdt_of fun i op h o he s x ha => ⟨fun hx => ?addressException, fun hl hm hd => ?dataAbort⟩
  case addressException =>
    exact ⟨_, (he s ha.allow).trans (singleTransfer_addressException ha hx), failSdt_traps rfl rfl rfl rfl h x s⟩
  case dataAbort =>
    obtain ⟨abort, -⟩ := singleTransfer_answered ha hl hm
    exact ⟨_, (he s ha.allow).trans (abort hd), failSdt_traps rfl rfl rfl rfl h x s⟩

end Sys2Proof.Machine

/-! SUPPORT. A step whose fetch was refused (rules R55, R100, R236). -/

namespace Sys2Proof.Machine

/-- Away from the halt address and with no entry forced, a step is the instruction at the PC (rule R100). -/
theorem step_runs {s : State} (hh : s.haltAddress ≠ some (pcAddr s)) (hp : pendingEntry s = none) :
    step s = endStep (runFetched s) := by
  rw [step, if_neg hh, hp]

/-- A fetch the memory manager refuses, at an address the memory map admits (rule R55, log 38). -/
theorem runFetched_aborted {s : State} (hc : cellStop (pcAddr s) .word .fetch s = none)
    (ha : abortOracle (pcAddr s) .word .fetch false s = true) :
    runFetched s = runAborted (s.mem.readWord s.platform.byteOrder (4 * s.pc.toNat)) s := by
  have hf : fetch s = .aborted (loadWord (pcAddr s) s) := by rw [fetch, hc, ha]
  rw [runFetched, hf, loadWord_pcAddr]

/-- Whether a step's inputs are dropped before or after an entry is the same. -/
theorem dropInput_takeException (e : Exception) (s : State) :
    dropInput (takeException e s) = takeException e (dropInput s) := by
  cases e <;> rfl

/-- The entry of a refused fetch, the address plus 4 in its saved word (rules R223, R236). -/
theorem entered_prefetchAbort (s : State) :
    Entered .svc 3 1 false [] (dropInput s) (dropInput (takeException .prefetchAbort (clearHazard s))) := by
  rw [dropInput_takeException]
  exact entered_takeException rfl rfl rfl (isR15Word_four (dropInput s)) (leftOpen_clearHazard (dropInput s))

/-- Settles O48: the word's own condition decides between the entry and going on. -/
theorem prefetchAbortEntry : Obligations.PrefetchAbortEntry := by
  intro s hh hp hc ha c hm
  rw [step_runs hh hp, runFetched_aborted hc ha, runAborted]
  cases hpass : condPassed c s with
  | true =>
    refine ⟨_, congrArg endStep (conditional_passed hpass (hazardHit_nil s) _), ?_⟩
    rw [if_pos rfl]
    exact ⟨entered_prefetchAbort s, fun a => by simp⟩
  | false =>
    refine ⟨_, congrArg endStep (conditional_skips hpass (hm hpass) _ _), ?_⟩
    rw [if_neg (by decide)]
    exact ⟨⟨rfl, rfl⟩, fun p => by simp, ⟨⟨rfl, rfl, rfl, rfl⟩, rfl, rfl, rfl⟩, fun _ => rfl, ⟨rfl, rfl, rfl⟩, rfl⟩

end Sys2Proof.Machine

/-! SUPPORT. What the bus answers to an access that is not aborted, and the block transfer it stops (rules R53, R66,
D3, D22). -/

namespace Sys2Proof.Machine

/-- The memory map's refusals, by the bytes of the access (rules R53, D3; log 4). -/
theorem cellStop_eq (a : Addr) (n : AccessSize) (k : AccessKind) (s : State) :
    cellStop a n k s =
      if ∃ b ∈ accessBytes a.toNat n, cellKind s.platform.memMap b = .absent then some .unpopulatedAddress
      else if ∃ b ∈ accessBytes a.toNat n, cellKind s.platform.memMap b = .device then some .deviceAccess
      else if k = .write ∧ ∃ b ∈ accessBytes a.toNat n, cellKind s.platform.memMap b = .rom then some .writeToRom
      else none := by
  simp only [cellStop, List.mem_map]

/-- The prefetched words are those one and two after the PC's (rules R66, D22). -/
theorem storesIntoPrefetched_iff (a : Addr) (k : AccessKind) (s : State) :
    storesIntoPrefetched a k s = true ↔
      k = .write ∧ (a.toNat / 4 = (s.pc + 1).toNat ∨ a.toNat / 4 = (s.pc + 2).toNat) := by
  have word (w : PcWord) : a.extractLsb' 2 24 = w ↔ a.toNat / 4 = w.toNat := by
    have := a.isLt
    rw [← BitVec.toNat_inj, BitVec.extractLsb'_toNat, Nat.shiftRight_eq_div_pow, Nat.mod_eq_of_lt (by omega)]
  simp [storesIntoPrefetched, word]

/-- An access that is not aborted: the memory map, then the prefetched words (log 4, log 22). -/
theorem checkBus_of_not_aborted {a : Addr} {n : AccessSize} {k : AccessKind} {tr : Bool} {s : State}
    (ha : abortOracle a n k tr s = false) :
    checkBus a n k tr s =
      if ∃ b ∈ accessBytes a.toNat n, cellKind s.platform.memMap b = .absent then .stop .unpopulatedAddress
      else if ∃ b ∈ accessBytes a.toNat n, cellKind s.platform.memMap b = .device then .stop .deviceAccess
      else if k = .write ∧ ∃ b ∈ accessBytes a.toNat n, cellKind s.platform.memMap b = .rom then .stop .writeToRom
      else if k = .write ∧ (a.toNat / 4 = (s.pc + 1).toNat ∨ a.toNat / 4 = (s.pc + 2).toNat) then
        .stop .storeIntoPrefetched
      else .granted := by
  rw [checkBus, ha, cellStop_eq, if_neg Bool.false_ne_true]
  by_cases absent : ∃ b ∈ accessBytes a.toNat n, cellKind s.platform.memMap b = .absent
  · simp only [if_pos absent]
  by_cases device : ∃ b ∈ accessBytes a.toNat n, cellKind s.platform.memMap b = .device
  · simp only [if_neg absent, if_pos device]
  by_cases rom : k = .write ∧ ∃ b ∈ accessBytes a.toNat n, cellKind s.platform.memMap b = .rom
  · simp only [if_neg absent, if_neg device, if_pos rom]
  · simp only [if_neg absent, if_neg device, if_neg rom, storesIntoPrefetched_iff]

section
variable {h : BlockHead} {n : Fin 15} {s : State} {i : Nat} {why : Refusal}

/-- An LDM whose first access that is not granted is stopped (rule R193). -/
theorem execLdm_stopped (ha : BlockAttempts h n (loadUsesUserBank h) s) (hl : BlockLegal h (readX n s)) (hi : i < 16)
    (hb : h.list.getLsbD i = true)
    (hs : checkBus (busAddress (blockAddressOf h (readX n s) i) .word) .word .read false s = .stop why)
    (hg : ∀ j < i, h.list.getLsbD j = true →
      checkBus (busAddress (blockAddressOf h (readX n s) j) .word) .word .read false s = .granted) :
    execLdm h s = .refused why := by
  obtain ⟨post, split⟩ := listedBelow_split hi hb
  rw [execLdm_legal ha hl, split, List.map_append, List.map_cons, readBlock_stop (fun a hmem => ?_) hs]
  obtain ⟨j, hj, rfl⟩ := List.mem_map.mp hmem
  obtain ⟨hlt, hbit⟩ := mem_listedBelow.mp hj
  exact hg j hlt hbit

/-- An STM whose first access that is not granted is stopped: the words stored before it are lost with the state (rule
R194). -/
theorem execStm_stopped (ha : BlockAttempts h n h.s s) (hl : BlockLegal h (readX n s)) (hi : i < 16)
    (hb : h.list.getLsbD i = true)
    (hs : checkBus (busAddress (blockAddressOf h (readX n s) i) .word) .word .write false s = .stop why)
    (hg : ∀ j < i, h.list.getLsbD j = true →
      checkBus (busAddress (blockAddressOf h (readX n s) j) .word) .word .write false s = .granted) :
    execStm h s = .refused why := by
  obtain ⟨post, split⟩ := listedBelow_split hi hb
  rw [execStm_legal ha hl, stmPairs, split, List.map_append, List.map_cons, writeBlock_stop (why := why)]
  · intro p hmem
    obtain ⟨j, hj, rfl⟩ := List.mem_map.mp hmem
    obtain ⟨hlt, hbit⟩ := mem_listedBelow.mp hj
    rw [checkBus_clearHazard]
    exact hg j hlt hbit
  · rw [checkBus_clearHazard]
    exact hs

end

/-- Settles O59: the bus stops the access, and the instruction passes its refusal on. -/
theorem stoppedAccessesAreRefused : Obligations.StoppedAccessesAreRefused := by
  refine ⟨fun a n k tr s ha => checkBus_of_not_aborted ha, everySdt_of fun i op h o he s x why ha hl hm hs => ?single,
    fun h n i s why => ⟨?ldm, ?stm⟩⟩
  case single =>
    obtain ⟨-, stop⟩ := singleTransfer_answered ha hl hm
    exact (he s ha.allow).trans (stop why hs)
  case ldm => exact execLdm_stopped
  case stm => exact execStm_stopped

end Sys2Proof.Machine

/-! SUPPORT. The decoder and the encoder are inverse (rules R80 to R94): each class of instruction keeps every bit of
its word in a field or fixes it, so the fields of a decoded word join to the word, and those of an encoded word are the
instruction's. -/

namespace Sys2Proof

/-! ### Fields of a word -/

/-- Two neighbouring fields of a word joined are one field. -/
theorem extractLsb'_append_extractLsb' {n m hi lo : Nat} (h : hi = lo + m) (w : Word) :
    w.extractLsb' hi n ++ w.extractLsb' lo m = w.extractLsb' lo (n + m) := by
  subst h; exact append_extractLsb' 32 w lo

/-- A field of one bit. -/
theorem extractLsb'_of_wordBit {i : Nat} {w : Word} {b : Bool} (h : wordBit i w = b) :
    w.extractLsb' i 1 = BitVec.ofBool b := by
  rw [← ofBool_wordBit, h]

/-- Bits 27:26, by the first two bits the class decode tests (rule R82). -/
theorem extractLsb'_26_2 {w : Word} {b27 b26 : Bool} (h27 : wordBit 27 w = b27) (h26 : wordBit 26 w = b26) :
    w.extractLsb' 26 2 = BitVec.ofBool b27 ++ BitVec.ofBool b26 := by
  rw [← extractLsb'_of_wordBit h27, ← extractLsb'_of_wordBit h26]
  exact (append_extractLsb' (n := 1) (m := 1) 32 w 26).symm

/-- Bits 27:25, by the three bits the class decode tests (rule R82). -/
theorem extractLsb'_25_3 {w : Word} {b27 b26 b25 : Bool} (h27 : wordBit 27 w = b27) (h26 : wordBit 26 w = b26)
    (h25 : wordBit 25 w = b25) :
    w.extractLsb' 25 3 = BitVec.ofBool b27 ++ BitVec.ofBool b26 ++ BitVec.ofBool b25 := by
  rw [← extractLsb'_26_2 h27 h26, ← extractLsb'_of_wordBit h25]
  exact (append_extractLsb' (n := 2) (m := 1) 32 w 25).symm

/-- Bits 27:24: the class, with the bit that tells B from BL and SWI from an undefined word (rules R83, R89). -/
theorem extractLsb'_24_4 {w : Word} {c : BitVec 3} {b24 : Bool} (hc : w.extractLsb' 25 3 = c)
    (h24 : wordBit 24 w = b24) : w.extractLsb' 24 4 = c ++ BitVec.ofBool b24 := by
  rw [← hc, ← extractLsb'_of_wordBit h24]
  exact (append_extractLsb' (n := 3) (m := 1) 32 w 24).symm

/-! ### Operands -/

/-- Bits 11:0 as an immediate operand (rule R86). -/
theorem immOperandBits_ofWord (w : Word) : immOperandBits (immOperandOfWord w) = w.extractLsb' 0 12 :=
  append_extractLsb' (n := 4) (m := 8) 32 w 0

/-- Bits 11:0 with bit 4 clear as a register shifted by a constant (rule R85). -/
theorem shiftImmBits_ofWord {w : Word} (h4 : wordBit 4 w = false) :
    shiftImmBits (shiftImmOfWord w) = w.extractLsb' 0 12 := by
  have b4 : (0#1 : BitVec 1) = w.extractLsb' 4 1 := (extractLsb'_of_wordBit h4).symm
  simp only [shiftImmBits, shiftImmOfWord, shiftTypeBits_shiftTypeOfBits, regBits_regOfBits, b4]
  simp (disch := rfl) only [extractLsb'_append_extractLsb']

/-- Bits 11:0 with bit 4 set and bit 7 clear as a register shifted by a register (rule R85). -/
theorem shiftRegBits_ofWord {w : Word} (h4 : wordBit 4 w = true) (h7 : wordBit 7 w = false) :
    shiftRegBits (shiftRegOfWord w) = w.extractLsb' 0 12 := by
  have b4 : (1#1 : BitVec 1) = w.extractLsb' 4 1 := (extractLsb'_of_wordBit h4).symm
  have b7 : (0#1 : BitVec 1) = w.extractLsb' 7 1 := (extractLsb'_of_wordBit h7).symm
  simp only [shiftRegBits, shiftRegOfWord, shiftTypeBits_shiftTypeOfBits, regBits_regOfBits, b4, b7]
  simp (disch := rfl) only [extractLsb'_append_extractLsb']

/-! ### Whole words -/

/-- A data-processing word is its fields joined (rule R84). -/
theorem encodeDp_ofWord {w : Word} {i : BitVec 1} (hc : w.extractLsb' 26 2 = 0#2) (hi : w.extractLsb' 25 1 = i) :
    encodeDp i (dpOpOfBits (w.extractLsb' 21 4)) (dpHeadOfWord w) (w.extractLsb' 0 12) = w := by
  simp only [encodeDp, dpHeadOfWord, condBits_condOfBits, dpOpBits_dpOpOfBits, regBits_regOfBits, ofBool_wordBit,
    ← hc, ← hi]
  simp (disch := rfl) only [extractLsb'_append_extractLsb']
  exact BitVec.extractLsb'_eq_self

/-- A single data transfer word is its fields joined (rule R87). -/
theorem encodeSdt_ofWord {w : Word} {i b l : BitVec 1} (hc : w.extractLsb' 26 2 = 1#2) (hi : w.extractLsb' 25 1 = i)
    (hb : w.extractLsb' 22 1 = b) (hl : w.extractLsb' 20 1 = l) :
    encodeSdt i b l (sdtHeadOfWord w) (w.extractLsb' 0 12) = w := by
  simp only [encodeSdt, sdtHeadOfWord, condBits_condOfBits, regBits_regOfBits, ofBool_wordBit, ← hc, ← hi, ← hb, ← hl]
  simp (disch := rfl) only [extractLsb'_append_extractLsb']
  exact BitVec.extractLsb'_eq_self

/-- A block data transfer word is its fields joined (rule R88). -/
theorem encodeBlock_ofWord {w : Word} {l : BitVec 1} (hc : w.extractLsb' 25 3 = 4#3) (hl : w.extractLsb' 20 1 = l) :
    encodeBlock l (blockHeadOfWord w) = w := by
  simp only [encodeBlock, blockHeadOfWord, condBits_condOfBits, regBits_regOfBits, ofBool_wordBit, ← hc, ← hl]
  simp (disch := rfl) only [extractLsb'_append_extractLsb']
  exact BitVec.extractLsb'_eq_self

/-- A reserved data-processing word is its fields joined (rule R91). -/
theorem encode_reservedDp_ofWord {w : Word} (hc : w.extractLsb' 25 3 = 0#3) (h4 : wordBit 4 w = true)
    (h7 : wordBit 7 w = true) :
    encode (.reservedDp (condOfBits (w.extractLsb' 28 4)) (w.extractLsb' 8 17) (w.extractLsb' 5 2)
      (w.extractLsb' 0 4)) = w := by
  have b4 : w.extractLsb' 4 1 = 1#1 := extractLsb'_of_wordBit h4
  have b7 : w.extractLsb' 7 1 = 1#1 := extractLsb'_of_wordBit h7
  have joined : w.extractLsb' 28 4 ++ w.extractLsb' 25 3 ++ w.extractLsb' 8 17 ++ w.extractLsb' 7 1 ++
      w.extractLsb' 5 2 ++ w.extractLsb' 4 1 ++ w.extractLsb' 0 4 = w := by
    simp (disch := rfl) only [extractLsb'_append_extractLsb']
    exact BitVec.extractLsb'_eq_self
  rw [hc, b7, b4] at joined
  simpa only [encode, condBits_condOfBits] using joined

/-- A reserved single data transfer word is its fields joined (rule R91). -/
theorem encode_reservedSdt_ofWord {w : Word} (hc : w.extractLsb' 25 3 = 3#3) (h4 : wordBit 4 w = true) :
    encode (.reservedSdt (condOfBits (w.extractLsb' 28 4)) (w.extractLsb' 5 20) (w.extractLsb' 0 4)) = w := by
  have b4 : (1#1 : BitVec 1) = w.extractLsb' 4 1 := (extractLsb'_of_wordBit h4).symm
  simp only [encode, condBits_condOfBits, ← hc, b4]
  simp (disch := rfl) only [extractLsb'_append_extractLsb']
  exact BitVec.extractLsb'_eq_self

/-- A block data transfer word with an empty list is its fields joined (rules R91, R201). -/
theorem encode_reservedBlock_ofWord {w : Word} (hc : w.extractLsb' 25 3 = 4#3) (he : w.extractLsb' 0 16 = 0#16) :
    encode (.reservedBlock (condOfBits (w.extractLsb' 28 4)) (w.extractLsb' 16 9)) = w := by
  simp only [encode, condBits_condOfBits, ← hc, ← he]
  simp (disch := rfl) only [extractLsb'_append_extractLsb']
  exact BitVec.extractLsb'_eq_self

/-- A word that is its condition, four fixed bits and 24 more: branches, SWI, undefined words (rules R83, R89, R90). -/
theorem condBits_append_ofWord {w : Word} {p : BitVec 4} (hp : w.extractLsb' 24 4 = p) :
    condBits (condOfBits (w.extractLsb' 28 4)) ++ p ++ w.extractLsb' 0 24 = w := by
  rw [condBits_condOfBits, ← hp]
  simp (disch := rfl) only [extractLsb'_append_extractLsb']
  exact BitVec.extractLsb'_eq_self

/-- An undefined word with bits 27:25 = 110 is its fields joined (rule R90). -/
theorem encode_undefined110_ofWord {w : Word} (hc : w.extractLsb' 25 3 = 6#3) :
    encode (.undefined110 (condOfBits (w.extractLsb' 28 4)) (w.extractLsb' 0 25)) = w := by
  simp only [encode, condBits_condOfBits, ← hc]
  simp (disch := rfl) only [extractLsb'_append_extractLsb']
  exact BitVec.extractLsb'_eq_self

/-! ### Class by class -/

section
variable {w : Word}

theorem encode_decodeDpRegister (h27 : wordBit 27 w = false) (h26 : wordBit 26 w = false) (h25 : wordBit 25 w = false) :
    encode (decodeDpRegister w) = w := by
  have class26 : w.extractLsb' 26 2 = 0#2 := extractLsb'_26_2 h27 h26
  have bit25 : w.extractLsb' 25 1 = 0#1 := extractLsb'_of_wordBit h25
  unfold decodeDpRegister
  dsimp only
  split
  next h4 => rw [encode_dpShiftImmInstr, shiftImmBits_ofWord h4]; exact encodeDp_ofWord class26 bit25
  next h4 h7 => rw [encode_dpShiftRegInstr, shiftRegBits_ofWord h4 h7]; exact encodeDp_ofWord class26 bit25
  next h4 h7 => exact encode_reservedDp_ofWord (extractLsb'_25_3 h27 h26 h25) h4 h7

theorem encode_decodeSdtImmediate (h27 : wordBit 27 w = false) (h26 : wordBit 26 w = true)
    (h25 : wordBit 25 w = false) : encode (decodeSdtImmediate w) = w := by
  unfold decodeSdtImmediate
  dsimp only
  split
  all_goals
    next h20 h22 =>
      exact encodeSdt_ofWord (extractLsb'_26_2 h27 h26) (extractLsb'_of_wordBit h25) (extractLsb'_of_wordBit h22)
        (extractLsb'_of_wordBit h20)

theorem encode_decodeSdtRegister (h27 : wordBit 27 w = false) (h26 : wordBit 26 w = true) (h25 : wordBit 25 w = true) :
    encode (decodeSdtRegister w) = w := by
  unfold decodeSdtRegister
  dsimp only
  split
  case h_1 h4 => exact encode_reservedSdt_ofWord (extractLsb'_25_3 h27 h26 h25) h4
  all_goals
    next h4 h20 h22 =>
      simp only [encode, shiftImmBits_ofWord h4]
      exact encodeSdt_ofWord (extractLsb'_26_2 h27 h26) (extractLsb'_of_wordBit h25) (extractLsb'_of_wordBit h22)
        (extractLsb'_of_wordBit h20)

theorem encode_decodeBlock (h27 : wordBit 27 w = true) (h26 : wordBit 26 w = false) (h25 : wordBit 25 w = false) :
    encode (decodeBlock w) = w := by
  have class25 : w.extractLsb' 25 3 = 4#3 := extractLsb'_25_3 h27 h26 h25
  unfold decodeBlock
  dsimp only
  split
  next empty =>
    have list : w.extractLsb' 0 16 = 0#16 := not_not.mp (of_decide_eq_false empty)
    exact encode_reservedBlock_ofWord class25 list
  next _ h20 => exact encodeBlock_ofWord class25 (extractLsb'_of_wordBit h20)
  next _ h20 => exact encodeBlock_ofWord class25 (extractLsb'_of_wordBit h20)

theorem encode_decodeBranch (h27 : wordBit 27 w = true) (h26 : wordBit 26 w = false) (h25 : wordBit 25 w = true) :
    encode (decodeBranch w) = w := by
  unfold decodeBranch
  split
  all_goals
    next h24 => exact condBits_append_ofWord (extractLsb'_24_4 (extractLsb'_25_3 h27 h26 h25) h24)

theorem encode_decodeSupervisor (h27 : wordBit 27 w = true) (h26 : wordBit 26 w = true) (h25 : wordBit 25 w = true) :
    encode (decodeSupervisor w) = w := by
  unfold decodeSupervisor
  split
  all_goals
    next h24 => exact condBits_append_ofWord (extractLsb'_24_4 (extractLsb'_25_3 h27 h26 h25) h24)

end

/-- The encoding of a decoded word is the word (rules R80, R82, R94). -/
theorem encode_decode (w : Word) : encode (decode w) = w := by
  unfold decode
  split
  next h27 h26 h25 => exact encode_decodeDpRegister h27 h26 h25
  next h27 h26 h25 =>
    rw [encode_dpImmInstr, immOperandBits_ofWord]
    exact encodeDp_ofWord (extractLsb'_26_2 h27 h26) (extractLsb'_of_wordBit h25)
  next h27 h26 h25 => exact encode_decodeSdtImmediate h27 h26 h25
  next h27 h26 h25 => exact encode_decodeSdtRegister h27 h26 h25
  next h27 h26 h25 => exact encode_decodeBlock h27 h26 h25
  next h27 h26 h25 => exact encode_decodeBranch h27 h26 h25
  next h27 h26 h25 => exact encode_undefined110_ofWord (extractLsb'_25_3 h27 h26 h25)
  next h27 h26 h25 => exact encode_decodeSupervisor h27 h26 h25

/-! ### Encoded instructions -/

/-- Data processing decodes from its fields, I set (rules R82, R84, R86, R94). -/
theorem decode_encodeDp_imm (op : DpOp) (h : DpHead) (o : ImmOperand) :
    decode (encodeDp 1 op h (immOperandBits o)) = dpImmInstr op h o := by
  obtain ⟨h27, h26, h25, hop, hhead, -, hfield⟩ := encodeDp_fields 1 op h (immOperandBits o)
  obtain ⟨hrot, himm⟩ := immOperandBits_fields o
  have ho : immOperandOfWord (encodeDp 1 op h (immOperandBits o)) = o := by
    rw [immOperandOfWord, hfield 8 4 (by decide), hfield 0 8 (by decide), hrot, himm]
  replace h25 : wordBit 25 (encodeDp 1 op h (immOperandBits o)) = true := h25
  simp only [decode, h27, h26, h25, hop, hhead, ho, dpOpOfBits_dpOpBits]

/-- Data processing decodes from its fields, I and bit 4 clear (rules R82, R84, R85, R94). -/
theorem decode_encodeDp_shiftImm (op : DpOp) (h : DpHead) (o : ShiftImmOperand) :
    decode (encodeDp 0 op h (shiftImmBits o)) = dpShiftImmInstr op h o := by
  obtain ⟨h27, h26, h25, hop, hhead, hbit, hfield⟩ := encodeDp_fields 0 op h (shiftImmBits o)
  obtain ⟨h4, -⟩ := shiftImmBits_fields o
  replace h25 : wordBit 25 (encodeDp 0 op h (shiftImmBits o)) = false := h25
  simp only [decode, decodeDpRegister, h27, h26, h25, hop, hhead, hbit 4 (by decide), h4, shiftImmOfWord_eq hfield,
    dpOpOfBits_dpOpBits]

/-- Data processing decodes from its fields, I and bit 7 clear, bit 4 set (rules R82, R84, R85, R94). -/
theorem decode_encodeDp_shiftReg (op : DpOp) (h : DpHead) (o : ShiftRegOperand) :
    decode (encodeDp 0 op h (shiftRegBits o)) = dpShiftRegInstr op h o := by
  obtain ⟨h27, h26, h25, hop, hhead, hbit, hfield⟩ := encodeDp_fields 0 op h (shiftRegBits o)
  obtain ⟨h4, h7, hrs, hty, hrm⟩ := shiftRegBits_fields o
  replace h25 : wordBit 25 (encodeDp 0 op h (shiftRegBits o)) = false := h25
  have ho : shiftRegOfWord (encodeDp 0 op h (shiftRegBits o)) = o := by
    simp only [shiftRegOfWord, hfield 8 4 (by decide), hfield 5 2 (by decide), hfield 0 4 (by decide), hrs, hty, hrm,
      regOfBits_regBits, shiftTypeOfBits_shiftTypeBits]
  simp only [decode, decodeDpRegister, h27, h26, h25, hop, hhead, hbit 4 (by decide), hbit 7 (by decide), h4, h7, ho,
    dpOpOfBits_dpOpBits]

/-- A single transfer with an immediate offset decodes from its fields, L and B among them (rules R82, R87, R94). -/
theorem decode_encodeSdt_imm (h : SdtHead) (v : BitVec 12) :
    decode (encodeSdt 0 0 1 h v) = .ldrImm h v ∧ decode (encodeSdt 0 1 1 h v) = .ldrbImm h v ∧
      decode (encodeSdt 0 0 0 h v) = .strImm h v ∧ decode (encodeSdt 0 1 0 h v) = .strbImm h v := by
  have fields (i b l : BitVec 1) := encodeSdt_fields i b l h v
  refine ⟨?_, ?_, ?_, ?_⟩ <;> simp [decode, decodeSdtImmediate, fields]

/-- A single transfer with a register offset decodes from its fields, bit 4 being clear (rules R82, R87, R94). -/
theorem decode_encodeSdt_reg (h : SdtHead) (o : ShiftImmOperand) :
    decode (encodeSdt 1 0 1 h (shiftImmBits o)) = .ldrReg h o ∧
      decode (encodeSdt 1 1 1 h (shiftImmBits o)) = .ldrbReg h o ∧
      decode (encodeSdt 1 0 0 h (shiftImmBits o)) = .strReg h o ∧
      decode (encodeSdt 1 1 0 h (shiftImmBits o)) = .strbReg h o := by
  have fields (i b l : BitVec 1) := encodeSdt_fields i b l h (shiftImmBits o)
  have offset (i b l : BitVec 1) : shiftImmOfWord (encodeSdt i b l h (shiftImmBits o)) = o := by
    obtain ⟨-, -, -, -, -, -, -, hfield⟩ := fields i b l
    exact shiftImmOfWord_eq hfield
  have bit4 : (shiftImmBits o)[4] = false := (shiftImmBits_fields o).1
  refine ⟨?_, ?_, ?_, ?_⟩ <;> simp [decode, decodeSdtRegister, fields, offset, bit4]

/-- A block transfer with a non-empty list decodes from its fields (rules R82, R88, R94). -/
theorem decode_encodeBlock {h : BlockHead} (hw : h.wellFormed = true) :
    decode (encodeBlock 1 h) = .ldm h ∧ decode (encodeBlock 0 h) = .stm h := by
  have fields (l : BitVec 1) := encodeBlock_fields l h
  constructor <;> simp [decode, decodeBlock, fields, hw]

/-- The fields of a word of a condition, four fixed bits and 24 more (rules R83, R89, R90). -/
theorem condBits_append_fields (c : Cond) (p : BitVec 4) (x : BitVec 24) :
    let w : Word := condBits c ++ p ++ x
    w.extractLsb' 28 4 = condBits c ∧ w.extractLsb' 0 24 = x ∧ wordBit 27 w = p.getLsbD 3 ∧
      wordBit 26 w = p.getLsbD 2 ∧ wordBit 25 w = p.getLsbD 1 ∧ wordBit 24 w = p.getLsbD 0 := by
  intro w
  refine ⟨?_, ?_, ?_, ?_, ?_, ?_⟩
  case refine_1 => simp (disch := decide) only [w, BitVec.extractLsb'_append_eq_of_le]; simp
  case refine_2 => simp (disch := decide) only [w, BitVec.extractLsb'_append_eq_of_add_le]; simp
  all_goals simp (disch := decide) only [w, wordBit, getLsbD_append_of_le, getLsbD_append_of_lt]

/-- Branches, SWI and the undefined words with bits 27:24 = 1110 decode from their fields (rules R83, R89, R90). -/
theorem decode_condBits_append (c : Cond) (x : BitVec 24) :
    decode (condBits c ++ 10#4 ++ x) = .b c x ∧ decode (condBits c ++ 11#4 ++ x) = .bl c x ∧
      decode (condBits c ++ 15#4 ++ x) = .swi c x ∧ decode (condBits c ++ 14#4 ++ x) = .undefined1110 c x := by
  have fields (p : BitVec 4) := condBits_append_fields c p x
  refine ⟨?_, ?_, ?_, ?_⟩ <;> simp [decode, decodeBranch, decodeSupervisor, fields]

/-- The other undefined words decode from their fields (rule R90). -/
theorem decode_encode_undefined110 (c : Cond) (r : BitVec 25) :
    decode (encode (.undefined110 c r)) = .undefined110 c r := by
  simp (disch := decide) only [encode, decode, wordBit, getLsbD_append_of_le, getLsbD_append_of_lt,
    BitVec.extractLsb'_append_eq_of_le, BitVec.extractLsb'_append_eq_of_add_le]
  simp

/-- Reserved words decode from their fields, bits 7 and 4 set (rule R91). -/
theorem decode_encode_reservedDp (c : Cond) (high : BitVec 17) (mid : BitVec 2) (low : BitVec 4) :
    decode (encode (.reservedDp c high mid low)) = .reservedDp c high mid low := by
  simp (disch := decide) only [encode, decode, decodeDpRegister, wordBit, getLsbD_append_of_le, getLsbD_append_of_lt,
    BitVec.extractLsb'_append_eq_of_le, BitVec.extractLsb'_append_eq_of_add_le]
  simp

/-- Reserved words decode from their fields, bit 4 set (rule R91). -/
theorem decode_encode_reservedSdt (c : Cond) (high : BitVec 20) (low : BitVec 4) :
    decode (encode (.reservedSdt c high low)) = .reservedSdt c high low := by
  simp (disch := decide) only [encode, decode, decodeSdtRegister, wordBit, getLsbD_append_of_le,
    getLsbD_append_of_lt, BitVec.extractLsb'_append_eq_of_le, BitVec.extractLsb'_append_eq_of_add_le]
  simp

/-- Reserved words decode from their fields, the register list empty (rules R91, R201). -/
theorem decode_encode_reservedBlock (c : Cond) (high : BitVec 9) :
    decode (encode (.reservedBlock c high)) = .reservedBlock c high := by
  simp (disch := decide) only [encode, decode, decodeBlock, blockHeadOfWord, wordBit, getLsbD_append_of_le,
    getLsbD_append_of_lt, BitVec.extractLsb'_append_eq_of_le, BitVec.extractLsb'_append_eq_of_add_le]
  simp [BlockHead.wellFormed]

/-- The instruction of the word of a well-formed instruction is that instruction (rules R80, R82, R94). -/
theorem decode_encode {i : Instr} (hw : i.wellFormed = true) : decode (encode i) = i := by
  cases i with
  | b | bl | swi | undefined1110 => simp only [encode, decode_condBits_append]
  | undefined110 => exact decode_encode_undefined110 ..
  | reservedDp => exact decode_encode_reservedDp ..
  | reservedSdt => exact decode_encode_reservedSdt ..
  | reservedBlock => exact decode_encode_reservedBlock ..
  | ldrImm | ldrbImm | strImm | strbImm => simp only [encode, decode_encodeSdt_imm]
  | ldrReg | ldrbReg | strReg | strbReg => simp only [encode, decode_encodeSdt_reg]
  | ldm | stm => simp only [encode, decode_encodeBlock hw]
  | adcImm | addImm | andImm | bicImm | cmnImm | cmpImm | eorImm | movImm | mvnImm | orrImm | rsbImm | rscImm | sbcImm
  | subImm | teqImm | tstImm => exact decode_encodeDp_imm ..
  | adcShiftImm | addShiftImm | andShiftImm | bicShiftImm | cmnShiftImm | cmpShiftImm | eorShiftImm | movShiftImm
  | mvnShiftImm | orrShiftImm | rsbShiftImm | rscShiftImm | sbcShiftImm | subShiftImm | teqShiftImm | tstShiftImm =>
    exact decode_encodeDp_shiftImm ..
  | adcShiftReg | addShiftReg | andShiftReg | bicShiftReg | cmnShiftReg | cmpShiftReg | eorShiftReg | movShiftReg
  | mvnShiftReg | orrShiftReg | rsbShiftReg | rscShiftReg | sbcShiftReg | subShiftReg | teqShiftReg | tstShiftReg =>
    exact decode_encodeDp_shiftReg ..

/-- Settles O57, by the class of the instruction in one direction and of the word in the other. -/
theorem decodeAndEncodeAgree : Obligations.DecodeAndEncodeAgree :=
  ⟨fun _ => decode_encode, fun w => ⟨wellFormed_decode w, encode_decode w⟩⟩

end Sys2Proof

/-! SUPPORT. A word whose condition fails, whatever its other bits (rules R28, R81, R92). -/

namespace Sys2Proof.Machine

/-- Settles O21: every instruction carries the condition of its word, and tests it first. -/
theorem failedConditionOnlyAdvances : Obligations.FailedConditionOnlyAdvances := by
  refine ⟨fun w s hc => ?failed, fun w s never => by rw [never]; rfl⟩
  case failed =>
    have hd : condPassed (decode w).cond s = false := by rw [cond_decode, hc]
    refine ⟨fun hm => ⟨_, exec_skips hd (mayAdvance_of hm), ?frame⟩, fun hr hp => ?top⟩
    case frame =>
      exact ⟨fun p => by simp, ⟨⟨rfl, rfl, rfl, rfl⟩, rfl, rfl, rfl⟩, fun _ => rfl, ⟨⟨rfl, rfl, rfl⟩, rfl⟩, rfl, rfl⟩
    case top =>
      rw [exec_failed hd]
      exact conclude_top ((mayAdvance_clearHazard s).trans (mayAdvance_top hr hp))

end Sys2Proof.Machine

/-! SUPPORT. The three reserved patterns: what they decode to, and how they are refused (rules R91, R201, D12, D16,
D19). -/

namespace Sys2Proof

/-- The three bits the class decode tests, by bits 27:25 (rule R82). -/
theorem wordBit_class {w : Word} {c : BitVec 3} (h : w.extractLsb' 25 3 = c) :
    wordBit 27 w = c.getLsbD 2 ∧ wordBit 26 w = c.getLsbD 1 ∧ wordBit 25 w = c.getLsbD 0 := by
  subst h; simp [wordBit]

section
variable {w : Word}

theorem decode_eq_reservedDp (hc : w.extractLsb' 25 3 = 0) (h7 : wordBit 7 w = true) (h4 : wordBit 4 w = true) :
    decode w = .reservedDp (condOfBits (w.extractLsb' 28 4)) (w.extractLsb' 8 17) (w.extractLsb' 5 2)
      (w.extractLsb' 0 4) := by
  obtain ⟨h27, h26, h25⟩ := wordBit_class hc
  simp [decode, decodeDpRegister, h27, h26, h25, h7, h4]

theorem decode_eq_reservedSdt (hc : w.extractLsb' 25 3 = 3) (h4 : wordBit 4 w = true) :
    decode w = .reservedSdt (condOfBits (w.extractLsb' 28 4)) (w.extractLsb' 5 20) (w.extractLsb' 0 4) := by
  obtain ⟨h27, h26, h25⟩ := wordBit_class hc
  simp [decode, decodeSdtRegister, h27, h26, h25, h4]

theorem decode_eq_reservedBlock (hc : w.extractLsb' 25 3 = 4) (he : w.extractLsb' 0 16 = 0) :
    decode w = .reservedBlock (condOfBits (w.extractLsb' 28 4)) (w.extractLsb' 16 9) := by
  obtain ⟨h27, h26, h25⟩ := wordBit_class hc
  have empty : (blockHeadOfWord w).wellFormed = false := decide_eq_false (not_not.mpr he)
  simp only [decode, decodeBlock, h27, h26, h25, empty]
  rfl

end

end Sys2Proof

namespace Sys2Proof.Machine

section
variable {c : Cond} {s : State} (hc : condPassed c s = true)
include hc

/-- An instruction that names no register and has no meaning: refused, whatever hazard is recorded. -/
theorem conditional_refused (why : Refusal) : conditional c [] (fun _ => .refused why) s = .refused why :=
  conditional_passed hc (hazardHit_nil s) _

theorem exec_reservedDp (high : BitVec 17) (mid : BitVec 2) (low : BitVec 4) :
    exec (.reservedDp c high mid low) s = .refused .reservedDataProcessing :=
  conditional_refused hc _

theorem exec_reservedBlock (high : BitVec 9) : exec (.reservedBlock c high) s = .refused .emptyRegisterList :=
  conditional_refused hc _

/-- The one reserved row a parameter gives a meaning, to its words with bit 7 clear, bit 2 of `high` (log 45). -/
theorem exec_reservedSdt {high : BitVec 20} (hr : s.platform.ldrRegShiftByReg = .refuse ∨ high.getLsbD 2 = true)
    (low : BitVec 4) : exec (.reservedSdt c high low) s = .refused .reservedOffset := by
  simp only [exec, execReservedSdt]
  split
  next hallow hbit =>
    rcases hr with hr | hr
    · cases hallow.symm.trans hr
    · cases hbit.symm.trans hr
  next => exact conditional_refused hc _

end

/-- Settles O45: each pattern decodes to its own reserved instruction. -/
theorem reservedWordsAreRefused : Obligations.ReservedWordsAreRefused := by
  refine fun w s hc => ⟨fun hw h7 h4 => ?dp, fun hw h4 => ?sdt, fun hw he => ?block⟩
  case dp =>
    have hd := decode_eq_reservedDp hw h7 h4
    exact ⟨by rw [hd]; exact exec_reservedDp hc .., hd⟩
  case sdt =>
    have hd := decode_eq_reservedSdt hw h4
    have bit7 : (w.extractLsb' 5 20).getLsbD 2 = w.getLsbD 7 := by simp
    exact ⟨fun hr => by rw [hd]; exact exec_reservedSdt hc (by rwa [bit7]) _, hd⟩
  case block =>
    have hd := decode_eq_reservedBlock hw he
    exact ⟨by rw [hd]; exact exec_reservedBlock hc _, hd⟩

end Sys2Proof.Machine

/-! SUPPORT. What a step does before it executes an instruction: reset, FIQ, IRQ, then the fetch (rules R55, R100,
R230, R240). -/

namespace Sys2Proof.Machine

/-- A step at which an entry is forced answers the state it leaves, the step's inputs dropped (rule R100). -/
theorem step_enters {s t : State} (hh : s.haltAddress ≠ some (pcAddr s)) (hp : pendingEntry s = some t) :
    step s = .next (dropInput t) := by
  rw [step, if_neg hh, hp]; rfl

/-! ### Which entry is forced (rule R240, log 27) -/

theorem pendingEntry_reset {s : State} (hr : (currentInput s).reset = true) : pendingEntry s = some (resetEntry s) := by
  simp [pendingEntry, hr]

theorem pendingEntry_fiq {s : State} (hr : (currentInput s).reset = false) (hf : (currentInput s).fiq = true)
    (hm : s.maskF = false) : pendingEntry s = some (takeException .fiq s) := by
  simp [pendingEntry, hr, hf, hm]

theorem pendingEntry_irq {s : State} (hr : (currentInput s).reset = false)
    (hf : (currentInput s).fiq = false ∨ s.maskF = true) (hi : (currentInput s).irq = true) (hm : s.maskI = false) :
    pendingEntry s = some (takeException .irq s) := by
  rcases hf with hf | hf <;> simp [pendingEntry, hr, hf, hi, hm]

theorem pendingEntry_none {s : State} (hr : (currentInput s).reset = false)
    (hf : (currentInput s).fiq = true → s.maskF = true) (hi : (currentInput s).irq = true → s.maskI = true) :
    pendingEntry s = none := by
  have masked {mask line : Bool} (h : line = true → mask = true) : (!mask && line) = false := by
    cases line with
    | false => exact Bool.and_false _
    | true => rw [h rfl]; rfl
  rw [pendingEntry, hr, masked hf, masked hi]
  rfl

/-! ### The entries -/

/-- A reset event keeps the platform (rules R230, R260). -/
theorem samePlatform_resetEntry (s : State) : SamePlatform s (resetEntry s) := by
  obtain ⟨⟨⟨-, -, spoilt⟩, -⟩, -⟩ := leftOpen_spoilAll allPhysRegs s
  simp only [resetEntry, resetValues]
  cases s.platform.resetRegs with
  | none => exact spoilt
  | some r => exact ⟨rfl, rfl, rfl⟩

/-- Where `reset_regs` gives values, a reset event loads them (D8, log 12). -/
theorem resetValues_some {s : State} {r : ResetRegs} (hr : s.platform.resetRegs = some r) :
    resetValues s = loadResetRegs r s := by rw [resetValues, hr]

/-- The entry of an interrupt: the address plus 4 in its saved word, memory as before (rules R223, R232, R233). -/
theorem entered_interrupt {e : Exception} {m : Mode} {v : PcWord} {f : Bool} (hm : exceptionMode e = m)
    (hv : exceptionVector e = v) (hf : exceptionMasksFiq e = f) (hl : exceptionLink e = 4) (s : State) :
    Entered m v 1 f [] (dropInput s) (dropInput (takeException e s)) ∧
      SameMemory s (dropInput (takeException e s)) := by
  refine ⟨?_, fun a => by simp⟩
  rw [dropInput_takeException]
  exact entered_takeException hm hv hf (by rw [hl]; exact isR15Word_four (dropInput s))
    ⟨.refl _, fun _ _ => rfl, Nat.le_refl _, Nat.le_refl _⟩

/-- Settles O47: each input forces its own entry, where none before it in the order is forced. -/
theorem interruptsAndResetAreTaken : Obligations.InterruptsAndResetAreTaken := by
  refine fun s hh => ⟨fun hr => ?reset, fun hr hf hm => ?fiq, fun hr hf hi hm => ?irq⟩
  case reset =>
    obtain ⟨hplatform, hhalt, hinputs⟩ := samePlatform_resetEntry s
    refine ⟨_, step_enters hh (pendingEntry_reset hr), rfl, rfl, rfl, rfl, fun a => by simp,
      ⟨hplatform, hhalt, congrArg List.tail hinputs⟩, rfl, fun r hv => ?_⟩
    rw [resetEntry, resetValues_some hv]
    exact ⟨rfl, rfl, rfl, rfl, rfl, rfl, rfl, rfl⟩
  case fiq => exact ⟨_, step_enters hh (pendingEntry_fiq hr hf hm), entered_interrupt rfl rfl rfl rfl s⟩
  case irq => exact ⟨_, step_enters hh (pendingEntry_irq hr hf hi hm), entered_interrupt rfl rfl rfl rfl s⟩

/-! ### A granted fetch -/

/-- A fetch that the memory map and the memory manager allow (rule R55). -/
theorem runFetched_granted {s : State} (hc : cellStop (pcAddr s) .word .fetch s = none)
    (ha : abortOracle (pcAddr s) .word .fetch false s = false) :
    runFetched s = exec (decode (s.mem.readWord s.platform.byteOrder (4 * s.pc.toNat))) s := by
  have hf : fetch s = .word (loadWord (pcAddr s) s) := by rw [fetch, hc, ha]
  rw [runFetched, hf, loadWord_pcAddr]

/-- The word of memory decodes to the instruction its four bytes decode to (rule R52). -/
theorem decode_readWord {m : Memory} {a : Nat} {i : Instr}
    (h : decodeBytes [m.read a, m.read (a + 1), m.read (a + 2), m.read (a + 3)] = .ok (i, [])) (order : ByteOrder) :
    decode (m.readWord order a) = i := by
  cases order
  cases h
  rfl

/-- Settles O49: with nothing to enter and a granted fetch, the step is the instruction's answer. -/
theorem stepRunsTheDecodedInstruction : Obligations.StepRunsTheDecodedInstruction := by
  intro s i hh hr hf hi hc ha hd
  have hs : step s = endStep (exec i s) := by
    rw [step_runs hh (pendingEntry_none hr hf hi), runFetched_granted hc ha, decode_readWord hd]
  rw [hs]
  exact ⟨fun t ht => congrArg endStep ht, fun f hf => congrArg endStep hf, fun r hr => congrArg endStep hr⟩

end Sys2Proof.Machine

/-! SUPPORT. Branch, branch with link and the return from a subroutine (rules R93, R111, R112, R115, R140, R141). -/

namespace Sys2Proof.Machine

/-! ### Branches -/

/-- Under mask 0x0F000000 the word of a condition, four fixed bits and 24 more keeps the four bits (rules R83, R89). -/
theorem condBits_append_and_mask (c : Cond) (p : BitVec 4) (x : BitVec 24) :
    condBits c ++ p ++ x &&& 0x0F000000#32 = 0#4 ++ p ++ 0#24 := by
  change condBits c ++ p ++ x &&& (0#4 ++ BitVec.allOnes 4 ++ 0#24) = _
  rw [BitVec.and_append, BitVec.and_append, BitVec.and_zero, BitVec.and_allOnes, BitVec.and_zero]

/-- The word address of the branch target, four times it being the address plus 8 plus four times the signed offset,
modulo 2^26 (rules R93, R111). -/
theorem branchTarget_signed (offset : BitVec 24) (s : State) :
    ((4 * ((branchTarget offset s).extractLsb' 2 24).toNat : Nat) : Int) =
      ((4 * s.pc.toNat : Nat) + 8 + 4 * offset.toInt) % 2 ^ 26 := by
  have shifted : (offset ++ 0#2 : Addr).toNat = 4 * offset.toNat := pcAddr_toNat { s with pc := offset }
  have target : (branchTarget offset s).toNat = (4 * s.pc.toNat + 8 + 4 * offset.toNat) % 2 ^ 26 := by
    simp only [branchTarget, BitVec.toNat_add, pcAddr_toNat, shifted, BitVec.reduceToNat]
    omega
  have aligned : 4 * ((branchTarget offset s).extractLsb' 2 24).toNat = (branchTarget offset s).toNat := by
    rw [BitVec.extractLsb'_toNat, target, Nat.shiftRight_eq_div_pow]
    omega
  rw [aligned, target, BitVec.toInt_eq_toNat_cond]
  split <;> omega

/-- An instruction whose condition fails leaves all but the PC (rules R28, R30). -/
theorem exec_skips_frame {i : Instr} {s : State} (hc : condPassed i.cond s = false) (hm : mayAdvance s = true) :
    ∃ t, exec i s = .next t ∧ SameRegs s t ∧ SamePsr s t ∧ SameMemory s t ∧ SameRest s t ∧ Advances s t :=
  ⟨_, exec_skips hc hm, fun p => by simp, ⟨⟨rfl, rfl, rfl, rfl⟩, rfl, rfl, rfl⟩, fun _ => rfl, ⟨⟨rfl, rfl, rfl⟩, rfl⟩,
    rfl, rfl⟩

/-- B names no register, so no hazard stops it (rules R111, R266). -/
theorem exec_b_passed {c : Cond} {s : State} (hc : condPassed c s = true) (offset : BitVec 24) :
    exec (.b c offset) s = .next (branchTo (branchTarget offset s) (clearHazard s)) := by
  rw [exec, execB, conditional_passed hc (hazardHit_nil s)]; rfl

/-- BL too: the R14 it writes is not one it names to the hazard (rules R112, R266). -/
theorem exec_bl_passed {c : Cond} {s : State} (hc : condPassed c s = true) (offset : BitVec 24) :
    exec (.bl c offset) s = .next (branchTo (branchTarget offset s) (writeX 14 (r15full 4 s) (clearHazard s))) := by
  rw [exec, execBl, conditional_passed hc (hazardHit_nil s)]; rfl

/-- Settles O39, by the two branches of the condition. -/
theorem branchGoesToItsTarget : Obligations.BranchGoesToItsTarget := by
  refine fun c offset s => ⟨condBits_append_and_mask c 10#4 offset, fun hc => ?taken, fun hc hm => ?skipped⟩
  case skipped => exact exec_skips_frame hc hm
  case taken =>
    exact ⟨_, exec_b_passed hc offset, fun p => by simp, ⟨⟨rfl, rfl, rfl, rfl⟩, rfl, rfl, rfl⟩, fun _ => rfl,
      ⟨⟨rfl, rfl, rfl⟩, rfl⟩, ⟨rfl, rfl⟩, branchTarget_signed offset s⟩

/-- Settles O40, by the two branches of the condition; the link is the word R15 is read as four bytes ahead. -/
theorem branchWithLinkSavesTheReturn : Obligations.BranchWithLinkSavesTheReturn := by
  refine fun c offset s => ⟨condBits_append_and_mask c 11#4 offset, fun hc => ?taken, fun hc hm => ?skipped⟩
  case skipped => exact exec_skips_frame hc hm
  case taken =>
    refine ⟨_, exec_bl_passed hc offset, ?link, fun p hp => ?others, by simp [SamePsr, SameFlags, SameControl],
      fun a => by simp, by simp [SameRest, SamePlatform], by simp [GoesTo], branchTarget_signed offset s⟩
    case link =>
      rw [readX_branchTo, readX_writeX_same]
      exact isR15Word_four s
    case others =>
      rw [readPhys_branchTo, readPhys_writeX, if_neg (by simpa using hp), readPhys_clearHazard]

/-! ### The return from a subroutine -/

/-- The fields of MOV PC,R14 and MOVS PC,R14 (rules R115, R140, R141). -/
def returnHead (s : Bool) : DpHead := { cond := .al, s := s, rn := .gpr 0, rd := .r15 }

/-- R14 not shifted (rule R131). -/
def linkOperand : ShiftImmOperand := { amount := 0, ty := .lsl, rm := .gpr 14 }

theorem decode_movPcR14 : decode 0xE1A0F00E = .movShiftImm (returnHead false) linkOperand := by decide

theorem decode_movsPcR14 : decode 0xE1B0F00E = .movShiftImm (returnHead true) linkOperand := by decide

/-- A return writes R14 to the PC, with S = 1 to the PSR too; where no hazard is pending it is not stopped. -/
theorem exec_return (b : Bool) {t : State} (hz : t.hazard = none) :
    ∃ u, exec (.movShiftImm (returnHead b) linkOperand) t = .next u ∧ SameMemory t u ∧ SameRegs t u ∧
      u.pc = (readX 14 t).extractLsb' 2 24 ∧ if b then PsrWritten (readX 14 t) t u else SamePsr t u := by
  have runs : DpRuns .mov (returnHead b) (.shiftImm linkOperand) ⟨readX 14 t, t.flagC⟩ t :=
    ⟨rfl, hazardHit_none hz _, rfl, fun ha => nomatch ha⟩
  obtain ⟨hmem, -, hregs, ⟨hpc, -⟩, hpsr⟩ := dpWritten_dpWrite (op := .mov) rfl (returnHead b) (.logical (readX 14 t))
    t.flagC t (hasFlags_logical _ _ t)
  exact ⟨_, dataProcessing_runs runs, hmem, hregs, hpc, hpsr⟩

/-- Writing the PSR saved from s in the mode of s brings back the flags of s, and outside user mode its interrupt masks
and mode (rules R25, R141). -/
theorem PsrWritten.restores {w : PcWord} {v : Word} {s t u : State} (hp : PsrWritten v t u) (hv : IsR15Word w s v)
    (hm : t.mode = s.mode) : SameFlags s u ∧ if s.mode = .usr then SameControl t u else SameControl s u := by
  obtain ⟨wn, wz, wc, wv, wuser, wprivileged⟩ := hp
  obtain ⟨sn, sz, sc, sv, si, sf, -, smode⟩ := hv
  refine ⟨⟨wn.trans sn, wz.trans sz, wc.trans sc, wv.trans sv⟩, ?_⟩
  split
  next hu => exact wuser (hm.trans hu)
  next hu =>
    obtain ⟨wi, wf, wmode⟩ := wprivileged (hm ▸ hu)
    have mode : u.mode = s.mode := by rw [← modeOfBits_modeBits u.mode, wmode, smode, modeOfBits_modeBits]
    exact ⟨wi.trans si, wf.trans sf, mode⟩

/-- Settles O41: R14 is the link that BL left, and a return writes it to the PC, and with S = 1 to the PSR. -/
theorem subroutineReturnsToItsCaller : Obligations.SubroutineReturnsToItsCaller := by
  intro c offset s s' t hc hbl hlink hmode hz
  cases (exec_bl_passed hc offset).symm.trans hbl
  rw [readX_branchTo, readX_writeX_same] at hlink
  rw [branchTo_mode, writeX_mode, clearHazard_mode] at hmode
  have saved : IsR15Word (s.pc + 1) s (readX 14 t) := hlink ▸ isR15Word_four s
  have target : (readX 14 t).extractLsb' 2 24 = s.pc + 1 := by rw [hlink, r15full_pc, pcAddr_add_four]
  obtain ⟨u, hu, umem, uregs, upc, upsr⟩ := exec_return false hz
  obtain ⟨v, hv, vmem, vregs, vpc, vpsr⟩ := exec_return true hz
  obtain ⟨vflags, vcontrol⟩ := vpsr.restores saved hmode
  rw [decode_movPcR14, decode_movsPcR14]
  exact ⟨u, v, hu, hv, upc.trans target, upsr, uregs, umem, vpc.trans target, vflags, vregs, vmem, vcontrol⟩

end Sys2Proof.Machine

/-! SUPPORT. The sixteen data-processing operations, each in its three operand forms: the opcode bits of its word, its
result and its flags (rules R84, R121 to R124, R150 to R165). -/

namespace Sys2Proof

/-- Under mask 0x0DE00000 a data-processing word keeps its opcode, bits 24:21; bits 27:26 are clear (rule R84). -/
theorem encodeDp_and_mask (i : BitVec 1) (op : DpOp) (h : DpHead) (x : BitVec 12) :
    encodeDp i op h x &&& 0x0DE00000 = 0#7 ++ dpOpBits op ++ 0#21 := by
  change encodeDp i op h x &&&
    (0#4 ++ 3#2 ++ 0#1 ++ BitVec.allOnes 4 ++ 0#1 ++ 0#4 ++ 0#4 ++ 0#12) = _
  rw [encodeDp, BitVec.and_append]
  simp only [BitVec.and_append, BitVec.and_zero, BitVec.and_allOnes, BitVec.zero_and]
  cases op <;> rfl

end Sys2Proof

namespace Sys2Proof.Machine

/-- An operation is settled in its three forms by its opcode bits, what it leaves for every ALU output, and the value
and the flags of its own ALU output: the forms differ in operand 2 alone (rule R121). -/
theorem dpFamily_of {op : DpOp} {pattern : Word} {outcome : DpHead → Word → FlagValues → State → State → Prop}
    {result : Word → Word → Bool → Word} {flags : Word → Word → State → Bool → FlagValues}
    (hpattern : 0#7 ++ dpOpBits op ++ 0#21 = pattern)
    (houtcome : ∀ h out c s {f}, HasFlags f (setFlags out c s) →
      outcome h (aluValue out) f s (concluded (dpAssignsPc op h) (dpWrite op h out c (clearHazard s))))
    (hresult : ∀ a b c, aluValue (alu op a b c) = result a b c)
    (hflags : ∀ a b s c, HasFlags (flags a b s c) (setFlags (alu op a b s.flagC) c s)) :
    DpFamily op (dpImmInstr op) (dpShiftImmInstr op) (dpShiftRegInstr op) pattern outcome result flags := by
  have completes (i : Instr) (h : DpHead) (o : Operand2) (hi : ∀ s, exec i s = dataProcessing op h o s) :
      DpCompletes i op h o outcome result flags := fun s b hr =>
    ⟨_, (hi s).trans (dataProcessing_runs hr), hresult _ _ _ ▸ houtcome h _ b.carry s (hflags _ _ s _)⟩
  refine ⟨fun h o => ⟨?_, completes _ h _ (exec_dpImmInstr op h o)⟩,
    fun h o => ⟨?_, completes _ h _ (exec_dpShiftImmInstr op h o)⟩,
    fun h o => ⟨?_, completes _ h _ (exec_dpShiftRegInstr op h o)⟩⟩
  · rw [encode_dpImmInstr, encodeDp_and_mask, hpattern]
  · rw [encode_dpShiftImmInstr, encodeDp_and_mask, hpattern]
  · rw [encode_dpShiftRegInstr, encodeDp_and_mask, hpattern]

/-- A sum without a carry in (rule R15). -/
theorem addWithCarry_false_value (a b : Word) : (addWithCarry a b false).value = a + b :=
  (addWithCarry_value a b false).trans (BitVec.add_zero _)

/-- A difference without a borrow (rules R15, R124). -/
theorem addWithCarry_not_true_value (a b : Word) : (addWithCarry a (~~~b) true).value = a - b :=
  (addWithCarry_not_value a b true).trans (BitVec.sub_zero _)

/-! ### Additions and subtractions (rule R124) -/

/-- Settles O1: the ALU adds, without a carry in. -/
theorem addWritesTheSum : Obligations.AddWritesTheSum :=
  dpFamily_of (op := .add) rfl (dpWritten_dpWrite rfl) (fun a b _ => addWithCarry_false_value a b)
    (fun a b s c => hasFlags_add a b false c s)

/-- Settles O2: the ALU adds, the C flag being the carry in. -/
theorem adcWritesTheSumWithCarry : Obligations.AdcWritesTheSumWithCarry :=
  dpFamily_of (op := .adc) rfl (dpWritten_dpWrite rfl) addWithCarry_value
    (fun a b s c => hasFlags_add a b s.flagC c s)

/-- Settles O3: the ALU adds the inverse with a carry in. -/
theorem subWritesTheDifference : Obligations.SubWritesTheDifference :=
  dpFamily_of (op := .sub) rfl (dpWritten_dpWrite rfl) (fun a b _ => addWithCarry_not_true_value a b)
    (fun a b s c => hasFlags_sub a b true c s)

/-- Settles O4: the ALU adds the inverse, the C flag being the carry in. -/
theorem sbcWritesTheDifferenceWithBorrow : Obligations.SbcWritesTheDifferenceWithBorrow :=
  dpFamily_of (op := .sbc) rfl (dpWritten_dpWrite rfl) addWithCarry_not_value
    (fun a b s c => hasFlags_sub a b s.flagC c s)

/-- Settles O5: SUB with its operands exchanged. -/
theorem rsbWritesTheReverseDifference : Obligations.RsbWritesTheReverseDifference :=
  dpFamily_of (op := .rsb) rfl (dpWritten_dpWrite rfl) (fun a b _ => addWithCarry_not_true_value b a)
    (fun a b s c => hasFlags_sub b a true c s)

/-- Settles O6: SBC with its operands exchanged. -/
theorem rscWritesTheReverseDifferenceWithBorrow : Obligations.RscWritesTheReverseDifferenceWithBorrow :=
  dpFamily_of (op := .rsc) rfl (dpWritten_dpWrite rfl) (fun a b => addWithCarry_not_value b a)
    (fun a b s c => hasFlags_sub b a s.flagC c s)

/-! ### Logical operations and moves (rule R123) -/

/-- Settles O7: the conjunction, a logical result. -/
theorem andWritesTheConjunction : Obligations.AndWritesTheConjunction :=
  dpFamily_of (op := .and) rfl (dpWritten_dpWrite rfl) (fun _ _ _ => rfl) (fun _ _ s c => hasFlags_logical _ c s)

/-- Settles O8: the exclusive or, a logical result. -/
theorem eorWritesTheExclusiveOr : Obligations.EorWritesTheExclusiveOr :=
  dpFamily_of (op := .eor) rfl (dpWritten_dpWrite rfl) (fun _ _ _ => rfl) (fun _ _ s c => hasFlags_logical _ c s)

/-- Settles O9: the disjunction, a logical result. -/
theorem orrWritesTheDisjunction : Obligations.OrrWritesTheDisjunction :=
  dpFamily_of (op := .orr) rfl (dpWritten_dpWrite rfl) (fun _ _ _ => rfl) (fun _ _ s c => hasFlags_logical _ c s)

/-- Settles O10: the conjunction with the inverse of operand 2, a logical result. -/
theorem bicClearsTheBitsOfOperandTwo : Obligations.BicClearsTheBitsOfOperandTwo :=
  dpFamily_of (op := .bic) rfl (dpWritten_dpWrite rfl) (fun _ _ _ => rfl) (fun _ _ s c => hasFlags_logical _ c s)

/-- Settles O11: operand 2 itself, a logical result. -/
theorem movWritesOperandTwo : Obligations.MovWritesOperandTwo :=
  dpFamily_of (op := .mov) rfl (dpWritten_dpWrite rfl) (fun _ _ _ => rfl) (fun _ _ s c => hasFlags_logical _ c s)

/-- Settles O12: the inverse of operand 2, a logical result. -/
theorem mvnWritesTheInverseOfOperandTwo : Obligations.MvnWritesTheInverseOfOperandTwo :=
  dpFamily_of (op := .mvn) rfl (dpWritten_dpWrite rfl) (fun _ _ _ => rfl) (fun _ _ s c => hasFlags_logical _ c s)

/-! ### Tests and compares (rules R142, R146) -/

/-- Settles O13: the result of AND, which only the flags or the PSR take. -/
theorem tstSetsTheFlagsOfTheConjunction : Obligations.TstSetsTheFlagsOfTheConjunction :=
  dpFamily_of (op := .tst) rfl (dpTested_dpWrite rfl) (fun _ _ _ => rfl) (fun _ _ s c => hasFlags_logical _ c s)

/-- Settles O14: the result of EOR, which only the flags or the PSR take. -/
theorem teqSetsTheFlagsOfTheExclusiveOr : Obligations.TeqSetsTheFlagsOfTheExclusiveOr :=
  dpFamily_of (op := .teq) rfl (dpTested_dpWrite rfl) (fun _ _ _ => rfl) (fun _ _ s c => hasFlags_logical _ c s)

/-- Settles O15: the result of SUB, which only the flags or the PSR take. -/
theorem cmpSetsTheFlagsOfTheDifference : Obligations.CmpSetsTheFlagsOfTheDifference :=
  dpFamily_of (op := .cmp) rfl (dpTested_dpWrite rfl) (fun a b _ => addWithCarry_not_true_value a b)
    (fun a b s c => hasFlags_sub a b true c s)

/-- Settles O16: the result of ADD, which only the flags or the PSR take. -/
theorem cmnSetsTheFlagsOfTheSum : Obligations.CmnSetsTheFlagsOfTheSum :=
  dpFamily_of (op := .cmn) rfl (dpTested_dpWrite rfl) (fun a b _ => addWithCarry_false_value a b)
    (fun a b s c => hasFlags_add a b false c s)

end Sys2Proof.Machine

/-! SUPPORT. Operand 2: the barrel shifter as arithmetic on the value and as a choice of its bits, for constant,
register and rotated immediate operands; R15 as an operand (rules R122, R130 to R134). -/

namespace Sys2Proof.Machine

/-! ### Shifts by any amount -/

/-- A left shift multiplies modulo 2^32. -/
theorem toNat_shiftLeft (v : Word) (a : Nat) : (v <<< a).toNat = v.toNat * 2 ^ a % 2 ^ 32 := by
  rw [BitVec.toNat_shiftLeft, Nat.shiftLeft_eq]

/-- A logical right shift divides the unsigned number, rounding down. -/
theorem toNat_ushiftRight (v : Word) (a : Nat) : (v >>> a).toNat = v.toNat / 2 ^ a := by
  rw [BitVec.toNat_ushiftRight, Nat.shiftRight_eq_div_pow]

/-- An arithmetic right shift divides the signed number, rounding toward minus infinity. -/
theorem toInt_sshiftRight (v : Word) (a : Nat) : (v.sshiftRight a).toInt = v.toInt / 2 ^ a := by
  rw [BitVec.toInt_sshiftRight, Int.shiftRight_eq_div_pow]; rfl

/-- A right shift joined with the left shift of the bits it drops is a rotation. -/
theorem getLsbD_rotated (v : Word) {a i : Nat} (ha : a ≤ 32) (hi : i < 32) :
    (v >>> a ||| v <<< (32 - a)).getLsbD i = v.getLsbD ((i + a) % 32) := by
  rw [BitVec.getLsbD_or, BitVec.getLsbD_ushiftRight, BitVec.getLsbD_shiftLeft]
  by_cases h : i + a < 32
  · rw [Nat.mod_eq_of_lt h, Nat.add_comm i a]
    simp [hi, show i < 32 - a by omega]
  · rw [BitVec.getLsbD_of_ge v (a + i) (by omega), show (i + a) % 32 = i - (32 - a) by omega]
    simp [hi, show ¬ i < 32 - a by omega]

/-- From 32 on an arithmetic right shift leaves copies of the sign bit. -/
theorem sshiftRight_eq_fillWord (v : Word) {a : Nat} (ha : 32 ≤ a) : v.sshiftRight a = fillWord (wordBit 31 v) := by
  apply BitVec.eq_of_getLsbD_eq
  intro i hi
  have sign : v.msb = wordBit 31 v := BitVec.msb_eq_getLsbD_last v
  rw [BitVec.getLsbD_sshiftRight, if_neg (by omega), sign]
  cases wordBit 31 v
  · simp [fillWord]
  · simp only [fillWord, if_true, BitVec.getLsbD_allOnes]
    simp [hi, show ¬ 32 ≤ i by omega]

/-! ### Shifts by a constant (rules R130, R131) -/

/-- A right shift by the constant 0 is a shift by 32. -/
theorem shiftByConstant_right {t : ShiftType} (ht : t = .lsr ∨ t = .asr) (a : BitVec 5) (v : Word) (c : Bool) :
    shiftByConstant t a v c = shiftBy t (if a = 0 then 32 else a.toNat) v := by
  unfold shiftByConstant
  split
  next =>
    rcases ht with rfl | rfl
    · rw [shiftBy, BitVec.ushiftRight_eq_zero (Nat.le_refl 32)]; rfl
    · rw [shiftBy, sshiftRight_eq_fillWord v (Nat.le_refl 32)]
  next => rfl

/-- A left shift by a constant keeps the carry where nothing is shifted. -/
theorem shiftByConstant_lsl (a : BitVec 5) (v : Word) (c : Bool) :
    shiftByConstant .lsl a v c = ⟨v <<< a.toNat, if a = 0 then c else v.getLsbD (32 - a.toNat)⟩ := by
  unfold shiftByConstant
  split
  next h => simp [h]
  next => rfl

/-- RRX: every bit moves down by one, the carry enters at bit 31. -/
theorem getLsbD_rrx (c : Bool) (v : Word) :
    (BitVec.ofBool c ++ v.extractLsb' 1 31 : Word).getLsbD 31 = c ∧
      ∀ i < 31, (BitVec.ofBool c ++ v.extractLsb' 1 31 : Word).getLsbD i = v.getLsbD (i + 1) :=
  ⟨(getLsbD_append_of_le (Nat.le_refl 31)).trans (by simp),
    fun i hi => (getLsbD_append_of_lt hi).trans (by simp [hi, Nat.add_comm])⟩

/-- Settles O17, by the shift type; for ROR the amount 0 is RRX. -/
theorem operand2_shiftByConstant : Obligations.ShiftByConstant := by
  intro ⟨amount, ty, rm⟩ s
  refine ⟨_, rfl, ?_⟩
  cases ty with
  | lsl => rw [shiftByConstant_lsl]; exact ⟨toNat_shiftLeft _ _, rfl⟩
  | lsr => rw [shiftByConstant_right (.inl rfl)]; exact ⟨toNat_ushiftRight _ _, rfl⟩
  | asr => rw [shiftByConstant_right (.inr rfl)]; exact ⟨toInt_sshiftRight _ _, rfl⟩
  | ror =>
    dsimp only [shiftByConstant]
    split
    next =>
      obtain ⟨top, below⟩ := getLsbD_rrx s.flagC (readRm 8 rm s)
      exact ⟨top, below, rfl⟩
    next => exact ⟨fun i hi => getLsbD_rotated _ (Nat.le_of_lt amount.isLt) hi, rfl⟩

/-! ### Shifts by a register (rule R132) -/

/-- The low byte of a register as a number. -/
theorem toNat_lowByte (v : Word) : (v.extractLsb' 0 8).toNat = v.toNat % 256 := by
  rw [BitVec.extractLsb'_toNat, Nat.shiftRight_zero]

/-- Where no parameter refuses the amount, a register shifted by a register is operand 2 (rules R122, R132, log 17). -/
theorem operand2_shiftReg {j : Fin 15} {s : State} (hs : (readX j s).toNat % 256 < 32 ∨ s.platform.shiftGe32 = .family)
    (ty : ShiftType) (rm : Reg) : operand2 (.shiftReg ⟨.gpr j, ty, rm⟩) s
      = .ok (shiftByAmount ty ((readX j s).toNat % 256) (readRm 12 rm s) s.flagC) := by
  have admitted : ¬ (32 ≤ (readX j s).toNat % 256 ∧ s.platform.shiftGe32 = .refuse) := by
    rintro ⟨hge, hr⟩
    rcases hs with hlt | hf
    · omega
    · cases hf.symm.trans hr
  simp only [operand2, shiftByRegister, toNat_lowByte, if_neg admitted]

/-- The amount 0 of a register leaves the value and the carry. -/
theorem shiftByAmount_zero (t : ShiftType) (v : Word) (c : Bool) : shiftByAmount t 0 v c = ⟨v, c⟩ := rfl

section
variable {a : Nat} (ha : a ≠ 0) (v : Word) (c : Bool)
include ha

/-- A left shift by more than 32 leaves no carry. -/
theorem shiftByAmount_lsl :
    shiftByAmount .lsl a v c = ⟨v <<< a, if a ≤ 32 then v.getLsbD (32 - a) else false⟩ := by
  rw [shiftByAmount, if_neg ha]
  split
  next h => rw [if_pos (Nat.le_of_lt h)]; rfl
  next h =>
    have none_left : v <<< a = 0 := BitVec.shiftLeft_eq_zero (by omega)
    by_cases h32 : a = 32
    · simp [h32, wordBit]
    · simp [none_left, h32, show ¬ a ≤ 32 by omega]

/-- A logical right shift by any amount is the shift by a constant: above 32 its carry is a bit past the top. -/
theorem shiftByAmount_lsr : shiftByAmount .lsr a v c = shiftBy .lsr a v := by
  rw [shiftByAmount, if_neg ha]
  split
  next => rfl
  next h =>
    simp only [shiftBy, BitVec.ushiftRight_eq_zero (not_lt.mp h)]
    by_cases h32 : a = 32
    · simp [h32]
    · simp [h32, wordBit, BitVec.getLsbD_of_ge v (a - 1) (by omega)]

/-- The carry of an arithmetic right shift by 32 or more is the sign. -/
theorem shiftByAmount_asr : shiftByAmount .asr a v c = ⟨v.sshiftRight a, v.getLsbD (min a 32 - 1)⟩ := by
  rw [shiftByAmount, if_neg ha]
  split
  next h => rw [Nat.min_eq_left (Nat.le_of_lt h)]; rfl
  next h =>
    rw [Nat.min_eq_right (not_lt.mp h), sshiftRight_eq_fillWord v (not_lt.mp h)]; rfl

/-- A rotation by a register is one by 1 to 32 places. -/
theorem shiftByAmount_ror : shiftByAmount .ror a v c = shiftBy .ror ((a - 1) % 32 + 1) v := by
  rw [shiftByAmount, if_neg ha]
  split
  next h => rw [show (a - 1) % 32 + 1 = a by omega]
  next h =>
    split
    next h0 => rw [show (a - 1) % 32 + 1 = 32 by omega]; simp [shiftBy, BitVec.ushiftRight_eq_zero (Nat.le_refl 32)]
    next h0 => rw [show (a - 1) % 32 + 1 = a % 32 by omega]

end

/-- Settles O18, by the shift type. -/
theorem operand2_shiftByRegister : Obligations.ShiftByRegister := by
  intro ⟨rs, ty, rm⟩ j s hrs hs
  cases hrs
  refine ⟨_, operand2_shiftReg hs ty rm, ?_⟩
  split
  next h0 => rw [h0]; exact ⟨rfl, rfl⟩
  next h0 =>
    cases ty with
    | lsl => rw [shiftByAmount_lsl h0]; exact ⟨toNat_shiftLeft _ _, rfl⟩
    | lsr => rw [shiftByAmount_lsr h0]; exact ⟨toNat_ushiftRight _ _, rfl⟩
    | asr => rw [shiftByAmount_asr h0]; exact ⟨toInt_sshiftRight _ _, rfl⟩
    | ror =>
      rw [shiftByAmount_ror h0]
      refine ⟨fun i hi => (getLsbD_rotated _ (by omega) hi).trans ?_, rfl⟩
      congr 1
      omega

/-! ### Rotated immediates (rule R134) -/

/-- Settles O19: the rotation is that of the library. -/
theorem rotatedImmediateOperand : Obligations.RotatedImmediateOperand := by
  intro o s
  refine ⟨_, rfl, fun i hi => ?_, rfl⟩
  have hr := o.rotate.isLt
  dsimp only [rotatedImmediate]
  rw [BitVec.getLsbD_rotateRight, Nat.mod_eq_of_lt (show 2 * o.rotate.toNat < 32 by omega), Bool.cond_decide]
  split
  next h => rw [Nat.mod_eq_of_lt (by omega), Nat.add_comm]
  next h => rw [show (i + 2 * o.rotate.toNat) % 32 = i - (32 - 2 * o.rotate.toNat) by omega, decide_eq_true hi]; rfl

/-! ### R15 as an operand (rule R122) -/

/-- R15 as Rn is the byte address alone. -/
theorem r15pc_toNat (k : Addr) (s : State) : (r15pc k s).toNat = (4 * s.pc.toNat + k.toNat) % 2 ^ 26 := by
  have h := (pcAddr s + k).isLt
  rw [r15pc, BitVec.toNat_setWidth, Nat.mod_eq_of_lt (by omega), BitVec.toNat_add, pcAddr_toNat]

/-- Settles O20, clause by clause. -/
theorem r15AsSourceOperand : Obligations.R15AsSourceOperand := by
  refine ⟨fun k i s => ⟨rfl, rfl⟩,
    fun s => ⟨r15pc_toNat 8 s, r15pc_toNat 12 s, isR15Word_eight s, isR15Word_twelve s⟩,
    fun h s => ⟨fun _ => rfl, fun _ => rfl, fun _ => rfl⟩, fun _ _ => rfl, fun j ty rm s hs => operand2_shiftReg hs ty rm,
    fun op h o s ho hc hz => ?amount⟩
  case amount => rw [exec_dpShiftRegInstr, dataProcessing_r15Amount ho hc hz]

end Sys2Proof.Machine

/-! SUPPORT. The conditions on the flags of a subtraction: the equality, the unsigned and the signed order of its
operands (rules R15, R30, R155). -/

namespace Sys2Proof.Machine

/-- After a subtraction Z is the equality of the operands. -/
theorem subFlags_z (a b : Word) : (subFlags a b false).z = true ↔ a = b := by
  simpa [subFlags] using sub_eq_zero (a := a) (b := b)

/-- After a subtraction C is the unsigned order of the operands. -/
theorem subFlags_c (a b : Word) : (subFlags a b false).c = true ↔ b.toNat ≤ a.toNat := by
  simp [subFlags]

/-- After a subtraction N = V is the signed order of the operands: V says that N is the wrong sign. -/
theorem subFlags_n_eq_v (a b : Word) : (subFlags a b false).n = (subFlags a b false).v ↔ b.toInt ≤ a.toInt := by
  have sign : (a - b).getLsbD 31 = decide ((a - b).toInt < 0) := by
    rw [← BitVec.msb_eq_toInt, BitVec.msb_eq_getLsbD_last]
  have ha := a.toInt_lt
  have hb := b.toInt_lt
  have ha' := a.le_toInt
  have hb' := b.le_toInt
  simp only [subFlags, Bool.toNat_false, BitVec.ofNat_eq_ofNat, BitVec.sub_zero, sign, decide_eq_decide, BitVec.toInt_sub,
    Int.bmod_def]
  omega

/-- The ten conditions that name an order of two operands say it of a and b on the flags of t (rule R30). -/
def ConditionsOrder (a b : Word) (t : State) : Prop :=
  (condPassed .eq t = true ↔ a = b) ∧ (condPassed .ne t = true ↔ a ≠ b) ∧
    (condPassed .cs t = true ↔ b.toNat ≤ a.toNat) ∧ (condPassed .cc t = true ↔ a.toNat < b.toNat) ∧
    (condPassed .hi t = true ↔ b.toNat < a.toNat) ∧ (condPassed .ls t = true ↔ a.toNat ≤ b.toNat) ∧
    (condPassed .ge t = true ↔ b.toInt ≤ a.toInt) ∧ (condPassed .lt t = true ↔ a.toInt < b.toInt) ∧
    (condPassed .gt t = true ↔ b.toInt < a.toInt) ∧ (condPassed .le t = true ↔ a.toInt ≤ b.toInt)

/-- After a subtraction the conditions order its operands. -/
theorem conditionsOrder_of_subFlags {a b : Word} {t : State} (hf : HasFlags (subFlags a b false) t) :
    ConditionsOrder a b t := by
  obtain ⟨hn, hz, hc, hv⟩ := hf
  have z : t.flagZ = decide (a = b) := Bool.eq_iff_iff.mpr (by rw [hz, subFlags_z, decide_eq_true_eq])
  have c : t.flagC = decide (b.toNat ≤ a.toNat) := Bool.eq_iff_iff.mpr (by rw [hc, subFlags_c, decide_eq_true_eq])
  have nv : (t.flagN == t.flagV) = decide (b.toInt ≤ a.toInt) :=
    Bool.eq_iff_iff.mpr (by rw [hn, hv, beq_iff_eq, subFlags_n_eq_v, decide_eq_true_eq])
  have eq_nat : a = b ↔ a.toNat = b.toNat := BitVec.toNat_inj.symm
  have eq_int : a = b ↔ a.toInt = b.toInt := BitVec.toInt_inj.symm
  refine ⟨?eq, ?ne, ?cs, ?cc, ?hi, ?ls, ?ge, ?lt, ?gt, ?le⟩
  all_goals
    simp only [condPassed, bne, z, c, nv, Bool.and_eq_true, Bool.or_eq_true, Bool.not_eq_true', decide_eq_true_eq,
      decide_eq_false_iff_not, ne_eq]
  case cc | lt => omega
  case hi | ls => rw [eq_nat]; omega
  case gt | le => rw [eq_int]; omega

/-- A compare with S = 1 and Rd not R15 leaves the flags of the subtraction, so the conditions order its operands. -/
theorem conditionsOrder_of_cmp {i : Instr} {h : DpHead} {o : Operand2}
    (hi : DpCompletes i .cmp h o DpTested (fun a b _ => a - b) (fun a b _ _ => subFlags a b false)) (s : State)
    (b : Shifted) (d : Fin 15) (hr : DpRuns .cmp h o b s) (hs : h.s = true) (hd : h.rd = .gpr d) :
    ∃ t, exec i s = .next t ∧ ConditionsOrder (operand1 h o s) b.value t := by
  obtain ⟨t, ht, -, -, -, -, tested⟩ := hi s b hr
  rw [hs, hd] at tested
  exact ⟨t, ht, conditionsOrder_of_subFlags tested.1⟩

/-- Settles O23, from what O15 says of CMP in its three forms. -/
theorem conditionsAfterCmpReadAsNamed : Obligations.ConditionsAfterCmpReadAsNamed := by
  obtain ⟨imm, shiftImm, shiftReg⟩ := cmpSetsTheFlagsOfTheDifference
  exact ⟨fun h o => conditionsOrder_of_cmp (imm h o).2, fun h o => conditionsOrder_of_cmp (shiftImm h o).2,
    fun h o => conditionsOrder_of_cmp (shiftReg h o).2⟩

end Sys2Proof.Machine

/-! SUPPORT. Data-processing instructions whatever hazard is pending: 64-bit sums and differences in pairs of unbanked
registers, and the write of the PSR by TEQP; words of the spec decoded (rules R142, R143, R168, R266). -/

namespace Sys2Proof.Machine

/-- R0 to R9 are every mode's (rule R22). -/
theorem phys_of_low {i : Fin 15} (hi : i.val < 10) (m : Mode) : phys m i = .usr i := by
  cases m with
  | usr => rfl
  | fiq => exact dif_neg (by omega)
  | irq => exact dif_neg (by omega)
  | svc => exact dif_neg (by omega)

/-- An instruction that names no register above R9 but R15 meets no hazard (rules R266, R267). -/
theorem hazardHit_of_low {named : List Reg} (h : ∀ i, Reg.gpr i ∈ named → i.val < 10) (s : State) :
    hazardHit named s = false := by
  have safe (hz : Hazard) (r : Reg) (hr : r ∈ named) : hazardous hz s.mode r = false := by
    cases r with
    | r15 => rfl
    | gpr i =>
      have low := h i hr
      cases hz with
      | modeChange old => simp [hazardous, phys_of_low low]
      | userBankLoad => simp [hazardous, low]
  unfold hazardHit
  cases s.hazard with
  | none => rfl
  | some hz => exact List.any_eq_false.mpr fun r hr => by simp [safe hz r hr]

/-! ### 64-bit arithmetic (rule R168) -/

/-- The fields of an instruction on Rn and Rd that is always executed. -/
def plainDpHead (s : Bool) (n d : Fin 15) : DpHead := { cond := .al, s := s, rn := .gpr n, rd := .gpr d }

/-- Rm not shifted (rule R131). -/
def plainOperand (m : Fin 15) : ShiftImmOperand := { amount := 0, ty := .lsl, rm := .gpr m }

/-- An instruction on unbanked registers runs wherever the PC may go on. -/
theorem dpRuns_plain {op : DpOp} {b : Bool} {n d m : Fin 15} {s : State} (hn : n.val < 10) (hd : d.val < 10)
    (hm : m.val < 10) (ha : mayAdvance s = true) :
    DpRuns op (plainDpHead b n d) (.shiftImm (plainOperand m)) ⟨readX m s, s.flagC⟩ s := by
  refine ⟨rfl, hazardHit_of_low (fun i hi => ?_) s, rfl, fun _ => ha⟩
  have named : i = n ∨ i = d ∨ i = m := by
    have members : dpRegisters op (plainDpHead b n d) (.shiftImm (plainOperand m)) ⊆ [.gpr n, .gpr d, .gpr m] := by
      cases op <;> simp [dpRegisters, readsRn, writesRd, plainDpHead, plainOperand, operand2Registers]
    simpa using members hi
  rcases named with rfl | rfl | rfl <;> assumption

/-- What an instruction on unbanked registers leaves, in the registers of the mode. -/
theorem exec_plain {i : Instr} {op : DpOp} {b : Bool} {n d m : Fin 15} {result : Word → Word → Bool → Word}
    {flags : Word → Word → State → Bool → FlagValues}
    (hi : DpCompletes i op (plainDpHead b n d) (.shiftImm (plainOperand m)) DpWritten result flags)
    (hn : n.val < 10) (hd : d.val < 10) (hm : m.val < 10) {s : State} (ha : mayAdvance s = true) :
    ∃ t, exec i s = .next t ∧ readX d t = result (readX n s) (readX m s) s.flagC ∧
      (∀ k, k ≠ d → readX k t = readX k s) ∧ t.pc = s.pc + 1 ∧ t.platform = s.platform ∧
      (b = true → HasFlags (flags (readX n s) (readX m s) s s.flagC) t) := by
  obtain ⟨t, ht, -, ⟨⟨hplatform, -, -⟩, -⟩, hrd, hothers, ⟨hpc, -⟩, ⟨-, -, hmode⟩, hflags⟩ :=
    hi s _ (dpRuns_plain hn hd hm ha)
  refine ⟨t, ht, hrd, fun k hk => ?_, hpc, hplatform, fun hb => ?_⟩
  · have other : phys s.mode k ∉ [phys s.mode d] := by simpa [phys_inj] using hk
    rw [readX, hmode, hothers _ other, readX]
  · subst hb; exact hflags

/-- The PC of an instruction with two words of memory above it may go on twice (rule R28). -/
theorem mayAdvance_twice {s : State} (h : s.platform.pcWrap = .wrap ∨ s.pc.toNat + 2 < 2 ^ 24) :
    mayAdvance s = true ∧ ∀ t : State, t.pc = s.pc + 1 → t.platform = s.platform → mayAdvance t = true := by
  refine ⟨mayAdvance_of ?_, fun t hpc hp => mayAdvance_of ?_⟩
  · rcases h with h | h
    · exact .inl h
    · exact .inr (by bv_omega)
  · rw [hpc, hp]
    rcases h with h | h
    · exact .inl h
    · exact .inr (by bv_omega)

/-- An instruction that sets the flags on R4 := R2 op R0, and one on R5 := R3 op R1 after it, whose carry in is the
carry out of the first. -/
theorem exec_pair {i j : Instr} {lower upper : DpOp} {result result' : Word → Word → Bool → Word}
    {flags flags' : Word → Word → State → Bool → FlagValues}
    (hi : DpCompletes i lower (plainDpHead true 2 4) (.shiftImm (plainOperand 0)) DpWritten result flags)
    (hj : DpCompletes j upper (plainDpHead false 3 5) (.shiftImm (plainOperand 1)) DpWritten result' flags')
    {s : State} (hs : s.platform.pcWrap = .wrap ∨ s.pc.toNat + 2 < 2 ^ 24) :
    ∃ t u, exec i s = .next t ∧ exec j t = .next u ∧ readX 4 u = result (readX 2 s) (readX 0 s) s.flagC ∧
      readX 5 u = result' (readX 3 s) (readX 1 s) (flags (readX 2 s) (readX 0 s) s s.flagC).c := by
  obtain ⟨first, second⟩ := mayAdvance_twice hs
  obtain ⟨t, ht, lowerWord, kept, hpc, hplatform, hflags⟩ :=
    exec_plain hi (by decide) (by decide) (by decide) first
  obtain ⟨-, -, carry, -⟩ := hflags rfl
  obtain ⟨u, hu, upperWord, kept', -⟩ :=
    exec_plain hj (by decide) (by decide) (by decide) (second t hpc hplatform)
  refine ⟨t, u, ht, hu, ?_, ?_⟩
  · rw [kept' 4 (by decide), lowerWord]
  · rw [upperWord, kept 3 (by decide), kept 1 (by decide), carry]

/-- Two words joined, as a number. -/
theorem toNat_append_word (a x : Word) : (a ++ x : BitVec 64).toNat = a.toNat * 2 ^ 32 + x.toNat := by
  rw [BitVec.toNat_append, ← Nat.shiftLeft_add_eq_or_of_lt x.isLt, Nat.shiftLeft_eq]

/-- The difference of the upper words, less the borrow of the lower ones, is the upper half of the 64-bit difference. -/
theorem append_sub_append (a b x y : Word) :
    ((a - b - BitVec.ofNat 32 (!(subFlags x y false).c).toNat) ++ (x - y) : BitVec 64) =
      (a ++ x : BitVec 64) - (b ++ y : BitVec 64) := by
  apply BitVec.eq_of_toNat_eq
  simp only [toNat_append_word, BitVec.toNat_sub, BitVec.toNat_ofNat, subFlags, Bool.toNat_false, Nat.add_zero]
  have hb := b.isLt
  have hx := x.isLt
  have hy := y.isLt
  by_cases borrow : y.toNat ≤ x.toNat
  · simp only [borrow, decide_true, Bool.not_true, Bool.toNat_false]
    omega
  · simp only [borrow, decide_false, Bool.not_false, Bool.toNat_true]
    omega

/-- The sum of the upper words and the carry of the lower ones is the upper half of the 64-bit sum. -/
theorem append_add_append (a b x y : Word) :
    ((a + b + BitVec.ofNat 32 (addFlags x y false).c.toNat) ++ (x + y) : BitVec 64) =
      (a ++ x : BitVec 64) + (b ++ y : BitVec 64) := by
  apply BitVec.eq_of_toNat_eq
  simp only [toNat_append_word, BitVec.toNat_add, BitVec.toNat_ofNat, addFlags, Bool.toNat_false, Nat.add_zero]
  have hx := x.isLt
  have hy := y.isLt
  by_cases carry : 2 ^ 32 ≤ x.toNat + y.toNat
  · simp only [carry, decide_true, Bool.toNat_true]
    omega
  · simp only [carry, decide_false, Bool.toNat_false]
    omega

theorem decode_subsR4R2R0 : decode 0xE0524000 = .subShiftImm (plainDpHead true 2 4) (plainOperand 0) := by decide

theorem decode_sbcR5R3R1 : decode 0xE0C35001 = .sbcShiftImm (plainDpHead false 3 5) (plainOperand 1) := by decide

theorem decode_addsR4R2R0 : decode 0xE0924000 = .addShiftImm (plainDpHead true 2 4) (plainOperand 0) := by decide

theorem decode_adcR5R3R1 : decode 0xE0A35001 = .adcShiftImm (plainDpHead false 3 5) (plainOperand 1) := by decide

/-- Settles O24, from what O1 to O4 say of the four instructions: the C flag joins the two words. -/
theorem sixtyFourBitArithmetic : Obligations.SixtyFourBitArithmetic := by
  intro s hs
  obtain ⟨-, adds, -⟩ := addWritesTheSum
  obtain ⟨-, adc, -⟩ := adcWritesTheSumWithCarry
  obtain ⟨-, subs, -⟩ := subWritesTheDifference
  obtain ⟨-, sbc, -⟩ := sbcWritesTheDifferenceWithBorrow
  rw [decode_subsR4R2R0, decode_sbcR5R3R1, decode_addsR4R2R0, decode_adcR5R3R1]
  refine ⟨?difference, ?sum⟩
  case difference =>
    obtain ⟨t, u, ht, hu, lower, upper⟩ := exec_pair (subs _ _).2 (sbc _ _).2 hs
    exact ⟨t, u, ht, hu, by rw [lower, upper]; exact append_sub_append ..⟩
  case sum =>
    obtain ⟨t, u, ht, hu, lower, upper⟩ := exec_pair (adds _ _).2 (adc _ _).2 hs
    exact ⟨t, u, ht, hu, by rw [lower, upper]; exact append_add_append ..⟩

/-! ### TEQP (rules R142, R143) -/

/-- A write of the PSR takes bits 31:26 and 1:0 of the word alone (rules R12, R25). -/
theorem PsrWritten.of_bits {v w : Word} {s t : State} (h : PsrWritten v s t)
    (high : ∀ i, 26 ≤ i → v.getLsbD i = w.getLsbD i) (low : v.extractLsb' 0 2 = w.extractLsb' 0 2) :
    PsrWritten w s t := by
  unfold PsrWritten at h ⊢
  simpa only [high 31 (by decide), high 30 (by decide), high 29 (by decide), high 28 (by decide), high 27 (by decide),
    high 26 (by decide), low] using h

/-- R15 as Rn has its PSR bits zero (rule R122). -/
theorem r15pc_psrBits (s : State) :
    (∀ i, 26 ≤ i → (r15pc 8 s).getLsbD i = false) ∧ (r15pc 8 s).extractLsb' 0 2 = 0 := by
  refine ⟨fun i hi => ?_, ?_⟩
  · rw [r15pc, BitVec.getLsbD_setWidth, BitVec.getLsbD_of_ge (pcAddr s + 8) i hi, Bool.and_false]
  · apply BitVec.eq_of_toNat_eq
    rw [BitVec.extractLsb'_toNat, r15pc_toNat, Nat.shiftRight_zero]
    simp only [BitVec.reduceToNat]
    omega

/-- Settles O25, from what O14 says of TEQ: R15 as Rn changes no PSR bit of the exclusive or. -/
theorem teqpChangesModeMasksAndFlags : Obligations.TeqpChangesModeMasksAndFlags := by
  intro c o s hc ha
  have unhindered : hazardHit (dpRegisters .teq ⟨c, true, .r15, .r15⟩ (.imm o)) s = false :=
    hazardHit_of_low (fun i hi => by simp [dpRegisters, readsRn, writesRd, operand2Registers] at hi) s
  obtain ⟨imm, -, -⟩ := teqSetsTheFlagsOfTheExclusiveOr
  obtain ⟨t, ht, hmem, -, hregs, hpc, hpsr, hhazard⟩ := (imm ⟨c, true, .r15, .r15⟩ o).2 s _
    ⟨hc, unhindered, rfl, fun _ => ha⟩
  obtain ⟨high, low⟩ := r15pc_psrBits s
  refine ⟨t, ht, hregs, hmem, hpc, hpsr.of_bits (fun i hi => ?_) ?_, hhazard⟩
  · rw [BitVec.getLsbD_xor, operand1]
    change ((r15pc 8 s).getLsbD i ^^ _) = _
    rw [high i hi, Bool.false_xor]
  · rw [BitVec.extractLsb'_xor, operand1]
    change ((r15pc 8 s).extractLsb' 0 2 ^^^ _) = _
    rw [low]; exact BitVec.zero_xor

/-! ### Words of the spec -/

/-- Settles O58, word by word. -/
theorem exampleWordsDecode : Obligations.ExampleWordsDecode := by
  refine ⟨?_, ?_, ?_, ?_, ?_, ?_, ?_, ?_, ?_, ?_⟩ <;> decide

end Sys2Proof.Machine

/-! SUPPORT. The addresses of transfers, and the forms of a single transfer: the word of each names its operation, and
each executes as `singleTransfer` (rules R87, R171, R176, R192). -/

namespace Sys2Proof

/-- Under mask 0x0C500000 a single transfer word keeps B and L; bits 27:26 are 01 (rule R87). -/
theorem encodeSdt_and_mask (i b l : BitVec 1) (h : SdtHead) (x : BitVec 12) :
    encodeSdt i b l h x &&& 0x0C500000 = 0#4 ++ 1#2 ++ 0#3 ++ b ++ 0#1 ++ l ++ 0#20 := by
  change encodeSdt i b l h x &&&
    (0#4 ++ 3#2 ++ 0#1 ++ 0#1 ++ 0#1 ++ BitVec.allOnes 1 ++ 0#1 ++ BitVec.allOnes 1 ++ 0#4 ++ 0#4 ++ 0#12) = _
  rw [encodeSdt, BitVec.and_append]
  simp only [BitVec.and_append, BitVec.and_zero, BitVec.and_allOnes]
  revert b l
  decide

end Sys2Proof

namespace Sys2Proof.Machine

/-- The reserved word of an offset shifted by a register is a single transfer word with I = 1 and the register form of
operand 2 in bits 11:0 (rules R85, R87). -/
theorem encode_regShiftInstr (op : SdtOp) (h : SdtHead) (o : ShiftRegOperand) :
    encode (regShiftInstr op h o) =
      encodeSdt 1 (.ofBool (decide (sdtSize op = .byte))) (.ofBool (decide (sdtKind op = .read))) h
        (shiftRegBits o) := by
  apply BitVec.eq_of_toNat_eq
  simp only [regShiftInstr, encode, encodeSdt, shiftRegBits, BitVec.toNat_append, Nat.shiftLeft_or_distrib,
    ← Nat.shiftLeft_add, Nat.or_assoc]
  exact congrArg (_ ||| ·) (Nat.or_assoc (1 <<< 26) (1 <<< 25) _)

/-- Bits 27:26, B and L of the words of an operation (rules R87, R94). -/
def sdtPattern (op : SdtOp) : Word :=
  0#4 ++ 1#2 ++ 0#3 ++ BitVec.ofBool (decide (sdtSize op = .byte)) ++ 0#1
    ++ BitVec.ofBool (decide (sdtKind op = .read)) ++ 0#20

/-- The word of an instruction has the bits B and L of an operation, and the instruction executes as its single
transfer; where the offset is shifted by a register the parameter allows or refuses it (rules R87, R94, R171, log 45). -/
structure IsSdt (i : Instr) (op : SdtOp) (h : SdtHead) (o : Offset) : Prop where
  word : encode i &&& 0x0C500000 = sdtPattern op
  executes : ∀ s, (∀ r, o = .regShift r → s.platform.ldrRegShiftByReg = .allow) → exec i s = singleTransfer op h o s
  refuses : ∀ s r, o = .regShift r → s.platform.ldrRegShiftByReg = .refuse → condPassed h.cond s = true →
    exec i s = .refused .reservedOffset

/-- Where the offset is not shifted by a register the parameter has no say. -/
theorem IsSdt.of_not_regShift {i : Instr} {op : SdtOp} {h : SdtHead} {o : Offset} (ho : ∀ r, o ≠ .regShift r)
    (he : ∀ s, exec i s = singleTransfer op h o s) (hw : encode i &&& 0x0C500000 = sdtPattern op) : IsSdt i op h o :=
  ⟨hw, fun s _ => he s, fun _ r hr => absurd hr (ho r)⟩

/-- The eight constructors and the form of the reserved row are the transfers of their operations. -/
theorem everySdt_isSdt : EverySdt IsSdt := by
  have form {i op h o} := @IsSdt.of_not_regShift i op h o
  have word := encodeSdt_and_mask
  refine ⟨
    fun h v => form nofun (fun _ => rfl) (word 0 0 1 h v), fun h o => form nofun (fun _ => rfl) (word 1 0 1 h _),
    fun h v => form nofun (fun _ => rfl) (word 0 1 1 h v), fun h o => form nofun (fun _ => rfl) (word 1 1 1 h _),
    fun h v => form nofun (fun _ => rfl) (word 0 0 0 h v), fun h o => form nofun (fun _ => rfl) (word 1 0 0 h _),
    fun h v => form nofun (fun _ => rfl) (word 0 1 0 h v), fun h o => form nofun (fun _ => rfl) (word 1 1 0 h _),
    fun op h o => ⟨?regShiftWord, ?allowed, ?refused⟩⟩
  case regShiftWord => rw [encode_regShiftInstr]; exact word ..
  case allowed => exact fun s ha => exec_regShiftInstr op h o (ha o rfl)
  case refused => exact fun s _ _ hr hc => exec_reservedSdt hc (.inl hr) _

/-- A claim about every single transfer follows from one about the instructions that are one. -/
theorem everySdt_of_isSdt {claim : Instr → SdtOp → SdtHead → Offset → Prop}
    (hc : ∀ i op h o, IsSdt i op h o → claim i op h o) : EverySdt claim := by
  obtain ⟨h1, h2, h3, h4, h5, h6, h7, h8, h9⟩ := everySdt_isSdt
  exact ⟨fun h v => hc _ _ _ _ (h1 h v), fun h o => hc _ _ _ _ (h2 h o), fun h v => hc _ _ _ _ (h3 h v),
    fun h o => hc _ _ _ _ (h4 h o), fun h v => hc _ _ _ _ (h5 h v), fun h o => hc _ _ _ _ (h6 h o),
    fun h v => hc _ _ _ _ (h7 h v), fun h o => hc _ _ _ _ (h8 h o), fun op h o => hc _ _ _ _ (h9 op h o)⟩

/-- An offset shifted by a register is the value of operand 2 of that form (rule R171, log 45). -/
theorem offsetValue_regShift {rs : Reg} {ty : ShiftType} {j : Fin 15} {b : Shifted} {s : State}
    (hb : operand2 (.shiftReg ⟨rs, ty, .gpr j⟩) s = .ok b) :
    offsetValue (.regShift ⟨rs, ty, .gpr j⟩) s = .ok b.value := by
  have shifted : shiftByRegister ty rs (readX j s) s = .ok b := hb
  simp only [offsetValue, shifted]

/-- Settles O28: the offset, the address and the indexed base by the form, the block by P and U. -/
theorem transferAddresses : Obligations.TransferAddresses := by
  refine ⟨fun v s => ?imm, fun a ty j s => rfl, fun ty i j s hs => ?regShift, fun h x s => ?single,
    fun h base k => ?block⟩
  case imm => exact congrArg Except.ok (BitVec.ofNat_toNat 32 v).symm
  case regShift => exact offsetValue_regShift (operand2_shiftReg hs ty (.gpr j))
  case single =>
    exact ⟨fun hu => if_pos hu, fun hu => if_neg (by simp [hu]), fun hp => if_pos hp,
      fun hp => if_neg (by simp [hp])⟩
  case block =>
    refine ⟨?_, ?_, ?_, ?_, fun hu => if_pos hu, fun hu => if_neg (by simp [hu])⟩
    all_goals
      intro hp hu
      simp only [blockStart, hp, hu]

end Sys2Proof.Machine

/-! SUPPORT. What LDR, LDRB, STR and STRB leave: the transfer at a granted address, then the write-back (rules R54, R171
to R175). -/

namespace Sys2Proof.Machine

section
variable {i : Instr} {op : SdtOp} {h : SdtHead} {o : Offset}

/-- A granted transfer of an instruction is carried out. -/
theorem IsSdt.exec_granted {x : Word} {s : State} (hi : IsSdt i op h o) (ha : SdtAttempts op h o x s)
    (hg : SdtGranted op h x s) :
    exec i s = .next (concluded (sdtAssignsPc op h) (sdtTransfer op h x (clearHazard s))) := by
  rw [hi.executes s ha.allow, singleTransfer_granted ha hg]

/-! ### Loads -/

/-- The word LDR loads: the aligned word rotated by the two low bits of the address (rules R54, R172, log 2). -/
theorem sdtTransfer_ldr (h : SdtHead) (x : Word) (s : State) :
    sdtTransfer .ldr h x (clearHazard s) =
      writeBack h (indexedAddress h x s) (loadReg h.rd
        ((wordAt (transferAddress h x s) s).rotateRight (8 * ((transferAddress h x s).toNat % 4))) (clearHazard s)) := by
  have low : ((transferAddress h x s).extractLsb' 0 2).toNat = (transferAddress h x s).toNat % 4 :=
    BitVec.extractLsb'_toNat ..
  simp only [sdtTransfer, transferAddress_clearHazard, indexedAddress_clearHazard, loadWord_clearHazard, rotatedWord, low]
  rfl

/-- The word LDRB loads: the byte at the address with zeros above (rule R173). -/
theorem sdtTransfer_ldrb {h : SdtHead} {x : Word} {s : State} (hl : (transferAddress h x s).toNat < 0x4000000) :
    sdtTransfer .ldrb h x (clearHazard s) =
      writeBack h (indexedAddress h x s) (loadReg h.rd
        (BitVec.ofNat 32 (s.mem.read (transferAddress h x s).toNat).toNat) (clearHazard s)) := by
  simp only [sdtTransfer, transferAddress_clearHazard, indexedAddress_clearHazard, clearHazard_mem, sdtSize,
    busAddress_byte_toNat hl, BitVec.ofNat_toNat]

/-- A load whose transfer loads `value` and then writes the base back is complete. -/
theorem IsSdt.loadCompletes {value : Word → State → Word} (hk : sdtKind op = .read)
    (hv : ∀ x s, (transferAddress h x s).toNat < 0x4000000 → sdtTransfer op h x (clearHazard s) =
      writeBack h (indexedAddress h x s) (loadReg h.rd (value (transferAddress h x s) s) (clearHazard s)))
    (hi : IsSdt i op h o) : SdtLoadCompletes i op h o value := by
  intro s x ha hg
  exact ⟨_, hi.exec_granted ha hg, by rw [hv x s hg.1]; exact sdtLoaded_writeBack hk⟩

theorem IsSdt.ldr_completes (hi : IsSdt i .ldr h o) :
    SdtLoadCompletes i .ldr h o fun addr s => (wordAt addr s).rotateRight (8 * (addr.toNat % 4)) :=
  hi.loadCompletes rfl fun x s _ => sdtTransfer_ldr h x s

theorem IsSdt.ldrb_completes (hi : IsSdt i .ldrb h o) :
    SdtLoadCompletes i .ldrb h o fun addr s => BitVec.ofNat 32 (s.mem.read addr.toNat).toNat :=
  hi.loadCompletes rfl fun _ _ => sdtTransfer_ldrb

/-! ### Stores -/

/-- A state that a store of memory alone leaves, then the base written back. -/
theorem sdtStored_of_storesOnly {x : Word} {s t : State} {bytes : List Nat} (ht : StoresOnly (clearHazard s) t)
    (hmem : ∀ k, k ∉ bytes → t.mem.read k = s.mem.read k) :
    SdtStored h x bytes s (advance (writeBack h (indexedAddress h x s) t)) := by
  obtain ⟨hregs, hpc, hpsr, hhz, hrest⟩ := ht
  exact sdtStored_writeBack (fun p => (hregs p).trans (readPhys_clearHazard p s)) hmem hpsr hrest hpc hhz

theorem storesOnly_storeByte (a : Addr) (v : Byte) (s : State) : StoresOnly s (storeByte a v s) := by
  simp [StoresOnly, SamePsr, SameFlags, SameControl, SameRest, SamePlatform]

/-- A byte outside the word stored is as before (rule R53). -/
theorem read_storeWord_of_not_mem {s : State} (hm : s.mem.wf = true) (addr v : Word) {k : Nat}
    (hk : k ∉ accessBytes (busAddress addr .word).toNat .word) :
    (storeWord (busAddress addr .word) v s).mem.read k = s.mem.read k := by
  rw [storeWord_mem]
  refine Memory.read_writeWord_outside hm _ (busAddress_word_lt addr) v ?_
  simp only [accessBytes, List.mem_cons, List.not_mem_nil, or_false, not_or] at hk
  omega

/-- The word STR stores is Rd as it was before the write-back (rules R54, R174). -/
theorem sdtTransfer_str (h : SdtHead) (x : Word) (s : State) :
    sdtTransfer .str h x (clearHazard s) =
      writeBack h (indexedAddress h x s)
        (storeWord (busAddress (transferAddress h x s) .word) (readStored h.rd s) (clearHazard s)) := by
  simp only [sdtTransfer, transferAddress_clearHazard, indexedAddress_clearHazard, readStored_clearHazard, sdtSize]

/-- The byte STRB stores is bits 7:0 of Rd as it was before the write-back (rule R175). -/
theorem sdtTransfer_strb (h : SdtHead) (x : Word) (s : State) :
    sdtTransfer .strb h x (clearHazard s) =
      writeBack h (indexedAddress h x s)
        (storeByte (busAddress (transferAddress h x s) .byte) ((readStored h.rd s).extractLsb' 0 8) (clearHazard s)) := by
  simp only [sdtTransfer, transferAddress_clearHazard, indexedAddress_clearHazard, readStored_clearHazard, sdtSize,
    byteOfWord, Nat.mul_zero]

/-- A granted STR leaves Rd in the word at its address; for R15 the PC twelve ahead with the PSR (rules R54, R174). -/
theorem IsSdt.str_completes {x : Word} {s : State} (hi : IsSdt i .str h o) (hm : s.mem.wf = true)
    (ha : SdtAttempts .str h o x s) (hg : SdtGranted .str h x s) :
    ∃ t, exec i s = .next t ∧
      SdtStored h x (accessBytes (busAddress (transferAddress h x s) .word).toNat .word) s t ∧
      (∀ d, h.rd = .gpr d → wordAt (transferAddress h x s) t = readX d s) ∧
      (h.rd = .r15 → IsR15Word (s.pc + 3) s (wordAt (transferAddress h x s) t)) := by
  have he := hi.exec_granted ha hg
  rw [sdtTransfer_str] at he
  obtain ⟨-, -, -, -, -, -, -, -, wmem, -, -, wplatform, -⟩ := writeBack_frame h (indexedAddress h x s)
    (storeWord (busAddress (transferAddress h x s) .word) (readStored h.rd s) (clearHazard s))
  refine ⟨_, he, sdtStored_of_storesOnly (storesOnly_storeWord ..) fun k => read_storeWord_of_not_mem hm _ _, ?_⟩
  rw [wordAt, loadWord_of_mem ((concluded_platform ..).trans wplatform) ((concluded_mem ..).trans wmem),
    loadWord_storeWord (s := clearHazard s) hm]
  exact ⟨fun d hd => by rw [hd]; rfl, fun hd => by rw [hd]; exact isR15Word_twelve s⟩

/-- A granted STRB leaves bits 7:0 of Rd in the byte at its address (rule R175). -/
theorem IsSdt.strb_completes {x : Word} {s : State} (hi : IsSdt i .strb h o) (hm : s.mem.wf = true)
    (ha : SdtAttempts .strb h o x s) (hg : SdtGranted .strb h x s) :
    ∃ t, exec i s = .next t ∧ SdtStored h x [(transferAddress h x s).toNat] s t ∧
      (∀ d, h.rd = .gpr d → t.mem.read (transferAddress h x s).toNat = (readX d s).extractLsb' 0 8) := by
  have he := hi.exec_granted ha hg
  rw [sdtTransfer_strb] at he
  obtain ⟨hl, -⟩ := hg
  obtain ⟨-, -, -, -, -, -, -, -, wmem, -⟩ := writeBack_frame h (indexedAddress h x s)
    (storeByte (busAddress (transferAddress h x s) .byte) ((readStored h.rd s).extractLsb' 0 8) (clearHazard s))
  have stored := Memory.read_write hm (transferAddress h x s).toNat ((readStored h.rd s).extractLsb' 0 8)
  refine ⟨_, he, sdtStored_of_storesOnly (storesOnly_storeByte ..) fun k hk => ?other, fun d hd => ?byte⟩
  case other =>
    rw [storeByte_mem, busAddress_byte_toNat hl, clearHazard_mem, stored, if_neg (by simpa using hk)]
  case byte =>
    rw [concluded_mem, wmem, storeByte_mem, busAddress_byte_toNat hl, clearHazard_mem, stored, if_pos rfl, hd]
    rfl

end

/-- Settles O29, its three forms alike. -/
theorem ldrLoadsAWord : Obligations.LdrLoadsAWord := by
  obtain ⟨imm, reg, -, -, -, -, -, -, regShift⟩ := everySdt_isSdt
  have ldr {i h o} (hi : IsSdt i .ldr h o) := And.intro hi.word hi.ldr_completes
  exact ⟨fun h v => ldr (imm h v), fun h o => ldr (reg h o), fun h o => ldr (regShift .ldr h o)⟩

/-- Settles O30, its three forms alike. -/
theorem ldrbLoadsAByte : Obligations.LdrbLoadsAByte := by
  obtain ⟨-, -, imm, reg, -, -, -, -, regShift⟩ := everySdt_isSdt
  have ldrb {i h o} (hi : IsSdt i .ldrb h o) := And.intro hi.word hi.ldrb_completes
  exact ⟨fun h v => ldrb (imm h v), fun h o => ldrb (reg h o), fun h o => ldrb (regShift .ldrb h o)⟩

/-- Settles O31, its three forms alike. -/
theorem strStoresAWord : Obligations.StrStoresAWord := by
  obtain ⟨-, -, -, -, imm, reg, -, -, regShift⟩ := everySdt_isSdt
  exact ⟨fun h v => ⟨(imm h v).word, fun _ _ => (imm h v).str_completes⟩,
    fun h o => ⟨(reg h o).word, fun _ _ => (reg h o).str_completes⟩,
    fun h o => ⟨(regShift .str h o).word, fun _ _ => (regShift .str h o).str_completes⟩⟩

/-- Settles O32, its three forms alike. -/
theorem strbStoresAByte : Obligations.StrbStoresAByte := by
  obtain ⟨-, -, -, -, -, -, imm, reg, regShift⟩ := everySdt_isSdt
  exact ⟨fun h v => ⟨(imm h v).word, fun _ _ => (imm h v).strb_completes⟩,
    fun h o => ⟨(reg h o).word, fun _ _ => (reg h o).strb_completes⟩,
    fun h o => ⟨(regShift .strb h o).word, fun _ _ => (regShift .strb h o).strb_completes⟩⟩

end Sys2Proof.Machine

/-! SUPPORT. The forms of a transfer to which the spec gives no meaning (rules R172, R173, R175, R176, R197, R201,
D15). -/

namespace Sys2Proof.Machine

/-- The names under which a single transfer of a form without meaning is refused: those of the forms, or that of a
parameter that refuses (log 16, log 17, log 18, log 45). -/
def RefusedByForm (why : Refusal) (s : State) : Prop :=
  why ∈ [.r15AsOffset, .r15AsShiftAmount, .r15WriteBack, .r15ByteTransfer, .loadOfWrittenBackBase] ∨
    (why = .translatedTransfer ∧ s.platform.transBit = .refuse) ∨
    (why = .shiftByThirtyTwoOrMore ∧ s.platform.shiftGe32 = .refuse) ∨
    (why = .reservedOffset ∧ s.platform.ldrRegShiftByReg = .refuse)

/-- A shift by a register is refused for R15, or by the parameter of the amounts of 32 and more (rule R132, D14,
D15). -/
theorem refusedByForm_shiftByRegister {t : ShiftType} {rs : Reg} {v : Word} {s : State} {why : Refusal}
    (hw : shiftByRegister t rs v s = .error why) : RefusedByForm why s := by
  cases rs with
  | r15 => cases hw; simp [RefusedByForm]
  | gpr j =>
    simp only [shiftByRegister] at hw
    split at hw
    next hr => cases hw; simp [RefusedByForm, hr]
    next => cases hw

/-- An offset is refused for R15, or for what its shift is refused for (rules R171, R176). -/
theorem refusedByForm_offsetValue {o : Offset} {s : State} {why : Refusal} (hw : offsetValue o s = .error why) :
    RefusedByForm why s := by
  unfold offsetValue at hw
  split at hw
  next => cases hw
  next =>
    split at hw
    next => cases hw; simp [RefusedByForm]
    next => cases hw
  next =>
    split at hw
    next => cases hw; simp [RefusedByForm]
    next =>
      split at hw
      next hs => cases hw; exact refusedByForm_shiftByRegister hs
      next => cases hw

/-- A form is forbidden under its own name or that of the parameter `trans_bit`. -/
theorem refusedByForm_sdtForbidden {op : SdtOp} {h : SdtHead} {s : State} {why : Refusal}
    (hw : sdtForbidden op h s = some why) : RefusedByForm why s := by
  unfold sdtForbidden at hw
  split_ifs at hw with translated
  all_goals cases hw
  case pos => simp [RefusedByForm, translated]
  all_goals simp [RefusedByForm]

/-- A single transfer whose offset has no value, or whose form is forbidden, is refused. -/
theorem singleTransfer_refusedByForm {op : SdtOp} {h : SdtHead} {o : Offset} {s : State}
    (hc : condPassed h.cond s = true) (hz : hazardHit (sdtRegisters h o) s = false)
    (hf : (∃ why, offsetValue o s = .error why) ∨ (∃ why, sdtForbidden op h s = some why)) :
    ∃ why, singleTransfer op h o s = .refused why ∧ RefusedByForm why s := by
  cases ho : offsetValue o s with
  | error why => exact ⟨why, singleTransfer_refused hc hz ho, refusedByForm_offsetValue ho⟩
  | ok x =>
    rcases hf with ⟨why, hw⟩ | ⟨why, hw⟩
    · cases ho.symm.trans hw
    · refine ⟨why, ?_, refusedByForm_sdtForbidden hw⟩
      rw [singleTransfer, conditional_passed hc hz, sdtBody, offsetValue_clearHazard, sdtForbidden_clearHazard, ho, hw]

/-- R15 as offset register or as the register of the shift amount leaves an offset without a value (rule R176, D15). -/
theorem offsetValue_r15 {o : Offset} {s : State}
    (ho : (∃ a ty, o = .reg ⟨a, ty, .r15⟩) ∨ (∃ rs ty, o = .regShift ⟨rs, ty, .r15⟩) ∨
      (∃ ty rm, o = .regShift ⟨.r15, ty, rm⟩)) : ∃ why, offsetValue o s = .error why := by
  rcases ho with ⟨a, ty, rfl⟩ | ⟨rs, ty, rfl⟩ | ⟨ty, rm, rfl⟩
  · exact ⟨_, rfl⟩
  · exact ⟨_, rfl⟩
  · cases rm <;> exact ⟨_, rfl⟩

/-- What a single transfer that is not forbidden is none of (rules R172, R173, R175, R176, R177). -/
theorem sdtForbidden_eq_none_iff {op : SdtOp} {h : SdtHead} {s : State} :
    sdtForbidden op h s = none ↔
      ¬ (isTranslated h = true ∧ s.platform.transBit = .refuse) ∧ ¬ (h.rn = .r15 ∧ writesBase h = true) ∧
        ¬ (sdtSize op = .byte ∧ h.rd = .r15) ∧ ¬ (op = .ldr ∧ h.rd = h.rn ∧ writesBase h = true) := by
  unfold sdtForbidden
  split_ifs with translated base byte loaded
  · exact iff_of_false nofun fun ⟨n, _⟩ => n translated
  · exact iff_of_false nofun fun ⟨_, n, _⟩ => n base
  · exact iff_of_false nofun fun ⟨_, _, n, _⟩ => n byte
  · exact iff_of_false nofun fun ⟨_, _, _, n⟩ => n loaded
  · exact iff_of_true rfl ⟨translated, base, byte, loaded⟩

/-- Write-back to R15, a byte transfer of R15 and LDR of its written-back base are forbidden (D15). -/
theorem sdtForbidden_of_form {op : SdtOp} {h : SdtHead} (s : State)
    (hf : (h.rn = .r15 ∧ writesBase h = true) ∨ (sdtSize op = .byte ∧ h.rd = .r15) ∨
      (op = .ldr ∧ h.rd = h.rn ∧ writesBase h = true)) : ∃ why, sdtForbidden op h s = some why := by
  refine Option.ne_none_iff_exists'.mp fun hn => ?_
  obtain ⟨-, base, byte, loaded⟩ := sdtForbidden_eq_none_iff.mp hn
  rcases hf with hf | hf | hf
  · exact base hf
  · exact byte hf
  · exact loaded hf

theorem sdtSize_byte {op : SdtOp} (ho : op = .ldrb ∨ op = .strb) : sdtSize op = .byte := by
  rcases ho with rfl | rfl <;> rfl

/-- Post-indexing or W = 1 writes the base back (rules R171, R177). -/
theorem writesBase_iff {h : SdtHead} : writesBase h = true ↔ h.p = false ∨ h.w = true := by
  simp [writesBase]

/-- An instruction refused with the transfer it executes as, or with the reserved row it stands in, is refused. -/
theorem IsSdt.refusedByForm {i : Instr} {op : SdtOp} {h : SdtHead} {o : Offset} {s : State} (hi : IsSdt i op h o)
    (hc : condPassed h.cond s = true) (ht : ∃ why, singleTransfer op h o s = .refused why ∧ RefusedByForm why s) :
    ∃ why, exec i s = .refused why ∧ RefusedByForm why s := by
  by_cases ha : ∀ r, o = .regShift r → s.platform.ldrRegShiftByReg = .allow
  · rwa [hi.executes s ha]
  · push Not at ha
    obtain ⟨r, ho, hp⟩ := ha
    cases hr : s.platform.ldrRegShiftByReg with
    | allow => exact absurd hr hp
    | refuse => exact ⟨_, hi.refuses s r ho hr hc, .inr (.inr (.inr ⟨rfl, hr⟩))⟩

/-- The block forms without meaning: base R15, and write-back with the user bank (rules R192, R197, R201, D15,
log 19). -/
theorem blockForbidden_of_form (h : BlockHead) (s : State) :
    (h.rn = .r15 → ∀ b, blockForbidden h b s = some .r15BlockBase) ∧
      (h.rn ≠ .r15 → misalignedRefused (readRn 8 h.rn s) .word s = false → s.platform.ldmUserBank = .family →
        h.w = true → blockForbidden h true s = some .userBankWriteBack) := by
  refine ⟨fun hn b => if_pos hn, fun hn hm hu hw => ?_⟩
  rw [blockForbidden, if_neg hn, hm]
  simp [hu, hw]

/-- Settles O34: each single form leaves the offset without a value or is forbidden, each block form is forbidden. -/
theorem refusedTransferForms : Obligations.RefusedTransferForms := by
  refine ⟨everySdt_of_isSdt fun i op h o hi s hc hz hf => ?single, fun h s hc hz => ?block⟩
  case single =>
    refine hi.refusedByForm hc (singleTransfer_refusedByForm hc hz ?_)
    rcases hf with ho | ho | ho | ⟨hn, hw⟩ | ⟨hb, hd⟩ | ⟨hl, hd, hw⟩
    · exact .inl (offsetValue_r15 (.inl ho))
    · exact .inl (offsetValue_r15 (.inr (.inl ho)))
    · exact .inl (offsetValue_r15 (.inr (.inr ho)))
    · exact .inr (sdtForbidden_of_form s (.inl ⟨hn, writesBase_iff.mpr hw⟩))
    · exact .inr (sdtForbidden_of_form s (.inr (.inl ⟨sdtSize_byte hb, hd⟩)))
    · exact .inr (sdtForbidden_of_form s (.inr (.inr ⟨hl, hd, writesBase_iff.mpr hw⟩)))
  case block =>
    obtain ⟨base, userBank⟩ := blockForbidden_of_form h s
    refine ⟨fun hn => ?_, fun hn hm hu hw hs => ⟨fun h15 => ?_, ?_⟩⟩
    · obtain ⟨ldm, stm⟩ := execBlock_forbidden (why := .r15BlockBase) hc hz
      exact ⟨ldm (base hn _), stm (base hn _)⟩
    · have bank : loadUsesUserBank h = true := by
        have unlisted : inList h.list .r15 = false := h15
        simp [loadUsesUserBank, hs, unlisted]
      exact (execBlock_forbidden hc hz).1 (bank ▸ userBank hn hm hu hw)
    · exact (execBlock_forbidden hc hz).2 (hs ▸ userBank hn hm hu hw)

end Sys2Proof.Machine

/-! SUPPORT. Block data transfer: the words of LDM and STM, what the accesses and the write-back leave alone, and what
a failed transfer leaves (rules R88, R191 to R200). -/

namespace Sys2Proof

/-- Under mask 0x0E100000 a block transfer word keeps L; bits 27:25 are 100 (rule R88). -/
theorem encodeBlock_and_mask (l : BitVec 1) (h : BlockHead) :
    encodeBlock l h &&& 0x0E100000 = 0#4 ++ 4#3 ++ 0#4 ++ l ++ 0#20 := by
  change encodeBlock l h &&&
    (0#4 ++ BitVec.allOnes 3 ++ 0#1 ++ 0#1 ++ 0#1 ++ 0#1 ++ BitVec.allOnes 1 ++ 0#4 ++ 0#16) = _
  rw [encodeBlock, BitVec.and_append]
  simp only [BitVec.and_append, BitVec.and_zero, BitVec.and_allOnes]
  revert l
  decide

end Sys2Proof

namespace Sys2Proof.Machine

/-! ### What the words of a block leave alone -/

/-- Two states that differ in registers and memory alone. -/
def TransferOnly (s t : State) : Prop := SameForEntry s t ∧ t.hazard = s.hazard ∧ t.freeCount = s.freeCount

theorem SameForEntry.mode {s t : State} (h : SameForEntry s t) : t.mode = s.mode := by
  obtain ⟨-, ⟨-, -, -, hmode⟩, -⟩ := h
  exact hmode

theorem SameForEntry.platform {s t : State} (h : SameForEntry s t) : t.platform = s.platform := by
  obtain ⟨-, -, hplatform, -⟩ := h
  exact hplatform

theorem TransferOnly.trans {s t u : State} (ht : TransferOnly s t) (hu : TransferOnly t u) : TransferOnly s u := by
  obtain ⟨entry, hz, free⟩ := ht
  obtain ⟨entry', hz', free'⟩ := hu
  exact ⟨entry.trans entry', hz'.trans hz, free'.trans free⟩

theorem transferOnly_loadRegs (m : Mode) (pairs : List (Reg × Word)) (s : State) :
    TransferOnly s (loadRegs m pairs s) := by
  obtain ⟨hpc, hpsr, -, hz, hplatform, hfree⟩ := loadRegs_frame m pairs s
  exact ⟨⟨hpc, hpsr, hplatform⟩, hz, hfree⟩

theorem transferOnly_storeAll (pairs : List (Word × Word)) (s : State) : TransferOnly s (storeAll pairs s) := by
  obtain ⟨-, hpc, hpsr, hz, hplatform, hfree⟩ := storesOnly_storeAll pairs s
  exact ⟨⟨hpc, hpsr, hplatform⟩, hz, hfree⟩

theorem transferOnly_blockWriteBack (h : BlockHead) (n : Fin 15) (v : Word) (s : State) :
    TransferOnly s (blockWriteBack h n v s) := by
  obtain ⟨hpc, hpsr, -, hz, ⟨hplatform, hfree⟩, -⟩ := blockWriteBack_frame h n v s
  exact ⟨⟨hpc, hpsr, hplatform⟩, hz, hfree⟩

theorem blockWriteBack_mem (h : BlockHead) (n : Fin 15) (v : Word) (s : State) :
    (blockWriteBack h n v s).mem = s.mem := by
  obtain ⟨-, -, hmem, -⟩ := blockWriteBack_frame h n v s
  exact hmem

/-- Write-back changes the base register alone, and only where W = 1 (rule R192). -/
theorem readPhys_blockWriteBack (p : PhysReg) (h : BlockHead) (n : Fin 15) (v : Word) (s : State) :
    readPhys p (blockWriteBack h n v s) = if p ∈ blockWrittenBase h n s then v else readPhys p s := by
  obtain ⟨-, -, -, -, -, hread⟩ := blockWriteBack_frame h n v s
  exact hread p

/-- The written base depends on the mode alone. -/
theorem blockWrittenBase_congr {s t : State} (hm : t.mode = s.mode) (h : BlockHead) (n : Fin 15) :
    blockWrittenBase h n t = blockWrittenBase h n s := by
  simp only [blockWrittenBase, hm]

theorem mem_blockWrittenBase {h : BlockHead} (hw : h.w = true) (n : Fin 15) (s : State) :
    phys s.mode n ∈ blockWrittenBase h n s := by
  simp [blockWrittenBase, hw]

end Sys2Proof.Machine

/-! SUPPORT. What LDM leaves: the write-back, then the listed registers, R15 last (rules R193, R195 to R197). -/

namespace Sys2Proof.Machine

/-! ### The general registers -/

/-- The state of an LDM that has written its base back and loaded its general registers (rules R193, R195). -/
def ldmLoaded (h : BlockHead) (n : Fin 15) (s : State) : State :=
  loadRegs (bankMode (loadUsesUserBank h) s) (ldmPairs h n s)
    (blockWriteBack h n (blockFinal h (readX n s) (listCount h.list)) (clearHazard s))

theorem transferOnly_ldmLoaded (h : BlockHead) (n : Fin 15) (s : State) :
    TransferOnly (clearHazard s) (ldmLoaded h n s) :=
  (transferOnly_blockWriteBack ..).trans (transferOnly_loadRegs ..)

theorem ldmLoaded_mem (h : BlockHead) (n : Fin 15) (s : State) : (ldmLoaded h n s).mem = s.mem := by
  obtain ⟨-, -, hmem, -⟩ := loadRegs_frame (bankMode (loadUsesUserBank h) s) (ldmPairs h n s)
    (blockWriteBack h n (blockFinal h (readX n s) (listCount h.list)) (clearHazard s))
  exact hmem.trans (blockWriteBack_mem ..)

/-- A listed register holds its word (rules R191, R193), also where it is the base (rule R195). -/
theorem readPhys_ldmLoaded_listed {h : BlockHead} {i : Fin 15} (hi : h.list.getLsbD i.val = true) (n : Fin 15)
    (s : State) :
    readPhys (phys (bankMode (loadUsesUserBank h) s) i) (ldmLoaded h n s) =
      wordAt (blockAddressOf h (readX n s) i.val) s :=
  readPhys_loadRegs_of_mem (nodup_ldmPairs h n s)
    (mem_ldmPairs.mpr ⟨i.val, by omega, hi, by rw [regOfNat_lt]⟩) _

theorem eq_of_regOfNat_eq_gpr {j : Nat} {i : Fin 15} (h : regOfNat j = .gpr i) : j = i.val := by
  unfold regOfNat at h
  split at h
  · exact congrArg Fin.val (Reg.gpr.inj h)
  · cases h

/-- A register that is not listed is as the write-back leaves it (rules R192, R193). -/
theorem readPhys_ldmLoaded_unlisted {h : BlockHead} {n : Fin 15} {s : State} {p : PhysReg}
    (hp : p ∉ listedPhys (bankMode (loadUsesUserBank h) s) h.list) :
    readPhys p (ldmLoaded h n s) =
      if p ∈ blockWrittenBase h n s then blockFinal h (readX n s) (listCount h.list) else readPhys p s := by
  rw [ldmLoaded, readPhys_loadRegs_of_not_mem, readPhys_blockWriteBack]
  · rfl
  · rintro i v hv rfl
    obtain ⟨j, -, hj, hpair⟩ := mem_ldmPairs.mp hv
    obtain ⟨hreg, -⟩ := Prod.mk.inj hpair
    exact hp (mem_listedPhys.mpr ⟨i, eq_of_regOfNat_eq_gpr hreg.symm ▸ hj, rfl⟩)

/-- A base that is written back and not listed holds `final` (rule R192): with write-back the listed registers are those
of the current mode (rule R201). -/
theorem readPhys_ldmLoaded_base {h : BlockHead} {n : Fin 15} {s : State}
    (ha : BlockAttempts h n (loadUsesUserBank h) s) (hw : h.w = true) (hn : h.list.getLsbD n.val = false) :
    readPhys (phys s.mode n) (ldmLoaded h n s) = blockFinal h (readX n s) (listCount h.list) := by
  obtain ⟨-, -, -, -, -, userBank⟩ := ha
  have hbank : bankMode (loadUsesUserBank h) s = s.mode := by
    cases hu : loadUsesUserBank h with
    | false => rfl
    | true => exact absurd hw (by simp [userBank hu])
  rw [readPhys_ldmLoaded_unlisted, if_pos (mem_blockWrittenBase hw n s)]
  rw [hbank, mem_listedPhys]
  rintro ⟨i, hi, hp⟩
  rw [(phys_inj ..).mp hp, hn] at hi
  cases hi

/-! ### R15 -/

/-- A listed R15 is loaded with its word. -/
theorem loadedPc_ldmPairs_listed {h : BlockHead} (hb : h.list.getLsbD 15 = true) (n : Fin 15) (s : State) :
    loadedPc (ldmPairs h n s) = some (wordAt (blockAddressOf h (readX n s) 15) s) :=
  loadedPc_of_mem (nodup_ldmPairs h n s) (mem_ldmPairs.mpr ⟨15, by decide, hb, rfl⟩)

/-- The end of an LDM writes no general register and no memory (rules R196, R267). -/
theorem finishLdm_frame (h : BlockHead) (w : Option Word) (s : State) :
    SameRegs s (finishLdm h w s) ∧ (finishLdm h w s).mem = s.mem ∧ SameRest s (finishLdm h w s) := by
  cases w with
  | none => exact ⟨fun p => by cases p <;> rfl, rfl, ⟨rfl, rfl, rfl⟩, rfl⟩
  | some v => cases hs : h.s <;> simp [finishLdm, hs, SameRegs, SameRest, SamePlatform]

/-- A write of the PSR of a state with the PSR of s is one of the PSR of s. -/
theorem PsrWritten.of_samePsr {v : Word} {s t u : State} (hs : SamePsr s t) (hw : PsrWritten v t u) :
    PsrWritten v s u := by
  obtain ⟨-, hI, hF, hM⟩ := hs
  obtain ⟨hn, hz, hc, hv, user, privileged⟩ := hw
  refine ⟨hn, hz, hc, hv, fun hu => ?_, fun hp => privileged (hM ▸ hp)⟩
  obtain ⟨kI, kF, kM⟩ := user (hM.trans hu)
  exact ⟨kI.trans hI, kF.trans hF, kM.trans hM⟩

/-- A loaded R15 gives the PC its bits 25:2 and with S = 1 the PSR its bits (rule R196). -/
theorem finishLdm_some {s u : State} (hu : TransferOnly (clearHazard s) u) (h : BlockHead) (v : Word) :
    GoesTo (v.extractLsb' 2 24) (finishLdm h (some v) u) ∧
      if h.s then PsrWritten v s (finishLdm h (some v) u) else SamePsr s (finishLdm h (some v) u) := by
  obtain ⟨⟨-, hpsr, -⟩, hz, -⟩ := hu
  cases hs : h.s with
  | false =>
    simp only [finishLdm, hs]
    exact ⟨⟨rfl, hz⟩, hpsr⟩
  | true =>
    simp only [finishLdm, hs]
    exact ⟨⟨restoreR15_pc v u, (restoreR15_hazard v u).trans hz⟩, (psrWritten_restoreR15 v u).of_samePsr hpsr⟩

/-- Without R15 the PC and the PSR stay, and a user-bank load from a privileged mode is remembered (rule R267,
log 23). -/
theorem finishLdm_none {s u : State} (hu : TransferOnly (clearHazard s) u) {h : BlockHead}
    (hb : h.list.getLsbD 15 = false) :
    (finishLdm h none u).pc = s.pc ∧ SamePsr s (finishLdm h none u) ∧
      (finishLdm h none u).hazard = if h.s = true ∧ s.mode ≠ .usr then some .userBankLoad else none := by
  obtain ⟨hentry, -⟩ := hu
  have hmode : u.mode = s.mode := hentry.mode
  obtain ⟨hpc, hpsr, -⟩ := hentry
  have bank : loadUsesUserBank h = h.s := by
    have unlisted : inList h.list .r15 = false := hb
    simp [loadUsesUserBank, unlisted]
  exact ⟨hpc, hpsr, by simp [finishLdm, bank, hmode]⟩

/-- The list holds R15 where its bit 15 is set (rule R191). -/
theorem inList_r15 (list : BitVec 16) : inList list .r15 = list.getLsbD 15 := rfl

/-- The state an LDM ends in: R15 loaded last, or the PC gone on (rules R27, R193, R196). -/
def ldmDone (h : BlockHead) (n : Fin 15) (s : State) : State :=
  concluded (inList h.list .r15) (finishLdm h (loadedPc (ldmPairs h n s)) (ldmLoaded h n s))

/-- An LDM whose accesses are all granted ends in that state. -/
theorem exec_ldm_granted {h : BlockHead} {n : Fin 15} {s : State} (ha : BlockAttempts h n (loadUsesUserBank h) s)
    (hl : BlockLegal h (readX n s)) (hg : BlockGranted h (readX n s) .read s)
    (hm : h.list.getLsbD 15 = false → mayAdvance s = true) : exec (.ldm h) s = .next (ldmDone h n s) :=
  execLdm_granted ha hl hg hm

theorem ldmDone_listed {h : BlockHead} (hb : h.list.getLsbD 15 = true) (n : Fin 15) (s : State) :
    ldmDone h n s = finishLdm h (some (wordAt (blockAddressOf h (readX n s) 15) s)) (ldmLoaded h n s) := by
  simp only [ldmDone, inList_r15, hb, loadedPc_ldmPairs_listed hb, concluded, if_true]

theorem ldmDone_unlisted {h : BlockHead} (hb : h.list.getLsbD 15 = false) (n : Fin 15) (s : State) :
    ldmDone h n s = advance (finishLdm h none (ldmLoaded h n s)) := by
  simp only [ldmDone, inList_r15, hb, loadedPc_ldmPairs hb, concluded, Bool.false_eq_true, if_false]

/-- What an LDM leaves in the PC, the PSR and the hazard (rules R27, R196, R267). -/
theorem ldmDone_control (h : BlockHead) (n : Fin 15) (s : State) :
    if h.list.getLsbD 15 then
      GoesTo ((wordAt (blockAddressOf h (readX n s) 15) s).extractLsb' 2 24) (ldmDone h n s) ∧
        (if h.s then PsrWritten (wordAt (blockAddressOf h (readX n s) 15) s) s (ldmDone h n s)
        else SamePsr s (ldmDone h n s))
    else (ldmDone h n s).pc = s.pc + 1 ∧ SamePsr s (ldmDone h n s) ∧
      (ldmDone h n s).hazard = if h.s = true ∧ s.mode ≠ .usr then some .userBankLoad else none := by
  have loaded := transferOnly_ldmLoaded h n s
  cases hb : h.list.getLsbD 15 with
  | true =>
    rw [ldmDone_listed hb]
    exact finishLdm_some loaded h _
  | false =>
    obtain ⟨hpc, hpsr, hz⟩ := finishLdm_none loaded hb
    rw [ldmDone_unlisted hb]
    exact ⟨congrArg (· + 1) hpc, hpsr, hz⟩

/-- No general register is written after the loads. -/
theorem readPhys_ldmDone (p : PhysReg) (h : BlockHead) (n : Fin 15) (s : State) :
    readPhys p (ldmDone h n s) = readPhys p (ldmLoaded h n s) := by
  obtain ⟨regs, -⟩ := finishLdm_frame h (loadedPc (ldmPairs h n s)) (ldmLoaded h n s)
  exact (readPhys_concluded ..).trans (regs p)

/-- An LDM leaves memory, the platform and the free values alone. -/
theorem ldmDone_frame (h : BlockHead) (n : Fin 15) (s : State) :
    SameMemory s (ldmDone h n s) ∧ SameRest s (ldmDone h n s) := by
  obtain ⟨⟨-, -, platform, halt, inputs⟩, -, free⟩ := transferOnly_ldmLoaded h n s
  obtain ⟨-, fmem, ⟨fplatform, fhalt, finputs⟩, ffree⟩ :=
    finishLdm_frame h (loadedPc (ldmPairs h n s)) (ldmLoaded h n s)
  refine ⟨fun a => ?memory, ⟨?_, ?_, ?_⟩, ?_⟩
  case memory => rw [ldmDone, concluded_mem, fmem, ldmLoaded_mem]
  · exact (concluded_platform ..).trans (fplatform.trans platform)
  · exact (concluded_haltAddress ..).trans (fhalt.trans halt)
  · exact (concluded_inputs ..).trans (finputs.trans inputs)
  · exact (concluded_freeCount ..).trans (ffree.trans free)

/-- Settles O35: the general registers are as the loads left them, R15 or the PC as the end of the LDM does. -/
theorem ldmLoadsTheListedRegisters : Obligations.LdmLoadsTheListedRegisters := by
  intro h n s ha hl hg hm
  obtain ⟨hmem, hrest⟩ := ldmDone_frame h n s
  refine ⟨encodeBlock_and_mask 1 h, _, exec_ldm_granted ha hl hg hm, hmem, hrest, fun i hi => ?listed,
    fun hw hn => ?base, fun p hp => ?others, ldmDone_control h n s⟩
  case listed => rw [readPhys_ldmDone, readPhys_ldmLoaded_listed hi]
  case base => rw [readPhys_ldmDone, readPhys_ldmLoaded_base ha hw hn]
  case others =>
    rw [List.mem_append, not_or] at hp
    rw [readPhys_ldmDone, readPhys_ldmLoaded_unlisted hp.1, if_neg hp.2]

end Sys2Proof.Machine

/-! SUPPORT. What STM leaves: the stores, then the write-back (rules R194, R195, R197, R198). -/

namespace Sys2Proof.Machine

/-- The state of an STM that has stored its words and written its base back (rules R194, R195). -/
def stmWritten (h : BlockHead) (n : Fin 15) (s : State) : State :=
  blockWriteBack h n (blockFinal h (readX n s) (listCount h.list)) (storeAll (stmPairs h n 16 s) (clearHazard s))

theorem transferOnly_stmWritten (h : BlockHead) (n : Fin 15) (s : State) :
    TransferOnly (clearHazard s) (stmWritten h n s) :=
  (transferOnly_storeAll ..).trans (transferOnly_blockWriteBack ..)

/-- An STM changes no register but the written-back base, which holds `final` (rule R192). -/
theorem readPhys_stmWritten (p : PhysReg) (h : BlockHead) (n : Fin 15) (s : State) :
    readPhys p (stmWritten h n s) =
      if p ∈ blockWrittenBase h n s then blockFinal h (readX n s) (listCount h.list) else readPhys p s := by
  obtain ⟨regs, -⟩ := storesOnly_storeAll (stmPairs h n 16 s) (clearHazard s)
  obtain ⟨entry, -⟩ := transferOnly_storeAll (stmPairs h n 16 s) (clearHazard s)
  rw [stmWritten, readPhys_blockWriteBack, blockWrittenBase_congr entry.mode, regs, readPhys_clearHazard]
  rfl

/-- Settles O36: the stores make the bytes of the block, the write-back the base. -/
theorem stmStoresTheListedRegisters : Obligations.StmStoresTheListedRegisters := by
  intro h n s hwf ha hl hg hm
  obtain ⟨hentry, hz, hfree⟩ := transferOnly_stmWritten h n s
  have hmode : (stmWritten h n s).mode = s.mode := hentry.mode
  obtain ⟨hstored, hmem⟩ := blockStored_storeAll (u := advance (stmWritten h n s)) (Nat.le_refl 16) hl hwf
    hentry.platform (blockWriteBack_mem ..)
  obtain ⟨hpc, hpsr, hplatform⟩ := hentry
  refine ⟨encodeBlock_and_mask 0 h, advance (stmWritten h n s), execStm_granted ha hl hg hm, hstored, hmem, hpsr,
    ⟨hplatform, hfree⟩, fun p hp => ?others, fun hw => ?base, congrArg (· + 1) hpc, hz⟩
  case others => rw [readPhys_advance, readPhys_stmWritten, if_neg hp]
  case base => rw [readX_advance, readX, hmode, readPhys_stmWritten, if_pos (mem_blockWrittenBase hw n s)]

end Sys2Proof.Machine

/-! SUPPORT. A block transfer that fails: the trap, and what LDM and STM leave before it (rules R199, R200, R235, R237,
D19, D20). -/

namespace Sys2Proof.Machine

/-! ### The trap -/

/-- e is a trap of a transfer: it enters SVC mode at the vector v, its saved word eight bytes ahead, FIQ not masked
(rules R222, R223). -/
structure TransferTrap (e : Exception) (v : PcWord) : Prop where
  mode : exceptionMode e = .svc
  vector : exceptionVector e = v
  link : exceptionLink e = 8
  masksFiq : exceptionMasksFiq e = false

theorem transferTrap_addressException : TransferTrap .addressException 5 := ⟨rfl, rfl, rfl, rfl⟩

theorem transferTrap_dataAbort : TransferTrap .dataAbort 4 := ⟨rfl, rfl, rfl, rfl⟩

/-- The trap of a failed block transfer, u being the state with what it leaves in its listed registers and in memory:
the entry with the address plus 8, the base register as `abort_side_effects` says (rules R199, R200, R223, D20). -/
theorem failBlock_traps {e : Exception} {v : PcWord} (he : TransferTrap e v) (h : BlockHead) (n : Fin 15) (final : Word)
    {ps : List PhysReg} {s u : State} (ho : LeftOpen ps s u) :
    Entered .svc v 2 false (ps ++ [phys s.mode n]) s (failBlock e h n (readX n s) final u) ∧
      BaseAfterFailure n (if h.w then final else readX n s) s (failBlock e h n (readX n s) final u) := by
  have hentry : SameForEntry s u := ho.1
  obtain ⟨hbase, -⟩ := leftOpen_failedBase (.gpr n) (readX n s) (blockBaseIfWritten h (readX n s) final) u
  rw [baseReg, hentry.mode] at hbase
  have saved : IsR15Word (s.pc + 2) s (r15full (exceptionLink e) s) := he.link ▸ isR15Word_eight s
  exact ⟨entered_takeException he.mode he.vector he.masksFiq saved (ho.trans hbase),
    baseAfterFailure_takeException he.mode n _ hentry.mode hentry.platform⟩

/-! ### LDM -/

/-- The state after the trap of an LDM that failed at number `bound` (rules R199, R200). -/
def ldmFailed (e : Exception) (h : BlockHead) (n : Fin 15) (bound : Nat) (s : State) : State :=
  failBlock e h n (readX n s) (blockFinal h (readX n s) (listCount h.list))
    (failedLoads (bankMode (loadUsesUserBank h) s) (listedRegs h.list)
      ((listedBelow h.list bound).map fun i => wordAt (blockAddressOf h (readX n s) i) s) (clearHazard s))

/-- What the claims say of a failed LDM. -/
theorem ldmFailed_traps {e : Exception} {v : PcWord} (he : TransferTrap e v) (h : BlockHead) (n : Fin 15) {bound : Nat}
    (hb : bound ≤ 16) (s : State) :
    SameMemory s (ldmFailed e h n bound s) ∧
      Entered .svc v 2 false (listedPhys (bankMode (loadUsesUserBank h) s) h.list ++ [phys s.mode n]) s
        (ldmFailed e h n bound s) ∧
      BaseAfterFailure n (if h.w then blockFinal h (readX n s) (listCount h.list) else readX n s) s
        (ldmFailed e h n bound s) ∧
      LoadsAfterFailure h n bound s (ldmFailed e h n bound s) := by
  obtain ⟨hloads, hmem⟩ := leftOpen_failedLoads (bankMode (loadUsesUserBank h) s) h.list
    ((listedBelow h.list bound).map fun i => wordAt (blockAddressOf h (readX n s) i) s) (clearHazard s)
  obtain ⟨hentered, hbase⟩ := failBlock_traps he h n (blockFinal h (readX n s) (listCount h.list))
    ((leftOpen_clearHazard s).trans hloads)
  exact ⟨fun a => by rw [ldmFailed, failBlock_mem, hmem, clearHazard_mem], hentered, hbase,
    loadsAfterFailure_failBlock he.mode h n hb _ _ s⟩

/-- An LDM whose first access that is not granted is aborted (rule R200). -/
theorem exec_ldm_aborted {h : BlockHead} {n : Fin 15} {s : State} {i : Nat}
    (ha : BlockAttempts h n (loadUsesUserBank h) s) (hl : BlockLegal h (readX n s)) (hi : i < 16)
    (hb : h.list.getLsbD i = true)
    (hd : checkBus (busAddress (blockAddressOf h (readX n s) i) .word) .word .read false s = .dataAbort)
    (hg : ∀ j < i, h.list.getLsbD j = true →
      checkBus (busAddress (blockAddressOf h (readX n s) j) .word) .word .read false s = .granted) :
    exec (.ldm h) s = .next (ldmFailed .dataAbort h n i s) := by
  obtain ⟨post, split⟩ := listedBelow_split hi hb
  have granted : ∀ a ∈ (listedBelow h.list i).map (blockAddressOf h (readX n s)),
      checkBus (busAddress a .word) .word .read false s = .granted := by
    intro a hmem
    obtain ⟨j, hj, rfl⟩ := List.mem_map.mp hmem
    obtain ⟨hlt, hbit⟩ := mem_listedBelow.mp hj
    exact hg j hlt hbit
  change execLdm h s = _
  rw [execLdm_legal ha hl, split, List.map_append, List.map_cons, readBlock_abort granted hd, List.map_map]
  rfl

/-! ### STM -/

/-- The state after the trap of an STM that failed at number `bound` (rules R199, R200). -/
def stmFailed (e : Exception) (h : BlockHead) (n : Fin 15) (bound : Nat) (s : State) : State :=
  failBlock e h n (readX n s) (blockFinal h (readX n s) (listCount h.list))
    (storeAll (stmPairs h n bound s) (clearHazard s))

/-- Storing words opens no register to a failed transfer. -/
theorem leftOpen_storeAll (pairs : List (Word × Word)) (s : State) :
    LeftOpen [] s (storeAll pairs (clearHazard s)) := by
  obtain ⟨regs, -⟩ := storesOnly_storeAll pairs (clearHazard s)
  obtain ⟨hentry, -, hfree⟩ := transferOnly_storeAll pairs (clearHazard s)
  exact ⟨hentry, fun p _ => (regs p).trans (readPhys_clearHazard p s), hfree.ge, hfree.le⟩

/-- What the claims say of the registers after a failed STM. -/
theorem stmFailed_traps {e : Exception} {v : PcWord} (he : TransferTrap e v) (h : BlockHead) (n : Fin 15) (bound : Nat)
    (s : State) :
    Entered .svc v 2 false [phys s.mode n] s (stmFailed e h n bound s) ∧
      BaseAfterFailure n (if h.w then blockFinal h (readX n s) (listCount h.list) else readX n s) s
        (stmFailed e h n bound s) :=
  failBlock_traps he h n _ (leftOpen_storeAll _ s)

/-- The words of the registers below `bound` stay stored, every other byte is as before (rule R200). -/
theorem stmFailed_stored {e : Exception} {h : BlockHead} {n : Fin 15} {bound : Nat} {s : State}
    (hb : bound ≤ 16) (hl : BlockLegal h (readX n s)) (hm : s.mem.wf = true) :
    BlockStored h n bound s (stmFailed e h n bound s) ∧
      SameMemoryExcept (blockBytes h (readX n s) bound) s (stmFailed e h n bound s) := by
  obtain ⟨stored, -⟩ := leftOpen_storeAll (stmPairs h n bound s) s
  obtain ⟨⟨based, -⟩, -⟩ := leftOpen_failedBase (.gpr n) (readX n s)
    (blockBaseIfWritten h (readX n s) (blockFinal h (readX n s) (listCount h.list)))
    (storeAll (stmPairs h n bound s) (clearHazard s))
  exact blockStored_storeAll hb hl hm ((takeException_platform ..).trans (based.platform.trans stored.platform))
    (failBlock_mem ..)

/-- The stores of an STM split at a listed register. -/
theorem stmPairs_split {h : BlockHead} {i : Nat} (hi : i < 16) (hb : h.list.getLsbD i = true) (n : Fin 15) (s : State) :
    ∃ v post, stmPairs h n 16 s = stmPairs h n i s ++ (blockAddressOf h (readX n s) i, v) :: post := by
  obtain ⟨post, split⟩ := listedBelow_split hi hb
  rw [stmPairs, split, List.map_append, List.map_cons]
  exact ⟨_, _, rfl⟩

/-- An STM whose first access that is not granted is aborted (rule R200). -/
theorem exec_stm_aborted {h : BlockHead} {n : Fin 15} {s : State} {i : Nat} (ha : BlockAttempts h n h.s s)
    (hl : BlockLegal h (readX n s)) (hi : i < 16) (hb : h.list.getLsbD i = true)
    (hd : checkBus (busAddress (blockAddressOf h (readX n s) i) .word) .word .write false s = .dataAbort)
    (hg : ∀ j < i, h.list.getLsbD j = true →
      checkBus (busAddress (blockAddressOf h (readX n s) j) .word) .word .write false s = .granted) :
    exec (.stm h) s = .next (stmFailed .dataAbort h n i s) := by
  obtain ⟨v, post, split⟩ := stmPairs_split hi hb n s
  have granted : ∀ p ∈ stmPairs h n i s,
      checkBus (busAddress p.1 .word) .word .write false (clearHazard s) = .granted := by
    intro p hmem
    obtain ⟨j, hj, rfl⟩ := List.mem_map.mp hmem
    obtain ⟨hlt, hbit⟩ := mem_listedBelow.mp hj
    rw [checkBus_clearHazard]
    exact hg j hlt hbit
  change execStm h s = _
  rw [execStm_legal ha hl, split, writeBlock_abort granted]
  · rfl
  · rw [checkBus_clearHazard]
    exact hd

/-- Settles O38: the accesses before the aborted one decide what the trap finds. -/
theorem blockDataAbort : Obligations.BlockDataAbort := by
  intro h n i s hl hi hb written
  refine ⟨fun ha hd hg => ?ldm, fun hwf ha hd hg => ?stm⟩
  case ldm => exact ⟨_, exec_ldm_aborted ha hl hi hb hd hg, ldmFailed_traps transferTrap_dataAbort h n hi.le s⟩
  case stm =>
    obtain ⟨hstored, hmem⟩ := stmFailed_stored (e := .dataAbort) hi.le hl hwf
    exact ⟨_, exec_stm_aborted ha hl hi hb hd hg, hstored, hmem, stmFailed_traps transferTrap_dataAbort h n i s⟩

/-! ### The first address and the top of memory -/

/-- A block that is not legal has an address that raises the address exception. -/
theorem addressIllegal_of_not_blockLegal {h : BlockHead} {base : Word} (hl : ¬ BlockLegal h base) :
    ((listedBelow h.list 16).map (blockAddressOf h base)).any addressIllegal = true := by
  unfold BlockLegal at hl
  push Not at hl
  obtain ⟨i, hi, hb, htop⟩ := hl
  rw [List.any_map, List.any_eq_true]
  exact ⟨i, mem_listedBelow.mpr ⟨hi, hb⟩, (addressIllegal_iff _).mpr htop⟩

/-- A block that starts at a legal address and runs over the top is refused (D19, log 41). -/
theorem exec_block_crossesTop {h : BlockHead} {n : Fin 15} {s : State}
    (hx : (blockStart h (readX n s) (listCount h.list)).toNat < 0x4000000) (hl : ¬ BlockLegal h (readX n s)) :
    (BlockAttempts h n (loadUsesUserBank h) s → exec (.ldm h) s = .refused .blockCrossesTop) ∧
      (BlockAttempts h n h.s s → exec (.stm h) s = .refused .blockCrossesTop) := by
  have start := (addressIllegal_false_iff _).mpr hx
  have later := addressIllegal_of_not_blockLegal hl
  refine ⟨fun ha => ?ldm, fun ha => ?stm⟩
  case ldm =>
    refine (execLdm_attempts ha).trans ?_
    simp only [ldmFrom, readX_clearHazard, length_listedRegs, blockAddresses_eq, start, later, Bool.false_eq_true,
      if_false, if_true]
  case stm =>
    refine (execStm_attempts ha).trans ?_
    simp only [stmTo, readX_clearHazard, length_listedRegs, blockAddresses_eq, start, later, Bool.false_eq_true,
      if_false, if_true]

/-- Settles O37: before the trap no word is read or stored, so the transfer failed at number 0. -/
theorem blockAddressException : Obligations.BlockAddressException := by
  intro h n s start written
  have excepted (hx : 0x4000000 ≤ start.toNat) := exec_blockException (h := h) ((addressIllegal_iff _).mpr hx)
  have crosses (hx : start.toNat < 0x4000000) (hl : ¬ BlockLegal h (readX n s)) := exec_block_crossesTop hx hl
  refine ⟨fun ha => ⟨fun hx => ?ldm, fun hx hl => (crosses hx hl).1 ha⟩,
    fun ha => ⟨fun hx => ?stm, fun hx hl => (crosses hx hl).2 ha⟩⟩
  case ldm =>
    exact ⟨ldmFailed .addressException h n 0 s, (excepted hx).1 ha,
      ldmFailed_traps transferTrap_addressException h n (Nat.zero_le 16) s⟩
  case stm =>
    exact ⟨stmFailed .addressException h n 0 s, (excepted hx).2 ha, fun a => congrArg (·.read a) (failBlock_mem ..),
      stmFailed_traps transferTrap_addressException h n 0 s⟩

end Sys2Proof.Machine

/-! SUPPORT. The supervisor call and the undefined words: the bits that tell them, and the trap each takes (rules R89,
R90, R210, R212, R223, D11). -/

namespace Sys2Proof

/-- Under mask 0x0E000000 an undefined word with bits 27:25 = 110 keeps those bits alone (rule R90). -/
theorem encode_undefined110_and_mask (c : Cond) (rest : BitVec 25) :
    encode (.undefined110 c rest) &&& 0x0E000000 = 0x0C000000 := by
  change condBits c ++ 6#3 ++ rest &&& (0#4 ++ BitVec.allOnes 3 ++ 0#25) = 0#4 ++ 6#3 ++ 0#25
  rw [BitVec.and_append, BitVec.and_append, BitVec.and_zero, BitVec.and_allOnes, BitVec.and_zero]

end Sys2Proof

namespace Sys2Proof.Machine

/-- The trap of an instruction that saves the address of the next one: it is that of s wherever only the hazard of s
was cleared before it (rules R223, R224). -/
theorem entered_trap {e : Exception} {m : Mode} {v : PcWord} {f : Bool} (hm : exceptionMode e = m)
    (hv : exceptionVector e = v) (hf : exceptionMasksFiq e = f) (hl : exceptionLink e = 4) (s : State) :
    Entered m v 1 f [] s (takeException e (clearHazard s)) ∧ SameMemory s (takeException e (clearHazard s)) :=
  ⟨entered_takeException hm hv hf (hl ▸ isR15Word_four s) (leftOpen_clearHazard s), fun a => by simp⟩

/-! ### The supervisor call -/

/-- SWI names no register, so no hazard stops it, and its number has no effect (rules R210, R266). -/
theorem exec_swi_passed {c : Cond} {s : State} (hc : condPassed c s = true) (number : BitVec 24) :
    exec (.swi c number) s = .next (takeException .softwareInterrupt (clearHazard s)) := by
  rw [exec, execSwi, conditional_passed hc (hazardHit_nil s)]

/-- Settles O43: SWI takes the software interrupt exception. -/
theorem swiEntersSupervisorMode : Obligations.SwiEntersSupervisorMode := fun c number s hc =>
  ⟨condBits_append_and_mask c 15#4 number, _, exec_swi_passed hc number, entered_trap rfl rfl rfl rfl s⟩

/-! ### The undefined words -/

/-- A word is in `undef_set` exactly when it agrees with one of its patterns (D11, log 14). -/
theorem inUndefSet_iff {w : Word} {s : State} :
    inUndefSet w s = true ↔ ∃ p ∈ s.platform.undefSet, w &&& p.mask = p.pattern := by
  simp [inUndefSet]

@[simp] theorem inUndefSet_clearHazard (w : Word) (s : State) : inUndefSet w (clearHazard s) = inUndefSet w s := rfl

/-- A word that no pattern of `undef_set` agrees with is not in it. -/
theorem inUndefSet_eq_false {w : Word} {s : State} (h : ∀ p ∈ s.platform.undefSet, w &&& p.mask ≠ p.pattern) :
    inUndefSet w s = false := by
  rw [← Bool.not_eq_true, inUndefSet_iff]
  exact fun ⟨p, hp, agrees⟩ => h p hp agrees

/-- The instruction is no more than its word, tested against `undef_set` once its condition has passed (rules R90,
R212). -/
def IsUndefined (i : Instr) : Prop := ∀ s, exec i s = conditional i.cond [] (undefinedBody (encode i)) s

theorem isUndefined_undefined110 (c : Cond) (rest : BitVec 25) : IsUndefined (.undefined110 c rest) := fun _ => rfl

theorem isUndefined_undefined1110 (c : Cond) (rest : BitVec 24) : IsUndefined (.undefined1110 c rest) := fun _ => rfl

/-- Where its condition passes, `undef_set` decides between the undefined instruction exception and the refusal (rules
R90, R212, D11). -/
theorem IsUndefined.exec_passed {i : Instr} (hi : IsUndefined i) {s : State} (hc : condPassed i.cond s = true) :
    exec i s = if inUndefSet (encode i) s then .next (takeException .undefinedInstruction (clearHazard s))
      else .refused .outsideUndefSet := by
  rw [hi, conditional_passed hc (hazardHit_nil s), undefinedBody, inUndefSet_clearHazard]

/-- An undefined instruction traps where `undef_set` holds its word and is refused elsewhere (rules R90, R212, D11). -/
theorem IsUndefined.traps_or_refused {i : Instr} (hi : IsUndefined i) {s : State} (hc : condPassed i.cond s = true) :
    ((∃ p ∈ s.platform.undefSet, encode i &&& p.mask = p.pattern) →
      ∃ t, exec i s = .next t ∧ Entered .svc 1 1 false [] s t ∧ SameMemory s t) ∧
    ((∀ p ∈ s.platform.undefSet, encode i &&& p.mask ≠ p.pattern) → exec i s = .refused .outsideUndefSet) := by
  rw [hi.exec_passed hc]
  refine ⟨fun held => ?trapped, fun outside => ?refused⟩
  case trapped => exact ⟨_, if_pos (inUndefSet_iff.mpr held), entered_trap rfl rfl rfl rfl s⟩
  case refused => rw [inUndefSet_eq_false outside]; rfl

/-- Settles O44: each pattern has its own entry in the `undef_set` of the spec. -/
theorem undefinedInstructionsTrap : Obligations.UndefinedInstructionsTrap := by
  refine ⟨fun c rest => ?pattern110, fun c rest => ?pattern1110⟩
  case pattern110 =>
    have word := encode_undefined110_and_mask c rest
    exact ⟨word, ⟨_, .head _, word⟩, fun _ hc => (isUndefined_undefined110 c rest).traps_or_refused hc⟩
  case pattern1110 =>
    have word : encode (.undefined1110 c rest) &&& 0x0F000000 = 0x0E000000 := condBits_append_and_mask c 14#4 rest
    exact ⟨word, ⟨_, .tail _ (.head _), word⟩, fun _ hc => (isUndefined_undefined1110 c rest).traps_or_refused hc⟩

end Sys2Proof.Machine

/-! SUPPORT. The entry of each exception and the return that undoes it (rules R141, R222 to R224, R242). -/

namespace Sys2Proof.Machine

/-! ### Entries -/

/-- How many words after the instruction the saved address is: `exceptionLink` in words (rule R223). -/
def exceptionAhead : Exception → PcWord
  | .undefinedInstruction | .softwareInterrupt | .prefetchAbort | .irq | .fiq => 1
  | .dataAbort | .addressException => 2

theorem isR15Word_exceptionLink (e : Exception) (s : State) :
    IsR15Word (s.pc + exceptionAhead e) s (r15full (exceptionLink e) s) := by
  cases e with
  | undefinedInstruction | softwareInterrupt | prefetchAbort | irq | fiq => exact isR15Word_four s
  | dataAbort | addressException => exact isR15Word_eight s

/-- Each exception is entered as the tables of its mode, its vector, its link and its masks say (rules R222 to R224). -/
theorem entered_exception (e : Exception) (s : State) :
    Entered (exceptionMode e) (exceptionVector e) (exceptionAhead e) (exceptionMasksFiq e) [] s (takeException e s) :=
  entered_takeException rfl rfl rfl (isR15Word_exceptionLink e s)
    ⟨.refl s, fun _ _ => rfl, Nat.le_refl _, Nat.le_refl _⟩

/-- No exception enters user mode (rule R223). -/
theorem exceptionMode_ne_usr (e : Exception) : exceptionMode e ≠ .usr := by
  cases e <;> decide

/-- Settles O42: the rows of the table, one exception each. -/
theorem exceptionEntries : Obligations.ExceptionEntries := fun s =>
  ⟨entered_exception .undefinedInstruction s, entered_exception .softwareInterrupt s,
    entered_exception .prefetchAbort s, entered_exception .dataAbort s, entered_exception .addressException s,
    entered_exception .irq s, entered_exception .fiq s, fun e a => by rw [takeException_mem]⟩

/-! ### What a write of R15 with its PSR undoes -/

/-- Outside user mode a write of the PSR saved from s brings back all of it (rules R25, R141). -/
theorem PsrWritten.restores_all {w : PcWord} {v : Word} {s t u : State} (hp : PsrWritten v t u)
    (hv : IsR15Word w s v) (hm : t.mode ≠ .usr) : SamePsr s u := by
  obtain ⟨wn, wz, wc, wv, -, wprivileged⟩ := hp
  obtain ⟨sn, sz, sc, sv, si, sf, -, smode⟩ := hv
  obtain ⟨wi, wf, wmode⟩ := wprivileged hm
  have mode : u.mode = s.mode := by rw [← modeOfBits_modeBits u.mode, wmode, smode, modeOfBits_modeBits]
  exact ⟨⟨wn.trans sn, wz.trans sz, wc.trans sc, wv.trans sv⟩, wi.trans si, wf.trans sf, mode⟩

/-- After the entry of e from s the word w, executed in the handler's first state, answers a state with the PC `pc`
and all else as in s but R14 of the handler's mode (rule R242). -/
def Undoes (e : Exception) (w : Word) (pc : PcWord) (s : State) : Prop :=
  ∃ u, exec (decode w) (takeException e s) = .next u ∧
    u.pc = pc ∧ SamePsr s u ∧ SameMemory s u ∧ SameRest s u ∧ SameRegsExcept [phys (exceptionMode e) 14] s u ∧
    u.hazard = none

/-- A write of R15 with S = 1, of the PSR of s and the address `pc`, undoes the entry from s (rules R141, R242). -/
theorem undoes_of_dpWritten {e : Exception} {w : Word} {pc : PcWord} {s u : State} {h : DpHead} {v : Word}
    {f : FlagValues} (hx : exec (decode w) (takeException e s) = .next u) (hd : h.rd = .r15) (hs : h.s = true)
    (hw : DpWritten h v f (takeException e s) u) (hv : IsR15Word pc s v) : Undoes e w pc s := by
  unfold DpWritten at hw
  rw [hd, hs] at hw
  obtain ⟨hmem, ⟨⟨hplatform, hhalt, hinputs⟩, hfree⟩, hregs, ⟨hpc, hhazard⟩, hpsr⟩ := hw
  have handler : (takeException e s).mode ≠ .usr := takeException_mode e s ▸ exceptionMode_ne_usr e
  have ⟨_, _, _, _, _, _, saved, _⟩ := hv
  refine ⟨u, hx, hpc.trans saved, PsrWritten.restores_all hpsr hv handler, fun a => ?memory, ?rest, fun p hp => ?regs,
    hhazard⟩
  case memory => rw [hmem a, takeException_mem]
  case rest =>
    exact ⟨⟨hplatform.trans (takeException_platform e s), hhalt.trans (takeException_haltAddress e s),
      hinputs.trans (takeException_inputs e s)⟩, hfree.trans (takeException_freeCount e s)⟩
  case regs => rw [hregs p, readPhys_takeException, if_neg (by simpa using hp)]

/-- In its first state the handler reads the saved word in R14 (rule R223). -/
theorem isR15Word_handlerLink (e : Exception) (s : State) :
    IsR15Word (s.pc + exceptionAhead e) s (readX 14 (takeException e s)) := by
  rw [readX, takeException_mode, readPhys_takeException, if_pos rfl]
  exact isR15Word_exceptionLink e s

/-! ### MOVS PC,R14 -/

/-- MOVS PC,R14 returns to the saved address: what O11 says of MOV. -/
theorem movs_undoes (e : Exception) (s : State) : Undoes e 0xE1B0F00E (s.pc + exceptionAhead e) s := by
  obtain ⟨-, shiftImm, -⟩ := movWritesOperandTwo
  obtain ⟨u, hx, hw⟩ := (shiftImm (returnHead true) linkOperand).2 (takeException e s)
    ⟨readX 14 (takeException e s), (takeException e s).flagC⟩ ⟨rfl, hazardHit_none rfl _, rfl, fun ha => nomatch ha⟩
  rw [← decode_movsPcR14] at hx
  exact undoes_of_dpWritten hx rfl rfl hw (isR15Word_handlerLink e s)

/-! ### SUBS PC,R14,#4 and SUBS PC,R14,#8 -/

/-- Taking k words off a saved word moves its address alone, where the address had not wrapped (rule R12). -/
theorem IsR15Word.sub_words {w k : PcWord} {s : State} {v : Word} (hv : IsR15Word (w + k) s v)
    (hk : w.toNat + k.toNat < 2 ^ 24) : IsR15Word w s (v - BitVec.ofNat 32 (4 * k.toNat)) := by
  obtain ⟨hn, hz, hc, hvf, hi, hf, hpc, hm⟩ := hv
  have address : v.toNat / 4 % 2 ^ 24 = w.toNat + k.toNat := by
    have := congrArg BitVec.toNat hpc
    rwa [BitVec.extractLsb'_toNat, Nat.shiftRight_eq_div_pow, BitVec.toNat_add, Nat.mod_eq_of_lt hk] at this
  have difference : (v - BitVec.ofNat 32 (4 * k.toNat)).toNat = v.toNat - 4 * k.toNat := by
    rw [BitVec.toNat_sub, BitVec.toNat_ofNat]; omega
  have high (i : Nat) (h26 : 26 ≤ i) : (v - BitVec.ofNat 32 (4 * k.toNat)).getLsbD i = v.getLsbD i := by
    obtain ⟨j, rfl⟩ := Nat.exists_eq_add_of_le h26
    rw [BitVec.getLsbD, BitVec.getLsbD, ← Nat.testBit_shiftRight, ← Nat.testBit_shiftRight, difference,
      Nat.shiftRight_eq_div_pow, Nat.shiftRight_eq_div_pow]
    congr 1
    omega
  refine ⟨(high 31 (by decide)).trans hn, (high 30 (by decide)).trans hz, (high 29 (by decide)).trans hc,
    (high 28 (by decide)).trans hvf, (high 27 (by decide)).trans hi, (high 26 (by decide)).trans hf, ?pc, ?mode⟩
  case pc =>
    apply BitVec.eq_of_toNat_eq
    rw [BitVec.extractLsb'_toNat, difference, Nat.shiftRight_eq_div_pow]
    omega
  case mode =>
    rw [← hm]
    apply BitVec.eq_of_toNat_eq
    rw [BitVec.extractLsb'_toNat, BitVec.extractLsb'_toNat, difference, Nat.shiftRight_zero, Nat.shiftRight_zero]
    omega

/-- The fields of SUBS PC,R14 (rule R242). -/
def subsReturnHead : DpHead := { cond := .al, s := true, rn := .gpr 14, rd := .r15 }

/-- What is added to the address on entry, as an immediate not rotated (rules R134, R223). -/
def linkDistance (e : Exception) : ImmOperand := { rotate := 0, imm8 := (exceptionLink e).setWidth 8 }

theorem rotatedImmediate_linkDistance (e : Exception) (c : Bool) :
    rotatedImmediate (linkDistance e) c = ⟨BitVec.ofNat 32 (4 * (exceptionAhead e).toNat), c⟩ := by
  cases e <;> rfl

/-- SUBS that takes off R14 what the entry added returns to the instruction itself, where the saved address had not
wrapped: what O3 says of SUB. -/
theorem subs_undoes {e : Exception} {w : Word} (hd : decode w = .subImm subsReturnHead (linkDistance e)) {s : State}
    (hk : s.pc.toNat + (exceptionAhead e).toNat < 2 ^ 24) : Undoes e w s.pc s := by
  obtain ⟨imm, -, -⟩ := subWritesTheDifference
  obtain ⟨u, hx, hw⟩ := (imm subsReturnHead (linkDistance e)).2 (takeException e s) _
    ⟨rfl, hazardHit_none rfl _, congrArg Except.ok (rotatedImmediate_linkDistance e _), fun ha => nomatch ha⟩
  rw [← hd] at hx
  exact undoes_of_dpWritten hx rfl rfl hw ((isR15Word_handlerLink e s).sub_words hk)

theorem decode_subsPcR14_4 : decode 0xE25EF004 = .subImm subsReturnHead ⟨0, 4⟩ := by decide

theorem decode_subsPcR14_8 : decode 0xE25EF008 = .subImm subsReturnHead ⟨0, 8⟩ := by decide

/-- Settles O46: MOVS returns to the saved address, SUBS to that many bytes before it. -/
theorem exceptionReturns : Obligations.ExceptionReturns := fun s =>
  ⟨movs_undoes .undefinedInstruction s, movs_undoes .softwareInterrupt s,
    fun h => ⟨subs_undoes decode_subsPcR14_4 h, subs_undoes decode_subsPcR14_4 h, subs_undoes decode_subsPcR14_4 h⟩,
    fun h => ⟨subs_undoes decode_subsPcR14_8 h, subs_undoes decode_subsPcR14_8 h⟩⟩

end Sys2Proof.Machine

/-! SUPPORT. The state after reset (rules R34, R260, R261). -/

namespace Sys2Proof.Machine

/-- Settles O55: memory lists nothing and no hazard is recorded. -/
theorem resetStateMeetsTheInvariant : Obligations.ResetStateMeetsTheInvariant :=
  inv_of_noHazard Memory.wf_reset rfl

/-- Settles O56: registers and flags are those of `reset_regs` where it gives them, the rest is the same on every
platform. -/
theorem resetState : Obligations.ResetState := by
  refine ⟨fun p => ⟨rfl, rfl, rfl, rfl, rfl, rfl, fun r hr => ?given⟩, Platform.standard, rfl⟩
  have values : p.resetRegs.getD ResetRegs.zero = r := by rw [hr]; rfl
  subst values
  exact ⟨rfl, rfl, rfl, rfl, rfl, rfl, rfl, rfl⟩

end Sys2Proof.Machine

/-! SUPPORT. Where a step ends the run, and a fetch that the memory map refuses (rules R55, R275, D3). -/

namespace Sys2Proof.Machine

/-- At the halt address the run ends, before any input is looked at (rule R275). -/
theorem step_atHalt {s : State} (hh : s.haltAddress = some (pcAddr s)) : step s = .fault .runEnded :=
  if_pos hh

/-- The memory map refuses a fetch whatever the memory manager answers (rule R55, log 38). -/
theorem runFetched_stopped {s : State} {why : Refusal} (hc : cellStop (pcAddr s) .word .fetch s = some why) :
    runFetched s = .refused why := by
  have hf : fetch s = .stop why := by rw [fetch, hc]
  rw [runFetched, hf]

/-- The bytes of a word are the four from its address on (rule R51). -/
theorem exists_mem_accessBytes_word {a : Nat} {P : Nat → Prop} :
    (∃ b ∈ accessBytes a .word, P b) ↔ ∃ k < 4, P (a + k) := by
  have bytes : accessBytes a .word = (List.range 4).map (a + ·) := rfl
  simp [bytes]

/-- The memory map refuses a fetch a byte of which does not exist (rule R55, D3). -/
theorem cellStop_fetch_absent {s : State}
    (absent : ∃ k < 4, cellKind s.platform.memMap (4 * s.pc.toNat + k) = .absent) :
    cellStop (pcAddr s) .word .fetch s = some .unpopulatedAddress := by
  rw [cellStop_eq, pcAddr_toNat, if_pos (exists_mem_accessBytes_word.mpr absent)]

/-- The memory map refuses a fetch all of whose bytes exist and one is a device's (log 4). -/
theorem cellStop_fetch_device {s : State}
    (present : ∀ k < 4, cellKind s.platform.memMap (4 * s.pc.toNat + k) ≠ .absent)
    (device : ∃ k < 4, cellKind s.platform.memMap (4 * s.pc.toNat + k) = .device) :
    cellStop (pcAddr s) .word .fetch s = some .deviceAccess := by
  have none_absent : ¬ ∃ b ∈ accessBytes (4 * s.pc.toNat) .word, cellKind s.platform.memMap b = .absent := fun h =>
    let ⟨k, hk, absent⟩ := exists_mem_accessBytes_word.mp h
    present k hk absent
  rw [cellStop_eq, pcAddr_toNat, if_neg none_absent, if_pos (exists_mem_accessBytes_word.mpr device)]

/-- Settles O50: the halt address comes before the inputs, the memory map before the instruction. -/
theorem stepStopsWhereTheSpecEndsTheRun : Obligations.StepStopsWhereTheSpecEndsTheRun := by
  refine fun s => ⟨step_atHalt, fun hh hp => ?_⟩
  have stops {why : Refusal} (hc : cellStop (pcAddr s) .word .fetch s = some why) : step s = .refused why := by
    rw [step_runs hh hp, runFetched_stopped hc]; rfl
  exact ⟨fun absent => stops (cellStop_fetch_absent absent),
    fun present device => stops (cellStop_fetch_device present device)⟩

end Sys2Proof.Machine

/-! SUPPORT. The instruction after a program-made change of mode or a user-bank LDM (rules R266, R267, D27). -/

namespace Sys2Proof.Machine

/-- Which registers a recorded hazard forbids: those the change of mode has switched, R10 to R14 after a user-bank
load (rules R266, R267, log 23). -/
theorem hazardHit_iff (named : List Reg) (s : State) :
    hazardHit named s = true ↔ ∃ i : Fin 15, .gpr i ∈ named ∧
      ((∃ old, s.hazard = some (.modeChange old) ∧ phys old i ≠ phys s.mode i) ∨
        (s.hazard = some .userBankLoad ∧ 10 ≤ i.val)) := by
  have named_gpr (hz : Hazard) :
      named.any (hazardous hz s.mode) = true ↔ ∃ i : Fin 15, .gpr i ∈ named ∧ hazardous hz s.mode (.gpr i) = true := by
    rw [List.any_eq_true]
    constructor
    · rintro ⟨r, hr, hit⟩
      cases r with
      | gpr i => exact ⟨i, hr, hit⟩
      | r15 => cases hit
    · rintro ⟨i, hi, hit⟩
      exact ⟨_, hi, hit⟩
  unfold hazardHit
  cases hs : s.hazard with
  | none => simp
  | some hz => cases hz <;> simp [named_gpr, hazardous]

/-- Settles O51: each class tests the hazard on the registers it names, before it does anything else. -/
theorem hazardousRegistersAreRefused : Obligations.HazardousRegistersAreRefused := by
  have hit {named : List Reg} {s : State} := (hazardHit_iff named s).mpr
  refine ⟨fun op h s hc => ⟨fun o hz => ?imm, fun o hz => ?shiftImm, fun o hz => ?shiftReg⟩,
    everySdt_of fun i op h o he s hc hz ha => ?single, fun h s hc hz => ⟨?ldm, ?stm⟩⟩
  case imm => rw [exec_dpImmInstr]; exact conditional_hazard hc (hit hz) _
  case shiftImm => rw [exec_dpShiftImmInstr]; exact conditional_hazard hc (hit hz) _
  case shiftReg => rw [exec_dpShiftRegInstr]; exact conditional_hazard hc (hit hz) _
  case single => rw [he s ha]; exact conditional_hazard hc (hit hz) _
  case ldm => exact conditional_hazard hc (hit hz) _
  case stm => exact conditional_hazard hc (hit hz) _

end Sys2Proof.Machine
